-- ==== Sys2Proof/Word.lean ====
section
/-! DEFINITION. The word types of the FastLZ codec block (00_scope.md R8, R9): bytes, the 16-bit ADL lanes
and the 32-bit lengths, cursors and table positions. Every value is unsigned. -/

namespace Sys2Proof

/-- One byte of a buffer (R9). -/
abbrev Byte := BitVec 8

/-- One ADL lane (R21). -/
abbrev Lane := BitVec 16

/-- A length, a cursor, a table position or a 32-bit register (R8 `LEN_BITS`). -/
abbrev Word := BitVec 32

end Sys2Proof
end

