-- ==== Sys2Proof/Config.lean ====
section
/-! DEFINITION. What is fixed for this hardware (00_scope.md R6, R8), the platform parameters the spec leaves
OPEN (92_eei_decisions.md), and the free values for what the spec leaves unspecified. -/

namespace Sys2Proof

namespace Config

/-- `ADLER_BASE`, the modulus of both checksum lanes (R6). -/
def adlerBase : Nat := 65521

/-- `ADLER_INIT`, the source's `initial()` (R6). -/
def adlerInit : Nat := 1

/-- `MIN_INPUT`, the least input length of `ENC.COMPRESS` (R6). -/
def minInput : Nat := 16

/-- `MIN_OUT_CAP`, the least output capacity of `ENC.COMPRESS` (R6). -/
def minOutCap : Nat := 66

/-- `HASH_LOG` (R8, log entry 16): the candidate table has `2 ^ hashLog = 8192` buckets. -/
def hashLog : Nat := 13

/-- Storage for ways in each bucket (R24). -/
def waySlots : Nat := 4

/-- `WAYS[level]` (R8, R153). -/
def ways (level : Nat) : Nat := if level = 1 then 1 else 4

/-- `MIN_MATCH` (R8). -/
def minMatch : Nat := 3

/-- `MIN_MATCH_FAR` (R8). -/
def minMatchFar : Nat := 5

/-- `MAX_NEAR`, the largest near distance (R8). -/
def maxNear : Nat := 8191

/-- `MAX_FAR`, the largest far distance (R8). -/
def maxFar : Nat := 73727

/-- `MAXDIST[level]` (R8, R153). -/
def maxDist (level : Nat) : Nat := if level = 1 then 8191 else 73727

/-- `MAXLEN[1]`; level 2 has no such limit (R8, R153). -/
def maxLenLevel1 : Nat := 264

/-- `LIT_MAX`, the longest literal run of one token (R8). -/
def litMax : Nat := 32

/-- `BLOCK_SIZE` default, least and largest value (R6): the host's own bound, checked by no unit. -/
def blockSizeDefault : Nat := 65536

/-- The least `BLOCK_SIZE` the host may take (R6). -/
def blockSizeMin : Nat := 256

/-- The largest `BLOCK_SIZE` the host may take (R6). -/
def blockSizeMax : Nat := 2621440

/-- A register read whose value the spec leaves unspecified (93_implementation_defined.md U1, `any value`):
the n-th such read of the run returns `freeReg n`. No body: nothing can be proved of it. -/
opaque freeReg : Nat → Word

/-- A byte of an output buffer left unspecified by a reset that ends an operation (U4, `any value`): the byte at
an address after the n-th free event of the run. No body: nothing can be proved of it. -/
opaque freeByte : Nat → Nat → Byte

end Config

/-- `len` bytes of the platform's address space from `base` on. -/
structure Region where
  base : Nat
  len : Nat
deriving DecidableEq, Repr

/-- The platform parameters the block's rules leave OPEN, held as plain data so that a statement about every
state is a statement about every platform: `ADDR_BITS` (R8), and the parts of the address space that are not
ordinary memory (93_implementation_defined.md U5). -/
structure Platform where
  /-- `ADDR_BITS`, the width of the buffer base registers. -/
  addrBits : Nat
  /-- Holes and device windows: no buffer of an operation may touch one (R66, R271). -/
  notMemory : List Region
deriving DecidableEq, Repr

/-- The platform of `State.reset`. DESIGN CHOICE (log entry 4): 32 address bits, all of it ordinary memory. -/
def Platform.default : Platform := { addrBits := 32, notMemory := [] }

end Sys2Proof
end

