-- ==== Sys2Proof/Syntax.lean ====
section
/-! DEFINITION. The instructions of spec/opcode_table.json: the five tokens DEC executes and the six host
commands, and the register access a host command is made of (30_encoding.md, 10_state.md R32). -/

namespace Sys2Proof

/-- The three functional units (R1). -/
inductive UnitId where
  | adl | enc | dec
deriving DecidableEq, Repr

/-- The register numbers of R32, by name. `reg8` is `SUM` in ADL and `LEVEL` in ENC. -/
inductive RegNo where
  | cmd | status | err | inBase | inLen | outBase | outCap | outLen | reg8
deriving DecidableEq, Repr

/-- The number R32 gives a register inside its unit. -/
def RegNo.number : RegNo → Nat
  | .cmd => 0
  | .status => 1
  | .err => 2
  | .inBase => 3
  | .inLen => 4
  | .outBase => 5
  | .outCap => 6
  | .outLen => 7
  | .reg8 => 8

/-- One access of the host to a unit's register (R29, R32). A written value is a natural number; the register
written keeps as many low bits of it as it holds. -/
inductive Access where
  | read (u : UnitId) (r : RegNo)
  | write (u : UnitId) (r : RegNo) (v : Nat)
deriving DecidableEq, Repr

/-- One constructor per mnemonic of spec/opcode_table.json. The table's six `MATCH.SN` rows (and its six `MATCH.SF`
rows) differ only in the field T, which is the operand `len = T + 2` here (R94, R95). Token operands are the
assembled ones of R98 to R102, so the machine never sees a raw field. -/
inductive Instr where
  /-- `LIT`: a literal run of the bytes `data` (R93). -/
  | lit (data : List Byte)
  /-- `MATCH.SN`: short length, near distance (R94). -/
  | matchSn (dist len : Nat)
  /-- `MATCH.SF`: short length, far distance (R95). -/
  | matchSf (dist len : Nat)
  /-- `MATCH.LN`: long length, near distance (R96). -/
  | matchLn (dist len : Nat)
  /-- `MATCH.LF`: long length, far distance (R97). -/
  | matchLf (dist len : Nat)
  /-- `ADL.INIT`: INIT written to `ADL_CMD` (R132). -/
  | adlInit
  /-- `ADL.UPDATE`: START written to `ADL_CMD` (R134). -/
  | adlUpdate
  /-- `ADL.LOAD v`: v written to `ADL_SUM` (R133). -/
  | adlLoad (v : Word)
  /-- `ADL.READ`: a read of `ADL_SUM` (R135). -/
  | adlRead
  /-- `ENC.COMPRESS`: START written to `ENC_CMD` (R150). -/
  | encCompress
  /-- `DEC.DECOMPRESS`: START written to `DEC_CMD` (R200). -/
  | decDecompress
deriving DecidableEq, Repr

/-- Whether an instruction is a token of DEC's stream (the others are host commands). -/
def Instr.isToken : Instr → Bool
  | .lit _ => true
  | .matchSn _ _ => true
  | .matchSf _ _ => true
  | .matchLn _ _ => true
  | .matchLf _ _ => true
  | .adlInit => false
  | .adlUpdate => false
  | .adlLoad _ => false
  | .adlRead => false
  | .encCompress => false
  | .decDecompress => false

end Sys2Proof
end

