-- ==== Sys2Proof/WellFormed.lean ====
section
/-! DEFINITION. The instructions that have an encoding: the operand ranges of 30_encoding.md R93 to R102, R109. -/

namespace Sys2Proof

/-- A literal run of one token is 1 to 32 bytes (R102). -/
def runOk (data : List Byte) : Bool := decide (1 ≤ data.length ∧ data.length ≤ Config.litMax)

/-- A short length is 3 to 8 (R100). -/
def shortLenOk (len : Nat) : Bool := decide (3 ≤ len ∧ len ≤ 8)

/-- A long length is 9 or more, without an upper bound (R101). -/
def longLenOk (len : Nat) : Bool := decide (9 ≤ len)

/-- A near distance is 1 to 8191 (R98). -/
def nearOk (dist : Nat) : Bool := decide (1 ≤ dist ∧ dist ≤ Config.maxNear)

/-- A far distance is 8192 to 73727 (R99). -/
def farOk (dist : Nat) : Bool := decide (Config.maxNear < dist ∧ dist ≤ Config.maxFar)

/-- The instruction has an encoding. -/
def Instr.wf : Instr → Bool
  | .lit data => runOk data
  | .matchSn dist len => nearOk dist && shortLenOk len
  | .matchSf dist len => farOk dist && shortLenOk len
  | .matchLn dist len => nearOk dist && longLenOk len
  | .matchLf dist len => farOk dist && longLenOk len
  | .adlInit => true
  | .adlUpdate => true
  | .adlLoad _ => true
  | .adlRead => true
  | .encCompress => true
  | .decDecompress => true

end Sys2Proof
end

