-- ==== Sys2Proof/Decode.lean ====
section
/-! DEFINITION. Decoding of tokens (format FLZ-T1, 30_encoding.md R90 to R106) and of host commands (R110), the encoder
written from the same rules, the assembler's choice of format (R111), the pseudo-instructions (R112), and the word
of spec/opcode_table.json laid out as the hardware stores it. -/

namespace Sys2Proof

/-- Why a byte sequence is no instruction. The first five are the truncated tokens of R106 (a), in the order the parser
meets them (R103); FLZ-T1 has no reserved encoding. -/
inductive DecodeError where
  /-- There is no control byte. -/
  | noByte
  /-- A `LIT` with fewer literal bytes than its run (R93). -/
  | literalTruncated
  /-- The bytes end inside the length extension (R101). -/
  | extensionTruncated
  /-- The bytes end before the distance low byte. -/
  | distanceTruncated
  /-- The bytes end inside the far-distance extension (R99). -/
  | farTruncated
  /-- A register access that is no command of the table: an operand, status or unassigned access (R30, R32). -/
  | plainAccess
deriving DecidableEq, Repr

/-- An instruction's code: the bytes of a token, or the register access of a host command (R110). -/
inductive Code where
  | token (bytes : List Byte)
  | access (a : Access)
deriving DecidableEq, Repr

/-! ### Fields of the control byte (R91) -/

/-- `T = c[7:5]`. -/
def ctlT (c : Byte) : Nat := c.toNat / 32

/-- `L5 = c[4:0]`. -/
def ctlL5 (c : Byte) : Nat := c.toNat % 32

/-- The control byte with the given `T` and `L5`. -/
def ctlByte (t l5 : Nat) : Byte := BitVec.ofNat 8 (t * 32 + l5)

/-- The high part of a 16-bit quantity, stored first (R61). -/
def hiByte (v : Nat) : Byte := BitVec.ofNat 8 (v / 256)

/-- The low part of a quantity. -/
def loByte (v : Nat) : Byte := BitVec.ofNat 8 v

/-! ### The token decoder (R103) -/

/-- A distance as the stream carries it: near form or far form. -/
inductive Distance where
  | near (d : Nat)
  | far (d : Nat)
deriving DecidableEq, Repr

/-- The length extension of R101: the sum of the bytes up to and including the first that is not `0xFF`, and the
bytes after it. -/
def readExt : List Byte → Except DecodeError (Nat × List Byte)
  | [] => .error .extensionTruncated
  | e :: rest =>
    if e = 0xFF#8 then
      match readExt rest with
      | .ok (x, rest') => .ok (255 + x, rest')
      | .error err => .error err
    else .ok (e.toNat, rest)

/-- The distance low byte and, in the far form, the two bytes of the far extension, high byte first (R98, R99). -/
def readDistance (l5 : Nat) : List Byte → Except DecodeError (Distance × List Byte)
  | [] => .error .distanceTruncated
  | d0 :: rest =>
    if l5 = 31 ∧ d0 = 0xFF#8 then
      match rest with
      | fh :: fl :: rest' => .ok (.far (8192 + (fh.toNat * 256 + fl.toNat)), rest')
      | _ => .error .farTruncated
    else .ok (.near (l5 * 256 + d0.toNat + 1), rest)

/-- The token at the head of a byte sequence, and the bytes after it (R103). Total: every sequence is a token
followed by the rest, or an error by name. -/
def decodeToken : List Byte → Except DecodeError (Instr × List Byte)
  | [] => .error .noByte
  | c :: rest =>
    if ctlT c = 0 then
      let data := rest.take (ctlL5 c + 1)
      if data.length < ctlL5 c + 1 then .error .literalTruncated
      else .ok (.lit data, rest.drop (ctlL5 c + 1))
    else if ctlT c ≤ 6 then
      match readDistance (ctlL5 c) rest with
      | .ok (.near d, rest') => .ok (.matchSn d (ctlT c + 2), rest')
      | .ok (.far d, rest') => .ok (.matchSf d (ctlT c + 2), rest')
      | .error err => .error err
    else
      match readExt rest with
      | .ok (x, rest1) =>
        match readDistance (ctlL5 c) rest1 with
        | .ok (.near d, rest') => .ok (.matchLn d (9 + x), rest')
        | .ok (.far d, rest') => .ok (.matchLf d (9 + x), rest')
        | .error err => .error err
      | .error err => .error err

/-- The host command a register access is, if it is one (R30, R110): START and INIT on `CMD`, a write or a read of
`ADL_SUM`. Every other access is a plain register access, and `CMD` values other than these have no effect. -/
def decodeAccess : Access → Option Instr
  | .write .adl .cmd v => if v = 1 then some .adlUpdate else if v = 2 then some .adlInit else none
  | .write .enc .cmd v => if v = 1 then some .encCompress else none
  | .write .dec .cmd v => if v = 1 then some .decDecompress else none
  | .write .adl .reg8 v => some (.adlLoad (BitVec.ofNat 32 v))
  | .read .adl .reg8 => some .adlRead
  | .write _ _ _ => none
  | .read _ _ => none

/-- The instruction of a code, and the stream bytes after it. -/
def decode : Code → Except DecodeError (Instr × List Byte)
  | .token bytes => decodeToken bytes
  | .access a =>
    match decodeAccess a with
    | some i => .ok (i, [])
    | none => .error .plainAccess

/-! ### The encoder -/

/-- The one encoding of a length extension (R101): `x div 255` bytes `0xFF`, then `x mod 255`. -/
def encodeExt (x : Nat) : List Byte := List.replicate (x / 255) 0xFF#8 ++ [BitVec.ofNat 8 (x % 255)]

/-- The bytes of a token (R93 to R97); none for a host command. -/
def encodeToken : Instr → List Byte
  | .lit data => ctlByte 0 (data.length - 1) :: data
  | .matchSn dist len => [ctlByte (len - 2) ((dist - 1) / 256), loByte (dist - 1)]
  | .matchSf dist len => [ctlByte (len - 2) 31, 0xFF#8, hiByte (dist - 8192), loByte (dist - 8192)]
  | .matchLn dist len => ctlByte 7 ((dist - 1) / 256) :: (encodeExt (len - 9) ++ [loByte (dist - 1)])
  | .matchLf dist len =>
    ctlByte 7 31 :: (encodeExt (len - 9) ++ [0xFF#8, hiByte (dist - 8192), loByte (dist - 8192)])
  | .adlInit => []
  | .adlUpdate => []
  | .adlLoad _ => []
  | .adlRead => []
  | .encCompress => []
  | .decDecompress => []

/-- The register access of a host command (R110); none for a token. -/
def encodeAccess : Instr → Option Access
  | .lit _ => none
  | .matchSn _ _ => none
  | .matchSf _ _ => none
  | .matchLn _ _ => none
  | .matchLf _ _ => none
  | .adlInit => some (.write .adl .cmd 2)
  | .adlUpdate => some (.write .adl .cmd 1)
  | .adlLoad v => some (.write .adl .reg8 v.toNat)
  | .adlRead => some (.read .adl .reg8)
  | .encCompress => some (.write .enc .cmd 1)
  | .decDecompress => some (.write .dec .cmd 1)

/-- The code of an instruction. -/
def encode (i : Instr) : Code :=
  match encodeAccess i with
  | some a => .access a
  | none => .token (encodeToken i)

/-- `k`, the number of extension bytes of a long length (R101). -/
def extBytes (len : Nat) : Nat := (len - 9) / 255 + 1

/-- `tlen`, the length of a token in bytes (R104); 0 for a host command. -/
def Instr.tlen : Instr → Nat
  | .lit data => 1 + data.length
  | .matchSn _ _ => 2
  | .matchSf _ _ => 4
  | .matchLn _ len => 2 + extBytes len
  | .matchLf _ len => 4 + extBytes len
  | .adlInit => 0
  | .adlUpdate => 0
  | .adlLoad _ => 0
  | .adlRead => 0
  | .encCompress => 0
  | .decDecompress => 0

/-! ### Assembler and pseudo-instructions (R111, R112) -/

/-- `MATCH d=<dist> l=<len>`: the assembler picks the format; operands outside the format's ranges are an error (R111). -/
def assembleMatch (dist len : Nat) : Option Instr :=
  if dist < 1 ∨ Config.maxFar < dist ∨ len < 3 then none
  else if dist ≤ Config.maxNear then some (if len ≤ 8 then .matchSn dist len else .matchLn dist len)
  else some (if len ≤ 8 then .matchSf dist len else .matchLf dist len)

/-- The literal tokens of a span, `fuel` of them at most. -/
def litTokens : Nat → List Byte → List Instr
  | 0, _ => []
  | _ + 1, [] => []
  | fuel + 1, b :: bs =>
    .lit ((b :: bs).take Config.litMax) :: litTokens fuel ((b :: bs).drop Config.litMax)

/-- `LITS b1 ... bn`: tokens `LIT` of 32 bytes, then one of the rest (R112). -/
def assembleLits (bytes : List Byte) : List Instr := litTokens bytes.length bytes

/-- `RUN b, n` (n >= 4): `LIT b` then `MATCH d=1 l=n-1` (R112). -/
def assembleRun (b : Byte) (n : Nat) : Option (List Instr) :=
  if n < 4 then none
  else
    match assembleMatch 1 (n - 1) with
    | some m => some [.lit [b], m]
    | none => none

/-- `REPEAT p, l`: `MATCH d=p l=l` (R112). -/
def assembleRepeat (p l : Nat) : Option Instr := assembleMatch p l

/-! ### The words of spec/opcode_table.json -/

/-- The length of the longest token whose bytes above the table's bits are zero: a `LIT` of 32 bytes. -/
def longestTableToken : Nat := 33

/-- The bytes of a table word, in stream order and padded with zeros. The table writes a two-byte pattern as the
number `(c << 8) | d0`, so the control byte is its high byte; a one-byte pattern is the control byte. -/
def tableBytes (nbits w : Nat) : List Byte :=
  (if nbits ≤ 8 then [loByte w] else [hiByte w, loByte w]) ++
    List.replicate (longestTableToken - (if nbits ≤ 8 then 1 else 2)) 0#8

/-- The register access a 32-bit table word stands for. The table's word is the VALUE of the access only; the unit,
the register and the direction are in the row, not in the word. The model reads the word as ADL's (log entry 9):
1 and 2 are written to `ADL_CMD`, 0 is the read of `ADL_SUM`, and any other value is written to `ADL_SUM`. -/
def tableAccess (w : Nat) : Access :=
  if w = 1 ∨ w = 2 then .write .adl .cmd w
  else if w = 0 then .read .adl .reg8
  else .write .adl .reg8 w

/-- The instruction the decoder reads from a table word of `nbits` bits, every later bit being 0. -/
def decodeTableWord (nbits w : Nat) : Option Instr :=
  if nbits ≤ 16 then
    match decode (.token (tableBytes nbits w)) with
    | .ok (i, _) => some i
    | .error _ => none
  else decodeAccess (tableAccess w)

end Sys2Proof
end

