-- ==== Sys2Proof/Machine/State.lean ====
section
/-! DEFINITION. The state of the block (10_state.md R20 to R47), its reset value, and the reasons a step can stop. -/

namespace Sys2Proof.Machine

/-- `STATUS` (R31). -/
inductive Status where
  /-- No operation since reset. -/
  | idle
  /-- An operation is running. -/
  | busy
  /-- The last operation ended in `Done`. -/
  | done
  /-- The last operation ended in `Fault`. -/
  | fault
deriving DecidableEq, Repr

/-- `ERR` (R33): the error of the last operation. -/
inductive ErrCode where
  | none | unsupportedLevel | inputTooSmall | outputTooSmall | corrupt
deriving DecidableEq, Repr

/-- A buffer descriptor: an `IN_BASE`/`IN_LEN` or `OUT_BASE`/`OUT_CAP` pair (R34, R35). `base` is the opaque handle,
read as the platform address of index 0 (log entry 3). -/
structure Buf where
  base : Nat
  len : Word
deriving DecidableEq, Repr

/-- Bytes by address, or table positions by index: strictly rising keys, no zero value listed, an unlisted key reads as
zero (log entries 2, 5, 18). -/
abbrev Cells (w : Nat) := List (Nat × BitVec w)

/-- The platform's memory: the one address space that holds every IN and OUT buffer (R40, log entry 3). -/
abbrev Mem := List Host.Cell

/-- ADL (R21, R22, R26, R32). `ADL_SUM` is the view `s2 ++ s1` and no register of its own. -/
structure AdlUnit where
  status : Status
  err : ErrCode
  /-- `ADL_IN_BASE`, `ADL_IN_LEN`. -/
  input : Buf
  s1 : Lane
  s2 : Lane
  /-- The implicit byte index of the running operation (R26). -/
  idx : Word
  /-- The operands latched at START (R35, R241). -/
  job : Buf
deriving DecidableEq, Repr

/-- ENC (R23, R24, R32). -/
structure EncUnit where
  status : Status
  err : ErrCode
  /-- `ENC_IN_BASE`, `ENC_IN_LEN`. -/
  input : Buf
  /-- `ENC_OUT_BASE`, `ENC_OUT_CAP`. -/
  output : Buf
  outLen : Word
  level : Word
  /-- `ENC_IP`. -/
  ip : Word
  /-- `ENC_ANCHOR`. -/
  anchor : Word
  /-- `ENC_OP`. -/
  op : Word
  /-- The candidate table `HT`: way w of bucket h at key `4 h + w` (R24). -/
  ht : Cells 32
  /-- The operands latched at START. -/
  jobIn : Buf
  jobOut : Buf
  jobLevel : Word
deriving DecidableEq, Repr

/-- DEC (R25, R26, R32). -/
structure DecUnit where
  status : Status
  err : ErrCode
  /-- `DEC_IN_BASE`, `DEC_IN_LEN`. -/
  input : Buf
  /-- `DEC_OUT_BASE`, `DEC_OUT_CAP`. -/
  output : Buf
  outLen : Word
  /-- `DEC_IP`, the program counter of the token stream (R26). -/
  ip : Word
  /-- `DEC_OP`. -/
  op : Word
  /-- The operands latched at START. -/
  jobIn : Buf
  jobOut : Buf
deriving DecidableEq, Repr

/-- Who can take a step (R20). -/
inductive Agent where
  | host | adl | enc | dec
deriving DecidableEq, Repr

/-- What the host can do: access a register (R32), write or read a byte of memory (it owns the buffers outside an
operation, R46), or reset the block (R290). The spec does not say who raises the reset event; that it is an action of the host, taken in its
turn, is DESIGN CHOICE (log entry 20). -/
inductive HostAction where
  | access (a : Access)
  | memWrite (addr : Nat) (b : Byte)
  | memRead (addr : Nat)
  | reset
deriving DecidableEq, Repr

/-- The whole machine. The last five fields are the model's own: the platform's parameters, the host's pending actions,
the order in which agents move, what the host last read, and the count of free values used. -/
structure State where
  adl : AdlUnit
  enc : EncUnit
  dec : DecUnit
  mem : Mem
  /-- Parameters of the platform; no step changes them. -/
  platform : Platform
  /-- What the host does next, first action first (log entry 1). -/
  hostQueue : List HostAction
  /-- Which agent moves at the coming steps, first step first; when empty, a busy unit moves, else the host (log entry 1). -/
  turns : List Agent
  /-- The value the host's last read returned (log entry 17). -/
  hostData : Nat
  /-- How many free values the run has used (log entries 6, 7). -/
  freeCount : Nat
deriving DecidableEq, Repr

/-- Reasons the machine stops. The block itself has none: its four errors are next states with `STATUS = FAULT` (R264),
and it defines no memory fault (R271). -/
inductive Fault where
  /-- Raised by a memory access of the HOST at an address of `2 ^ ADDR_BITS` or above, which does not exist. Safe: the model
  stops where a platform might answer something. -/
  | hostOutsideAddressSpace (addr : Nat)
deriving DecidableEq, Repr

/-- Reasons the model gives no next state: the cases 93_implementation_defined.md tells a model to refuse. -/
inductive Refusal where
  /-- Raised by an arm of `exec` whose instruction has no meaning yet; no arm does. Safe. -/
  | notModelled (mnemonic : String)
  /-- Raised by START: a buffer of the operation is not backed by ordinary memory (U5, R271). Safe. -/
  | launchUnbacked (u : UnitId)
  /-- Raised by START of ENC or DEC: IN and OUT of the operation overlap (U3, R76). Safe. -/
  | launchOverlap (u : UnitId)
  /-- Raised by START: the operation and one that another unit is running touch the same bytes, and one of the two writes
  them (U2, R73). Safe. -/
  | launchConflict (u : UnitId)
  /-- Raised by `ADL.LOAD` while ADL is BUSY (U1, R299). Safe. -/
  | sumWriteWhileBusy
  /-- Raised by a host write of a byte of IN or OUT, or a host read of a byte of OUT, of a running operation (U2, R300). Safe. -/
  | hostTouchesBusyBuffer (addr : Nat)
  /-- Raised by a host access to an address that is not ordinary memory (`Platform.notMemory`): what answers there is the
  platform's (R67). Safe. -/
  | hostDeviceWindow (addr : Nat)
deriving DecidableEq, Repr

/-- ADL after reset (R47). `ADL_IN_BASE` and the latched copies: DESIGN CHOICE (log entry 2). -/
def AdlUnit.reset : AdlUnit :=
  { status := .idle, err := .none, input := ⟨0, 0#32⟩, s1 := 1#16, s2 := 0#16, idx := 0#32, job := ⟨0, 0#32⟩ }

/-- ENC after reset (R47). The bases, `HT` and the latched copies: DESIGN CHOICE (log entry 2). -/
def EncUnit.reset : EncUnit :=
  { status := .idle, err := .none, input := ⟨0, 0#32⟩, output := ⟨0, 0#32⟩, outLen := 0#32, level := 0#32,
    ip := 0#32, anchor := 0#32, op := 0#32, ht := [],
    jobIn := ⟨0, 0#32⟩, jobOut := ⟨0, 0#32⟩, jobLevel := 0#32 }

/-- DEC after reset (R47). The bases and the latched copies: DESIGN CHOICE (log entry 2). -/
def DecUnit.reset : DecUnit :=
  { status := .idle, err := .none, input := ⟨0, 0#32⟩, output := ⟨0, 0#32⟩, outLen := 0#32,
    ip := 0#32, op := 0#32, jobIn := ⟨0, 0#32⟩, jobOut := ⟨0, 0#32⟩ }

/-- The machine right after reset (R47, R290, R291): every unit `IDLE`, no host action pending, memory with nothing
listed. No unit does anything until the host writes START. -/
def State.reset : State :=
  { adl := .reset, enc := .reset, dec := .reset, mem := [], platform := .default,
    hostQueue := [], turns := [], hostData := 0, freeCount := 0 }

end Sys2Proof.Machine
end

