-- ==== Sys2Proof/Machine/Flags.lean ====
section
/-! DEFINITION. The block has no condition codes (R28): no operation writes a flag. The only status a program can test is
the pair `STATUS`, `ERR`; this file gives their codes (R31, R33, R261) and what writes them. -/

namespace Sys2Proof.Machine

/-- The value read from `STATUS` (R31); bits [31:2] are 0. -/
def Status.code : Status → Nat
  | .idle => 0
  | .busy => 1
  | .done => 2
  | .fault => 3

/-- The value read from `ERR` (R33, R261). -/
def ErrCode.code : ErrCode → Nat
  | .none => 0
  | .unsupportedLevel => 1
  | .inputTooSmall => 2
  | .outputTooSmall => 3
  | .corrupt => 4

/-- Whether the unit is running an operation (R31, R241). -/
def State.busy (s : State) : UnitId → Bool
  | .adl => s.adl.status == .busy
  | .enc => s.enc.status == .busy
  | .dec => s.dec.status == .busy

end Sys2Proof.Machine
end

