-- ==== Sys2Proof/Machine/Ops.lean ====
section
/-! DEFINITION. The shared operations: sparse cells, memory and buffers (20_memory.md), named updates of the state, raising an
error (60_exceptions.md R264), ending an operation, and the checks of a launch (R73, R76, R271). -/

namespace Sys2Proof.Machine

/-! ### Cells in canonical form -/

/-- The value at a key; an unlisted key reads as zero. -/
def Cells.read {w : Nat} (k : Nat) : Cells w → BitVec w
  | [] => 0#w
  | (a, x) :: rest => if k = a then x else if k < a then 0#w else Cells.read k rest

/-- The cells with `v` at `k`, in canonical form: keys rising, no zero value listed. -/
def Cells.write {w : Nat} (k : Nat) (v : BitVec w) : Cells w → Cells w
  | [] => if v = 0#w then [] else [(k, v)]
  | (a, x) :: rest =>
    if k < a then (if v = 0#w then (a, x) :: rest else (k, v) :: (a, x) :: rest)
    else if k = a then (if v = 0#w then rest else (k, v) :: rest)
    else (a, x) :: Cells.write k v rest

/-- Every key is at least `lo`, keys rise strictly, and no value is zero. -/
def Cells.wfFrom {w : Nat} (lo : Nat) : Cells w → Bool
  | [] => true
  | (a, x) :: rest => decide (lo ≤ a) && decide (x ≠ 0#w) && Cells.wfFrom (a + 1) rest

/-- The canonical form. -/
def Cells.wf {w : Nat} (c : Cells w) : Bool := Cells.wfFrom 0 c

/-! ### Memory (R40, R60: every access is one byte) -/

/-- One byte of memory. An address nothing has written reads as 0: DESIGN CHOICE (log entry 5). -/
def Mem.read (m : Mem) (addr : Nat) : Byte := Cells.read addr m

/-- Memory with one byte written. -/
def Mem.write (m : Mem) (addr : Nat) (b : Byte) : Mem := Cells.write addr b m

/-- The canonical form of memory. -/
def Memory.wf (m : Mem) : Bool := Cells.wf m

/-- Bytes written one at a time at ascending addresses (R69). -/
def Mem.writeBytes (m : Mem) (addr : Nat) : List Byte → Mem
  | [] => m
  | b :: bs => Mem.writeBytes (m.write addr b) (addr + 1) bs

/-- `k` bytes from `addr` on, ascending. -/
def Mem.readBytes (m : Mem) (addr : Nat) : Nat → List Byte
  | 0 => []
  | k + 1 => m.read addr :: Mem.readBytes m (addr + 1) k

/-- The byte-serial ascending copy of R70 and R207: each byte is read after the ones before it have been written. -/
def Mem.copyForward (m : Mem) (src dst : Nat) : Nat → Mem
  | 0 => m
  | k + 1 => Mem.copyForward (m.write dst (m.read src)) (src + 1) (dst + 1) k

/-- `k` bytes from `addr` on replaced by free values of the `n`-th free event (U4). -/
def Mem.scramble (m : Mem) (n addr : Nat) : Nat → Mem
  | 0 => m
  | k + 1 => Mem.scramble (m.write addr (Config.freeByte n addr)) n (addr + 1) k

/-! ### Buffers (R40 to R42) -/

/-- The platform address of index `i` of a buffer (log entry 3). -/
def Buf.addr (b : Buf) (i : Nat) : Nat := b.base + i

/-- `IN[i]` or `OUT[i]`: the byte at index `i` of a buffer (R11). -/
def Mem.at (m : Mem) (b : Buf) (i : Nat) : Byte := m.read (b.addr i)

/-- The bytes of a buffer from index `i` up to but excluding `j` (R13). -/
def Mem.slice (m : Mem) (b : Buf) (i j : Nat) : List Byte := m.readBytes (b.addr i) (j - i)

/-- Whether an address lies in a buffer. -/
def Buf.holds (b : Buf) (addr : Nat) : Bool := decide (b.base ≤ addr ∧ addr < b.base + b.len.toNat)

/-- Whether `[a, a + m)` and `[b, b + n)` share an address. -/
def rangesMeet (a m b n : Nat) : Bool := decide (max a b < min (a + m) (b + n))

/-- Whether two buffers share an address (R76). -/
def Buf.meets (b c : Buf) : Bool := rangesMeet b.base b.len.toNat c.base c.len.toNat

/-! ### Named updates of the state -/

/-- The state with ADL replaced. -/
def State.setAdl (s : State) (u : AdlUnit) : State := { s with adl := u }

/-- The state with ENC replaced. -/
def State.setEnc (s : State) (u : EncUnit) : State := { s with enc := u }

/-- The state with DEC replaced. -/
def State.setDec (s : State) (u : DecUnit) : State := { s with dec := u }

/-- The state with memory replaced. -/
def State.setMem (s : State) (m : Mem) : State := { s with mem := m }

/-- The state with a value returned to the host. -/
def State.setHostData (s : State) (v : Nat) : State := { s with hostData := v }

/-- The state with the host's pending actions replaced. -/
def State.setHostQueue (s : State) (q : List HostAction) : State := { s with hostQueue := q }

/-- The state with the order of the agents replaced. -/
def State.setTurns (s : State) (t : List Agent) : State := { s with turns := t }

/-- The state after one more free value has been used. -/
def State.bumpFree (s : State) : State := { s with freeCount := s.freeCount + 1 }

/-! ### Fault entry (R264) and the end of an operation (R171, R212) -/

/-- `raise E` in ENC: `OUT_LEN`, then `ERR`, then `STATUS` (R264). Nothing else changes. -/
def EncUnit.raise (u : EncUnit) (e : ErrCode) : EncUnit := { u with outLen := 0#32, err := e, status := .fault }

/-- `raise E` in DEC (R264). -/
def DecUnit.raise (u : DecUnit) (e : ErrCode) : DecUnit := { u with outLen := 0#32, err := e, status := .fault }

/-- `raise E`, the one way a fault is taken. ADL raises none (R260). There is no return: the next START begins afresh (R266). -/
def State.raise (s : State) (u : UnitId) (e : ErrCode) : State :=
  match u with
  | .adl => s
  | .enc => s.setEnc (s.enc.raise e)
  | .dec => s.setDec (s.dec.raise e)

/-- ENC ends in `Done` (R171). -/
def EncUnit.finish (u : EncUnit) : EncUnit := { u with outLen := u.op, err := .none, status := .done }

/-- DEC ends in `Done` (R212). -/
def DecUnit.finish (u : DecUnit) : DecUnit := { u with outLen := u.op, err := .none, status := .done }

/-- ADL ends in `Done` (R134). -/
def AdlUnit.finish (u : AdlUnit) : AdlUnit := { u with status := .done }

/-! ### What running operations own, and the checks of a launch -/

/-- The buffers running operations read or write (R76, R300). -/
def State.ownedBufs (s : State) : List Buf :=
  (if s.busy .adl then [s.adl.job] else []) ++
  (if s.busy .enc then [s.enc.jobIn, s.enc.jobOut] else []) ++
  (if s.busy .dec then [s.dec.jobIn, s.dec.jobOut] else [])

/-- The buffers running operations write. -/
def State.outBufs (s : State) : List Buf :=
  (if s.busy .enc then [s.enc.jobOut] else []) ++ (if s.busy .dec then [s.dec.jobOut] else [])

/-- A buffer is backed by ordinary memory and does not wrap the address space (U5). An empty buffer always is. -/
def backedBy (p : Platform) (b : Buf) : Bool :=
  decide (b.len = 0#32) ||
    (decide (b.base + b.len.toNat ≤ 2 ^ p.addrBits) &&
      p.notMemory.all (fun r => !rangesMeet r.base r.len b.base b.len.toNat))

/-- Why a launch of an operation that reads `reads` and writes `writes` is refused, if it is: unbacked buffers (U5), IN and OUT
overlapping (U3), or bytes shared with a running operation where one of the two writes (U2, R73). The order of
the three is DESIGN CHOICE (log entry 8). -/
def State.launchRefusal (s : State) (u : UnitId) (reads writes : List Buf) : Option Refusal :=
  if !(reads ++ writes).all (backedBy s.platform) then some (.launchUnbacked u)
  else if reads.any (fun r => writes.any r.meets) then some (.launchOverlap u)
  else if reads.any (fun r => s.outBufs.any r.meets) || writes.any (fun w => s.ownedBufs.any w.meets) then
    some (.launchConflict u)
  else none

end Sys2Proof.Machine
end

