-- ==== Sys2Proof/Machine/Operands.lean ====
section
/-! DEFINITION. The host's view of the registers (10_state.md R29 to R39) and its plain accesses to them: reads of every number,
writes of the operand registers, what BUSY changes (70_reset_and_hazards.md R299). -/

namespace Sys2Proof.Machine

/-- `ADL_SUM`, the 32-bit view of the two lanes (R22). -/
def AdlUnit.sum (u : AdlUnit) : Word := u.s2 ++ u.s1

/-- ADL with `ADL_SUM` written: `S1 <- v[15:0]`, `S2 <- v[31:16]` (R22). -/
def AdlUnit.loadSum (u : AdlUnit) (v : Word) : AdlUnit :=
  { u with s1 := v.extractLsb' 0 16, s2 := v.extractLsb' 16 16 }

/-- The value a base register keeps of a written value: its low `ADDR_BITS` bits (R32, log entry 12). -/
def keepBase (p : Platform) (v : Nat) : Nat := v % 2 ^ p.addrBits

/-- The value of a register of ADL; numbers ADL does not have read 0 (R32), and so does `CMD` (R30). -/
def AdlUnit.reg (u : AdlUnit) : RegNo → Nat
  | .cmd => 0
  | .status => u.status.code
  | .err => u.err.code
  | .inBase => u.input.base
  | .inLen => u.input.len.toNat
  | .outBase => 0
  | .outCap => 0
  | .outLen => 0
  | .reg8 => u.sum.toNat

/-- The value of a register of ENC. -/
def EncUnit.reg (u : EncUnit) : RegNo → Nat
  | .cmd => 0
  | .status => u.status.code
  | .err => u.err.code
  | .inBase => u.input.base
  | .inLen => u.input.len.toNat
  | .outBase => u.output.base
  | .outCap => u.output.len.toNat
  | .outLen => u.outLen.toNat
  | .reg8 => u.level.toNat

/-- The value of a register of DEC; number 8 does not exist in DEC and reads 0 (R32). -/
def DecUnit.reg (u : DecUnit) : RegNo → Nat
  | .cmd => 0
  | .status => u.status.code
  | .err => u.err.code
  | .inBase => u.input.base
  | .inLen => u.input.len.toNat
  | .outBase => u.output.base
  | .outCap => u.output.len.toNat
  | .outLen => u.outLen.toNat
  | .reg8 => 0

/-- The value of a register (R32). -/
def State.reg (s : State) : UnitId → RegNo → Nat
  | .adl, r => s.adl.reg r
  | .enc, r => s.enc.reg r
  | .dec, r => s.dec.reg r

/-- The registers whose read is unspecified while the unit is BUSY (R299): `ERR`, and `OUT_LEN` or `ADL_SUM` where the unit has it. -/
def volatileReg : UnitId → RegNo → Bool
  | _, .err => true
  | .adl, .reg8 => true
  | .enc, .outLen => true
  | .dec, .outLen => true
  | _, _ => false

/-- A host read: the register's value goes to the host and nothing else changes. A read that R299 leaves unspecified
returns a free value (U1, log entry 6); an operand register reads as it stands also while BUSY (log entry 10). Once the unit has ended,
`ERR`, `OUT_LEN` and `ADL_SUM` read as their final values also for a host that has not read `STATUS` since, where R71 and R303 promise
nothing: DESIGN CHOICE (log entry 19). -/
def State.readReg (s : State) (u : UnitId) (r : RegNo) : State :=
  if s.busy u && volatileReg u r then (s.setHostData (Config.freeReg s.freeCount).toNat).bumpFree
  else s.setHostData (s.reg u r)

/-- A host write to an operand register (R32): it changes the register, never a running operation (R299). Read-only and absent
numbers ignore the write; that the read-only `STATUS`, `ERR` and `OUT_LEN` of a BUSY unit do, which R299 does not list, is DESIGN
CHOICE (log entry 21). `CMD` and `ADL_SUM` are written by commands, and a `CMD` value that is none has no effect (R30). -/
def State.writeReg (s : State) (u : UnitId) (r : RegNo) (v : Nat) : State :=
  match u, r with
  | .adl, .inBase => s.setAdl { s.adl with input := ⟨keepBase s.platform v, s.adl.input.len⟩ }
  | .adl, .inLen => s.setAdl { s.adl with input := ⟨s.adl.input.base, BitVec.ofNat 32 v⟩ }
  | .enc, .inBase => s.setEnc { s.enc with input := ⟨keepBase s.platform v, s.enc.input.len⟩ }
  | .enc, .inLen => s.setEnc { s.enc with input := ⟨s.enc.input.base, BitVec.ofNat 32 v⟩ }
  | .enc, .outBase => s.setEnc { s.enc with output := ⟨keepBase s.platform v, s.enc.output.len⟩ }
  | .enc, .outCap => s.setEnc { s.enc with output := ⟨s.enc.output.base, BitVec.ofNat 32 v⟩ }
  | .enc, .reg8 => s.setEnc { s.enc with level := BitVec.ofNat 32 v }
  | .dec, .inBase => s.setDec { s.dec with input := ⟨keepBase s.platform v, s.dec.input.len⟩ }
  | .dec, .inLen => s.setDec { s.dec with input := ⟨s.dec.input.base, BitVec.ofNat 32 v⟩ }
  | .dec, .outBase => s.setDec { s.dec with output := ⟨keepBase s.platform v, s.dec.output.len⟩ }
  | .dec, .outCap => s.setDec { s.dec with output := ⟨s.dec.output.base, BitVec.ofNat 32 v⟩ }
  | _, _ => s

/-- A host access that is no command of the table. -/
def State.plainAccess (s : State) : Access → State
  | .read u r => s.readReg u r
  | .write u r v => s.writeReg u r v

end Sys2Proof.Machine
end

