-- ==== Sys2Proof/Machine/Adl.lean ====
section
/-! DEFINITION. ADL, the Adler-32 accumulator (40_checksum.md): the byte step, the unit's turn, and the meanings of `ADL.INIT`,
`ADL.LOAD`, `ADL.UPDATE` and `ADL.READ`. -/

namespace Sys2Proof.Machine

/-- The byte step on the two lanes (R131): `S2` adds the `S1` just written. -/
def adlerByte (lanes : Lane × Lane) (b : Byte) : Lane × Lane :=
  let s1 := (lanes.1.toNat + b.toNat) % Config.adlerBase
  let s2 := (lanes.2.toNat + s1) % Config.adlerBase
  (BitVec.ofNat 16 s1, BitVec.ofNat 16 s2)

/-- ADL after one input byte. -/
def AdlUnit.byte (u : AdlUnit) (b : Byte) : AdlUnit :=
  { u with s1 := (adlerByte (u.s1, u.s2) b).1, s2 := (adlerByte (u.s1, u.s2) b).2,
           idx := BitVec.ofNat 32 (u.idx.toNat + 1) }

/-- The loop of R134 ends when every byte has been read, in the step of the last byte (log entry 13). -/
def AdlUnit.settle (u : AdlUnit) : AdlUnit := if u.job.len.toNat ≤ u.idx.toNat then u.finish else u

/-- One step of ADL's step machine: one byte of a running UPDATE (R134, small step). A unit that is not BUSY does nothing (R277). -/
def adlTurn (s : State) : State :=
  if s.busy .adl then
    if s.adl.idx.toNat < s.adl.job.len.toNat then
      s.setAdl (s.adl.byte (s.mem.at s.adl.job s.adl.idx.toNat)).settle
    else s.setAdl s.adl.settle
  else s

/-- ADL after `ADL.INIT` (R132). -/
def AdlUnit.init (u : AdlUnit) : AdlUnit :=
  { u with s1 := BitVec.ofNat 16 Config.adlerInit, s2 := 0#16, status := .done, err := .none }

/-- ADL at START (R134, R241): the operands are latched, and zero bytes are done at once. -/
def AdlUnit.start (u : AdlUnit) : AdlUnit :=
  AdlUnit.settle { u with status := .busy, err := .none, job := u.input, idx := 0#32 }

/-- `ADL.INIT` (R132); ignored while BUSY (R299). -/
def execAdlInit (s : State) : Host.Outcome State Fault Refusal :=
  if s.busy .adl then .next s else .next (s.setAdl s.adl.init)

/-- `ADL.LOAD v` (R133). While BUSY its effect is unspecified and the model refuses (R299, U1). -/
def execAdlLoad (v : Word) (s : State) : Host.Outcome State Fault Refusal :=
  if s.busy .adl then .refused .sumWriteWhileBusy else .next (s.setAdl (s.adl.loadSum v))

/-- `ADL.UPDATE` (R134): START on ADL; the unit's turns do the bytes. Ignored while BUSY (R30, R299). -/
def execAdlUpdate (s : State) : Host.Outcome State Fault Refusal :=
  if s.busy .adl then .next s
  else
    match s.launchRefusal .adl [s.adl.input] [] with
    | some r => .refused r
    | none => .next (s.setAdl s.adl.start)

/-- `ADL.READ` (R135): the sum goes to the host (log entry 17). -/
def execAdlRead (s : State) : Host.Outcome State Fault Refusal := .next (s.readReg .adl .reg8)

end Sys2Proof.Machine
end

