-- ==== Sys2Proof/Machine/Dec.lean ====
section
/-! DEFINITION. DEC, the LZ77 decoder (42_decoder.md): the fetch of a token, the checks and effects of the five tokens, and the
meaning of `DEC.DECOMPRESS`. -/

namespace Sys2Proof.Machine

/-- The bytes of IN from `DEC_IP` to the end, from which the next token is parsed (R103, R202). -/
def State.decStream (s : State) : List Byte := s.mem.slice s.dec.jobIn s.dec.ip.toNat s.dec.jobIn.len.toNat

/-- The loop of R202 ends when every byte of IN has been used (R212), in the step of the last token (log entry 13). -/
def DecUnit.settle (u : DecUnit) : DecUnit := if u.jobIn.len.toNat ≤ u.ip.toNat then u.finish else u

/-- DEC after a token of `tlen` bytes that output `len` bytes (R104). -/
def DecUnit.advance (u : DecUnit) (tlen len : Nat) : DecUnit :=
  { u with ip := BitVec.ofNat 32 (u.ip.toNat + tlen), op := BitVec.ofNat 32 (u.op.toNat + len) }

/-- The end of a token: its output is in `m`, the cursors move, and the stream may have ended. -/
def State.decRetire (s : State) (m : Mem) (tlen len : Nat) : State :=
  (s.setMem m).setDec (s.dec.advance tlen len).settle

/-- A literal run (R203): truncation, then capacity, then the bytes. DEC executes tokens only while BUSY (R241; log entry 14). -/
def decLiteral (tlen : Nat) (data : List Byte) (s : State) : State :=
  if s.busy .dec then
    if s.dec.jobIn.len.toNat < s.dec.ip.toNat + tlen then s.raise .dec .corrupt
    else if s.dec.jobOut.len.toNat < s.dec.op.toNat + data.length then s.raise .dec .corrupt
    else s.decRetire (s.mem.writeBytes (s.dec.jobOut.addr s.dec.op.toNat) data) tlen data.length
  else s

/-- A back-reference: truncation (R204), distance (R205), capacity (R206), then `COPY` (R207). -/
def decMatch (tlen dist len : Nat) (s : State) : State :=
  if s.busy .dec then
    if s.dec.jobIn.len.toNat < s.dec.ip.toNat + tlen then s.raise .dec .corrupt
    else if s.dec.op.toNat < dist then s.raise .dec .corrupt
    else if s.dec.jobOut.len.toNat < s.dec.op.toNat + len then s.raise .dec .corrupt
    else
      s.decRetire (s.mem.copyForward (s.dec.jobOut.addr (s.dec.op.toNat - dist)) (s.dec.jobOut.addr s.dec.op.toNat) len)
        tlen len
  else s

/-- `LIT` (R203). -/
def execLit (data : List Byte) (s : State) : Host.Outcome State Fault Refusal :=
  .next (decLiteral (Instr.lit data).tlen data s)

/-- `MATCH.SN` (R208). -/
def execMatchSn (dist len : Nat) (s : State) : Host.Outcome State Fault Refusal :=
  .next (decMatch (Instr.matchSn dist len).tlen dist len s)

/-- `MATCH.SF` (R209). -/
def execMatchSf (dist len : Nat) (s : State) : Host.Outcome State Fault Refusal :=
  .next (decMatch (Instr.matchSf dist len).tlen dist len s)

/-- `MATCH.LN` (R210). -/
def execMatchLn (dist len : Nat) (s : State) : Host.Outcome State Fault Refusal :=
  .next (decMatch (Instr.matchLn dist len).tlen dist len s)

/-- `MATCH.LF` (R211). -/
def execMatchLf (dist len : Nat) (s : State) : Host.Outcome State Fault Refusal :=
  .next (decMatch (Instr.matchLf dist len).tlen dist len s)

/-- DEC at START, before its first token (R201, R241). -/
def DecUnit.start (u : DecUnit) : DecUnit :=
  { u with status := .busy, err := .none, outLen := 0#32, ip := 0#32, op := 0#32, jobIn := u.input, jobOut := u.output }

/-- `DEC.DECOMPRESS` (R200): START on DEC; an empty input is `Corrupt` (R201), before a refusal of the launch (DEDUCED, log entry 8), and
the tokens do the rest. Ignored while BUSY (R30, R299). -/
def execDecDecompress (s : State) : Host.Outcome State Fault Refusal :=
  if s.busy .dec then .next s
  else if s.dec.input.len.toNat = 0 then .next ((s.setDec s.dec.start).raise .dec .corrupt)
  else
    match s.launchRefusal .dec [s.dec.input] [s.dec.output] with
    | some r => .refused r
    | none => .next (s.setDec s.dec.start)

end Sys2Proof.Machine
end

