-- ==== Sys2Proof/Machine/Enc.lean ====
section
/-! DEFINITION. ENC, the LZ77 encoder (41_encoder.md): the checks at START, the hash, the candidate table, the match search, token
emission, the unit's turn, and the meaning of `ENC.COMPRESS`. Functions that read the input take it as a function from index
to byte. -/

namespace Sys2Proof.Machine

/-- `REQ(n)`, the required output capacity, in exact integers (R7). -/
def reqCap (n : Nat) : Nat := max Config.minOutCap (n + (n + 19) / 20)

/-- The precondition checks, in the order of R151. -/
def encPrecheck (level n cap : Nat) : Option ErrCode :=
  if level ≠ 1 ∧ level ≠ 2 then some .unsupportedLevel
  else if n < Config.minInput then some .inputTooSmall
  else if cap < reqCap n then some .outputTooSmall
  else none

/-! ### The candidate table -/

/-- `HASH(b0, b1, b2)`, a bucket number (R156). -/
def hash3 (b0 b1 b2 : Byte) : Nat :=
  let a : BitVec 16 := b0.setWidth 16 ||| (b1.setWidth 16 <<< 8)
  let b : BitVec 16 := b1.setWidth 16 ||| (b2.setWidth 16 <<< 8)
  ((a ^^^ b ^^^ (a >>> 3)) &&& BitVec.ofNat 16 (2 ^ Config.hashLog - 1)).toNat

/-- The bucket of the three bytes at position `p`. -/
def hashAt (rd : Nat → Byte) (p : Nat) : Nat := hash3 (rd p) (rd (p + 1)) (rd (p + 2))

/-- The key of `HT[h][w]`. -/
def wayKey (h w : Nat) : Nat := h * Config.waySlots + w

/-- `HT[h][w]`, a position; a way never written in this operation holds 0 (R160). -/
def htAt (ht : Cells 32) (h w : Nat) : Nat := (ht.read (wayKey h w)).toNat

/-- `HT[h][w] <- q`. -/
def htSet (ht : Cells 32) (h w q : Nat) : Cells 32 := ht.write (wayKey h w) (BitVec.ofNat 32 q)

/-- The shift of R163: way `w` takes way `w - 1`, for `w` down to 1. -/
def shiftWays (ht : Cells 32) (h : Nat) : Nat → Cells 32
  | 0 => ht
  | w + 1 => shiftWays (htSet ht h (w + 1) (htAt ht h w)) h w

/-- `INSERT(h, q)` (R163). -/
def htInsert (level : Nat) (ht : Cells 32) (h q : Nat) : Cells 32 :=
  htSet (shiftWays ht h (Config.ways level - 1)) h 0 q

/-- In-match insertion (R166): `k` positions from `q` on, ascending, each with three bytes left. -/
def insertCovered (rd : Nat → Byte) (level n : Nat) (ht : Cells 32) (q : Nat) : Nat → Cells 32
  | 0 => ht
  | k + 1 =>
    insertCovered rd level n (if q + 3 ≤ n then htInsert level ht (hashAt rd q) q else ht) (q + 1) k

/-! ### Match search -/

/-- `MATCHLEN(c, p, lim)` (R159). -/
def matchLen (rd : Nat → Byte) (c p : Nat) : Nat → Nat
  | 0 => 0
  | lim + 1 => if rd c = rd p then matchLen rd (c + 1) (p + 1) lim + 1 else 0

/-- `MINLEN(d)` (R162). -/
def minLen (d : Nat) : Nat := if d ≤ Config.maxNear then Config.minMatch else Config.minMatchFar

/-- `lim`, the longest match at `p` (R157, R153). -/
def matchLim (level n p : Nat) : Nat := if level = 1 then min (n - p) Config.maxLenLevel1 else n - p

/-- One candidate of the search: `best` is `(blen, bdist)` so far (R157, R158, R161). -/
def tryWay (rd : Nat → Byte) (level n p : Nat) (best : Nat × Nat) (c : Nat) : Nat × Nat :=
  let d := p - c
  let l := matchLen rd c p (matchLim level n p)
  if 1 ≤ d ∧ d ≤ Config.maxDist level ∧ minLen d ≤ l ∧ best.1 < l then (l, d) else best

/-- `SEARCH(h, p)` (R157): way 0, the most recent, first. The result is `(blen, bdist)`; `blen = 0` is no match. -/
def search (rd : Nat → Byte) (level n : Nat) (ht : Cells 32) (h p : Nat) : Nat × Nat :=
  ((List.range (Config.ways level)).map (htAt ht h)).foldl (tryWay rd level n p) (0, 0)

/-! ### Token emission -/

/-- `EMIT_LITS` of a span of bytes (R168): `LIT` tokens of 32 bytes, the last one shorter. -/
def emitLitsFuel : Nat → List Byte → List Byte
  | 0, _ => []
  | _ + 1, [] => []
  | fuel + 1, b :: bs =>
    let r := min Config.litMax (b :: bs).length
    BitVec.ofNat 8 (r - 1) :: ((b :: bs).take r ++ emitLitsFuel fuel ((b :: bs).drop r))

/-- The bytes `EMIT_LITS` puts for a span (R168). -/
def emitLits (span : List Byte) : List Byte := emitLitsFuel span.length span

/-- The bytes `EMIT_EXT(X)` puts (R169). -/
def emitExt (x : Nat) : List Byte := List.replicate (x / 255) 0xFF#8 ++ [BitVec.ofNat 8 (x % 255)]

/-- The bytes `EMIT_MATCH(d, l)` puts (R169). -/
def emitMatch (d l : Nat) : List Byte :=
  let t := if l ≤ 8 then l - 2 else 7
  if d ≤ Config.maxNear then
    BitVec.ofNat 8 (t * 32 + (d - 1) / 256) ::
      ((if t = 7 then emitExt (l - 9) else []) ++ [BitVec.ofNat 8 ((d - 1) % 256)])
  else
    BitVec.ofNat 8 (t * 32 + 31) ::
      ((if t = 7 then emitExt (l - 9) else []) ++
        [0xFF#8, BitVec.ofNat 8 ((d - 8192) / 256), BitVec.ofNat 8 ((d - 8192) % 256)])

/-- `PUT(v)` (R170), the only way ENC writes OUT. The state on the error side is the one the fault leaves. -/
def encPut (s : State) (v : Byte) : Except State State :=
  if s.enc.jobOut.len.toNat ≤ s.enc.op.toNat then .error (s.raise .enc .corrupt)
  else .ok ((s.setMem (s.mem.write (s.enc.jobOut.addr s.enc.op.toNat) v)).setEnc
    { s.enc with op := BitVec.ofNat 32 (s.enc.op.toNat + 1) })

/-- Bytes put one after the other; a fault stops at the byte it met (R264). -/
def encPutAll (s : State) : List Byte → Except State State
  | [] => .ok s
  | v :: vs =>
    match encPut s v with
    | .ok s' => encPutAll s' vs
    | .error s' => .error s'

/-! ### The unit's turn (R155) -/

/-- `IN[i]` of the running operation. -/
def State.encIn (s : State) (i : Nat) : Byte := s.mem.at s.enc.jobIn i

/-- One examined position of the main loop (R155): search, insert, and on a match emit the pending literals and the
back-reference. -/
def encPosition (s : State) : State :=
  let level := s.enc.jobLevel.toNat
  let n := s.enc.jobIn.len.toNat
  let p := s.enc.ip.toNat
  let h := hashAt s.encIn p
  let m := search s.encIn level n s.enc.ht h p
  let ht := htInsert level s.enc.ht h p
  if m.1 = 0 then s.setEnc { s.enc with ht := ht, ip := BitVec.ofNat 32 (p + 1) }
  else
    match encPutAll (s.setEnc { s.enc with ht := ht })
        (emitLits (s.mem.slice s.enc.jobIn s.enc.anchor.toNat p) ++ emitMatch m.2 m.1) with
    | .error s' => s'
    | .ok s' =>
      s'.setEnc { s'.enc with
        ht := if level = 2 then insertCovered s.encIn level n ht (p + 1) (m.1 - 1) else ht,
        ip := BitVec.ofNat 32 (p + m.1), anchor := BitVec.ofNat 32 (p + m.1) }

/-- The tail flush and the end (R167, R171). -/
def encFlush (s : State) : State :=
  match encPutAll s (emitLits (s.mem.slice s.enc.jobIn s.enc.anchor.toNat s.enc.jobIn.len.toNat)) with
  | .error s' => s'
  | .ok s' => s'.setEnc s'.enc.finish

/-- One step of ENC's step machine: one turn of the main loop, or the tail flush (R155). A unit that is not BUSY does nothing (R277). -/
def encTurn (s : State) : State :=
  if s.busy .enc then
    if s.enc.ip.toNat + 3 ≤ s.enc.jobIn.len.toNat then encPosition s else encFlush s
  else s

/-- ENC at the head of the main loop: operands latched, cursors and table cleared (R151, R154, R241). -/
def EncUnit.start (u : EncUnit) : EncUnit :=
  { u with status := .busy, err := .none, outLen := 0#32, ip := 0#32, anchor := 0#32, op := 0#32, ht := [],
           jobIn := u.input, jobOut := u.output, jobLevel := u.level }

/-- `ENC.COMPRESS` (R150): START on ENC. A failed check faults before any access (R151, R152), and before a refusal of the launch
(DEDUCED, log entry 8); the unit's turns do the rest. Ignored while BUSY (R30, R299). -/
def execEncCompress (s : State) : Host.Outcome State Fault Refusal :=
  if s.busy .enc then .next s
  else
    match encPrecheck s.enc.level.toNat s.enc.input.len.toNat s.enc.output.len.toNat with
    | some e => .next (s.raise .enc e)
    | none =>
      match s.launchRefusal .enc [s.enc.input] [s.enc.output] with
      | some r => .refused r
      | none => .next (s.setEnc s.enc.start)

end Sys2Proof.Machine
end

