-- ==== Sys2Proof/Machine/Dispatch.lean ====
section
/-! DEFINITION. One arm per instruction. -/

namespace Sys2Proof.Machine

def exec (i : Instr) (s : State) : Host.Outcome State Fault Refusal :=
  match i with
  | .lit data => Sys2Proof.Machine.execLit data s
  | .matchSn dist len => Sys2Proof.Machine.execMatchSn dist len s
  | .matchSf dist len => Sys2Proof.Machine.execMatchSf dist len s
  | .matchLn dist len => Sys2Proof.Machine.execMatchLn dist len s
  | .matchLf dist len => Sys2Proof.Machine.execMatchLf dist len s
  | .adlInit => Sys2Proof.Machine.execAdlInit s
  | .adlUpdate => Sys2Proof.Machine.execAdlUpdate s
  | .adlLoad v => Sys2Proof.Machine.execAdlLoad v s
  | .adlRead => Sys2Proof.Machine.execAdlRead s
  | .encCompress => Sys2Proof.Machine.execEncCompress s
  | .decDecompress => Sys2Proof.Machine.execDecDecompress s

end Sys2Proof.Machine
end

