-- ==== Sys2Proof/Machine/HostAccess.lean ====
section
/-! DEFINITION. What the host does beside commands: memory accesses (20_memory.md R71, R76; 70_reset_and_hazards.md R300), the reset
event (R290 to R292), and the choice of the agent that moves. -/

namespace Sys2Proof.Machine

/-- Whether an address is in a part of the address space that is not ordinary memory. -/
def isDevice (p : Platform) (addr : Nat) : Bool :=
  p.notMemory.any (fun r => decide (r.base ≤ addr ∧ addr < r.base + r.len))

/-- A host write of one byte. A byte a running operation owns must not be written (R300). DESIGN CHOICE (log entry 15). -/
def hostMemWrite (addr : Nat) (b : Byte) (s : State) : Host.Outcome State Fault Refusal :=
  if 2 ^ s.platform.addrBits ≤ addr then .fault (.hostOutsideAddressSpace addr)
  else if isDevice s.platform addr then .refused (.hostDeviceWindow addr)
  else if s.ownedBufs.any (·.holds addr) then .refused (.hostTouchesBusyBuffer addr)
  else .next (s.setMem (s.mem.write addr b))

/-- A host read of one byte. A byte a running operation may write must not be read (R300): DESIGN CHOICE (log entry 15). Once the unit has
ended, the read gives its final bytes also to a host that has not read `STATUS` since, where R71 and R303 promise nothing: DESIGN CHOICE
(log entry 19). -/
def hostMemRead (addr : Nat) (s : State) : Host.Outcome State Fault Refusal :=
  if 2 ^ s.platform.addrBits ≤ addr then .fault (.hostOutsideAddressSpace addr)
  else if isDevice s.platform addr then .refused (.hostDeviceWindow addr)
  else if s.outBufs.any (·.holds addr) then .refused (.hostTouchesBusyBuffer addr)
  else .next (s.setHostData (s.mem.read addr).toNat)

/-- Memory after a reset: the bytes of the output buffer of each operation it ends are free values (R292, U4). -/
def scrambleBufs (m : Mem) (n : Nat) : List Buf → Mem
  | [] => m
  | b :: bs => scrambleBufs (m.scramble n b.base b.len.toNat) n bs

/-- The reset event (R290): all three units at once take the values of R47. Memory belongs to the host and is left alone but for
R292 (log entry 11). -/
def blockReset (s : State) : State :=
  { State.reset with
    mem := scrambleBufs s.mem s.freeCount s.outBufs
    platform := s.platform
    hostQueue := s.hostQueue
    turns := s.turns
    hostData := s.hostData
    freeCount := s.freeCount + 1 }

/-- The agent that moves when `turns` says nothing: a busy unit, in the order ADL, ENC, DEC, else the host. DESIGN CHOICE (log
entry 1). -/
def State.defaultAgent (s : State) : Agent :=
  if s.busy .adl then .adl else if s.busy .enc then .enc else if s.busy .dec then .dec else .host

/-- The agent that moves at this step. -/
def State.mover (s : State) : Agent :=
  match s.turns with
  | a :: _ => a
  | [] => s.defaultAgent

/-- The state with this step's turn taken off. -/
def State.popTurn (s : State) : State := s.setTurns s.turns.tail

end Sys2Proof.Machine
end

