-- ==== Sys2Proof/Machine/Step.lean ====
section
/-! DEFINITION. One step of the machine: one agent moves (R20). ADL takes one byte, ENC one input position, DEC one token, the host
one action. -/

namespace Sys2Proof.Machine

/-- One token of DEC (R202): fetched from IN at `DEC_IP`, decoded and executed; a truncated token is `Corrupt` (R106, R262). A unit
that is not BUSY does nothing (R277). -/
def decTurn (s : State) : Host.Outcome State Fault Refusal :=
  if s.busy .dec then
    if s.dec.ip.toNat < s.dec.jobIn.len.toNat then
      match decode (.token s.decStream) with
      | .ok (i, _) => exec i s
      | .error _ => .next (s.raise .dec .corrupt)
    else .next (s.setDec s.dec.settle)
  else .next s

/-- One action of the host: a command is executed, any other access is a plain one. -/
def runAction (a : HostAction) (s : State) : Host.Outcome State Fault Refusal :=
  match a with
  | .access acc =>
    match decode (.access acc) with
    | .ok (i, _) => exec i s
    | .error _ => .next (s.plainAccess acc)
  | .memWrite addr b => hostMemWrite addr b s
  | .memRead addr => hostMemRead addr s
  | .reset => .next (blockReset s)

/-- The host's turn: its first pending action; with none pending nothing happens (R291). -/
def hostTurn (s : State) : Host.Outcome State Fault Refusal :=
  match s.hostQueue with
  | [] => .next s
  | a :: rest => runAction a (s.setHostQueue rest)

/-- One step. -/
def step (s : State) : Host.Outcome State Fault Refusal :=
  match s.mover with
  | .host => hostTurn s.popTurn
  | .adl => .next (adlTurn s.popTurn)
  | .enc => .next (encTurn s.popTurn)
  | .dec => decTurn s.popTurn

/-- The state whose next step runs the table word (log entry 9). A token is stored in IN at `DEC_IP` of a running decompression
whose input ends after it, and DEC moves next; a host command is the host's first pending action, and the host moves next. -/
def State.withFetchWord (s : State) (nbits w : Nat) : State :=
  if nbits ≤ 16 then
    { s with
      mem := s.mem.writeBytes (s.dec.jobIn.addr s.dec.ip.toNat) (tableBytes nbits w)
      dec := { s.dec with
        status := .busy
        jobIn := ⟨s.dec.jobIn.base, BitVec.ofNat 32 (s.dec.ip.toNat + longestTableToken)⟩ }
      turns := .dec :: s.turns }
  else
    { s with hostQueue := .access (tableAccess w) :: s.hostQueue, turns := .host :: s.turns }

end Sys2Proof.Machine
end

