-- ==== Sys2Proof/Machine/BigStep.lean ====
section
/-! DEFINITION. The operations as total functions from operands to result, the big step of 00_scope.md R5: `update` (R130), `compress`
(R150) and `decompress` (R200) on byte strings. The step machine is the other description; that the two agree is stated in the
obligations, not assumed. -/

namespace Sys2Proof.Machine

/-- The two lanes of a running checksum (R22). -/
def lanesOf (r : Word) : Lane × Lane := (r.extractLsb' 0 16, r.extractLsb' 16 16)

/-- The running checksum of two lanes (R22). -/
def packLanes (lanes : Lane × Lane) : Word := lanes.2 ++ lanes.1

/-- `update(r, bytes)` (R130, R134). -/
def adlerUpdate (r : Word) (bytes : List Byte) : Word := packLanes (bytes.foldl adlerByte (lanesOf r))

/-! ### Decompression -/

/-- `COPY(dist, len)` on the output so far (R207): byte-serial, each byte appended before the next is read. -/
def copyList (out : List Byte) (dist : Nat) : Nat → List Byte
  | 0 => out
  | k + 1 => copyList (out ++ [out.getD (out.length - dist) 0#8]) dist k

/-- A back-reference on the output so far (R205 to R207). -/
def expandMatch (cap : Nat) (out : List Byte) (dist len : Nat) : Except ErrCode (List Byte) :=
  if out.length < dist then .error .corrupt
  else if cap < out.length + len then .error .corrupt
  else .ok (copyList out dist len)

/-- One token on the output so far (R203, R208 to R211); a host command is no token. -/
def expandToken (cap : Nat) (out : List Byte) : Instr → Except ErrCode (List Byte)
  | .lit data => if cap < out.length + data.length then .error .corrupt else .ok (out ++ data)
  | .matchSn dist len => expandMatch cap out dist len
  | .matchSf dist len => expandMatch cap out dist len
  | .matchLn dist len => expandMatch cap out dist len
  | .matchLf dist len => expandMatch cap out dist len
  | .adlInit => .error .corrupt
  | .adlUpdate => .error .corrupt
  | .adlLoad _ => .error .corrupt
  | .adlRead => .error .corrupt
  | .encCompress => .error .corrupt
  | .decDecompress => .error .corrupt

/-- The loop of R202 on a stream, `fuel` tokens at most. -/
def decompressFuel (cap : Nat) : Nat → List Byte → List Byte → Except ErrCode (List Byte)
  | 0, _, _ => .error .corrupt
  | _ + 1, [], out => .ok out
  | fuel + 1, b :: bs, out =>
    match decodeToken (b :: bs) with
    | .error _ => .error .corrupt
    | .ok (i, rest) =>
      match expandToken cap out i with
      | .error e => .error e
      | .ok out' => decompressFuel cap fuel rest out'

/-- `decompress(input, cap)` (R200, R201). Every token uses at least two bytes, so the fuel is never used up (R202). -/
def decompress (input : List Byte) (cap : Nat) : Except ErrCode (List Byte) :=
  match input with
  | [] => .error .corrupt
  | b :: bs => decompressFuel cap ((b :: bs).length + 1) (b :: bs) []

/-! ### Compression -/

/-- `IN[i]` of a byte string. -/
def byteAt (x : List Byte) (i : Nat) : Byte := x.getD i 0#8

/-- `IN[a .. b)` of a byte string (R13). -/
def sliceOf (x : List Byte) (a b : Nat) : List Byte := (x.drop a).take (b - a)

/-- The main loop and the tail flush of R155 from position `p` with the pending span `[anchor, p)`: the bytes put from there on. -/
def compressFuel (level : Nat) (x : List Byte) : Nat → Nat → Nat → Cells 32 → List Byte
  | 0, _, _, _ => []
  | fuel + 1, p, anchor, ht =>
    if p + 3 ≤ x.length then
      let h := hashAt (byteAt x) p
      let m := search (byteAt x) level x.length ht h p
      let ht' := htInsert level ht h p
      if m.1 = 0 then compressFuel level x fuel (p + 1) anchor ht'
      else
        emitLits (sliceOf x anchor p) ++ emitMatch m.2 m.1 ++
          compressFuel level x fuel (p + m.1) (p + m.1)
            (if level = 2 then insertCovered (byteAt x) level x.length ht' (p + 1) (m.1 - 1) else ht')
    else emitLits (sliceOf x anchor x.length)

/-- The compressed block of an input (R174): every position is examined at most once, so the fuel is never used up. -/
def compressedBlock (level : Nat) (x : List Byte) : List Byte := compressFuel level x (x.length + 1) 0 0 []

/-- `compress(level, x)` with an output buffer of `cap` bytes (R150, R151, R170). -/
def compress (level : Nat) (x : List Byte) (cap : Nat) : Except ErrCode (List Byte) :=
  match encPrecheck level x.length cap with
  | some e => .error e
  | none => if cap < (compressedBlock level x).length then .error .corrupt else .ok (compressedBlock level x)

end Sys2Proof.Machine
end

