-- ==== Sys2Proof/Safety.lean ====
section
/-! DEFINITION. The terms claims are stated in: what holds of a sound state (10_state.md R23, R25, R33, R36, R76), what an operation
leaves for the host, and the runs of one unit. -/

namespace Sys2Proof.Machine

/-- Memory and the candidate table are in canonical form. -/
def State.Canonical (s : State) : Prop := Memory.wf s.mem = true ∧ Cells.wf s.enc.ht = true

/-- ADL never faults (R260), and a running UPDATE has a byte left to read (R134; DESIGN CHOICE, log entry 13). -/
def AdlUnit.Sound (u : AdlUnit) : Prop :=
  u.status ≠ .fault ∧ u.err = .none ∧ (u.status = .busy → u.idx.toNat < u.job.len.toNat)

/-- What holds of ENC while it runs: the checks of R151 passed for the latched operands, the cursors are in order (R23), every
table position has been examined (R160), and the output so far is within the bound of R175. -/
def EncUnit.Running (u : EncUnit) : Prop :=
  encPrecheck u.jobLevel.toNat u.jobIn.len.toNat u.jobOut.len.toNat = none ∧
  u.anchor.toNat ≤ u.ip.toNat ∧ u.ip.toNat ≤ u.jobIn.len.toNat ∧ u.op.toNat ≤ u.jobOut.len.toNat ∧
  32 * u.op.toNat ≤ 33 * u.anchor.toNat ∧
  ∀ c ∈ u.ht, c.2.toNat < u.ip.toNat

/-- ENC's registers agree with each other (R33, R36), it has not reported `Corrupt` (R263), and it is in order while it runs. -/
def EncUnit.Sound (u : EncUnit) : Prop :=
  (u.err = .none ↔ u.status ≠ .fault) ∧ u.err ≠ .corrupt ∧
  (u.status = .done → u.outLen = u.op) ∧ (u.status ≠ .done → u.outLen = 0#32) ∧
  (u.status = .busy → u.Running)

/-- DEC's registers agree with each other (R33, R36), `Corrupt` is its only error (R262), and its cursors are in order while it
runs (R25), with a byte of the input left (R202, R212; DESIGN CHOICE, log entry 13). -/
def DecUnit.Sound (u : DecUnit) : Prop :=
  (u.err = .none ↔ u.status ≠ .fault) ∧ (u.err = .none ∨ u.err = .corrupt) ∧
  (u.status = .done → u.outLen = u.op) ∧ (u.status ≠ .done → u.outLen = 0#32) ∧
  (u.status = .busy → u.ip.toNat < u.jobIn.len.toNat ∧ u.op.toNat ≤ u.jobOut.len.toNat)

/-- No running operation writes a byte that it or another running operation reads or writes (R73, R76). -/
def State.Apart (s : State) : Prop :=
  (s.busy .enc → s.enc.jobIn.meets s.enc.jobOut = false) ∧
  (s.busy .dec → s.dec.jobIn.meets s.dec.jobOut = false) ∧
  (s.busy .adl → s.busy .enc → s.adl.job.meets s.enc.jobOut = false) ∧
  (s.busy .adl → s.busy .dec → s.adl.job.meets s.dec.jobOut = false) ∧
  (s.busy .enc → s.busy .dec →
    s.enc.jobIn.meets s.dec.jobOut = false ∧ s.dec.jobIn.meets s.enc.jobOut = false ∧
    s.enc.jobOut.meets s.dec.jobOut = false)

/-- No unit is running and nothing is said of who moves next: a START from here runs to its end undisturbed. -/
def State.Quiet (s : State) : Prop :=
  s.busy .adl = false ∧ s.busy .enc = false ∧ s.busy .dec = false ∧ s.turns = []

/-- What the host can read of the result of a unit's last operation (R243): `STATUS`, `ERR`, `OUT_LEN` and, of ADL, `ADL_SUM`. -/
def State.results (s : State) (u : UnitId) : List Nat :=
  [s.reg u .status, s.reg u .err, s.reg u .outLen, if u = .adl then s.reg .adl .reg8 else 0]

/-- The number of bytes a token outputs (R203, R207). -/
def outputBytes : Instr → Nat
  | .lit data => data.length
  | .matchSn _ len => len
  | .matchSf _ len => len
  | .matchLn _ len => len
  | .matchLf _ len => len
  | .adlInit => 0
  | .adlUpdate => 0
  | .adlLoad _ => 0
  | .adlRead => 0
  | .encCompress => 0
  | .decDecompress => 0

/-- A token stream executed in order on an empty output (R202). -/
def runTokens (cap : Nat) (out : List Byte) : List Instr → Except ErrCode (List Byte)
  | [] => .ok out
  | i :: is =>
    match expandToken cap out i with
    | .error e => .error e
    | .ok out' => runTokens cap out' is

/-- `n*b_1 + (n-1)*b_2 + ... + 1*b_n`, the weighted sum of R137. -/
def weightedSum : List Byte → Nat
  | [] => 0
  | b :: bs => (bs.length + 1) * b.toNat + weightedSum bs

/-- `b_1 + ... + b_n`. -/
def plainSum : List Byte → Nat
  | [] => 0
  | b :: bs => b.toNat + plainSum bs

end Sys2Proof.Machine
end

