-- ==== Sys2Proof/Certificates/Slice0/Obligations.lean ====
section
/-! DEFINITION. The statements for the provers, from the numbered rules of spec/. -/

open Sys2Proof Sys2Proof.Machine

/-! ### Encoding (30_encoding.md) -/

/-- Decoding the encoding of a well-formed instruction gives it back, with the bytes after it untouched (R93 to R102, R110). -/
def Obligations.DecodeOfEncodeIsTheInstruction : Prop :=
  ∀ i : Instr, i.wf = true →
    (i.isToken = true → ∀ rest, decode (.token (encodeToken i ++ rest)) = .ok (i, rest)) ∧
    (i.isToken = false → decode (encode i) = .ok (i, []))

/-- What decodes as a token is a well-formed token and is exactly its encoding followed by the rest: no two byte strings stand
for one token, so every distance and every length has one encoding (R99, R101). -/
def Obligations.DecodedBytesAreTheEncoding : Prop :=
  ∀ (bytes rest : List Byte) (i : Instr), decode (.token bytes) = .ok (i, rest) →
    i.isToken = true ∧ i.wf = true ∧ bytes = encodeToken i ++ rest

/-- A decoded token takes `tlen` bytes, the lengths of R104, and never fewer than 2. -/
def Obligations.DecodingConsumesTheTokenLength : Prop :=
  ∀ (bytes rest : List Byte) (i : Instr), decode (.token bytes) = .ok (i, rest) →
    bytes.length = i.tlen + rest.length ∧ 2 ≤ i.tlen ∧
    (∀ data, i = .lit data → i.tlen = data.length + 1) ∧
    (∀ d l, i = .matchSn d l → i.tlen = 2) ∧
    (∀ d l, i = .matchSf d l → i.tlen = 4) ∧
    (∀ d l, i = .matchLn d l → i.tlen = 2 + ((l - 9) / 255 + 1)) ∧
    (∀ d l, i = .matchLf d l → i.tlen = 4 + ((l - 9) / 255 + 1))

/-- The opcode map by value of the control byte (R105): which format a decoded token has, and its run or short length. Every value
begins some token. -/
def Obligations.ControlByteSelectsTheFormat : Prop :=
  (∀ (c : Byte) (tail rest : List Byte) (i : Instr), decode (.token (c :: tail)) = .ok (i, rest) →
    (c.toNat < 0x20 → ∃ data, i = .lit data ∧ data.length = c.toNat + 1) ∧
    (0x20 ≤ c.toNat → c.toNat < 0xE0 → ∃ d,
      if c.toNat % 32 = 31 ∧ tail.head? = some 0xFF#8 then i = .matchSf d (c.toNat / 32 + 2)
      else i = .matchSn d (c.toNat / 32 + 2)) ∧
    (0xE0 ≤ c.toNat → ∃ d l x after, readExt tail = .ok (x, after) ∧ l = 9 + x ∧
      if c = 0xFF#8 ∧ after.head? = some 0xFF#8 then i = .matchLf d l else i = .matchLn d l)) ∧
  (∀ c : Byte, ∃ tail i rest, decode (.token (c :: tail)) = .ok (i, rest))

/-- Words written out bit by bit from R93 to R97 and R110 decode to the instruction they stand for. -/
def Obligations.WordsOfTheSpecDecode : Prop :=
  decode (.token [0b00000010#8, 0x61#8, 0x62#8, 0x63#8]) = .ok (.lit [0x61#8, 0x62#8, 0x63#8], []) ∧
  decode (.token [0b01000001#8, 0b00000000#8]) = .ok (.matchSn 257 4, []) ∧
  decode (.token [0b10011111#8, 0b11111111#8, 0b00000001#8, 0b00000000#8]) = .ok (.matchSf 8448 6, []) ∧
  decode (.token [0b11100001#8, 0b00001011#8, 0b00101011#8]) = .ok (.matchLn 300 20, []) ∧
  decode (.token [0b11111111#8, 0b00000000#8, 0b11111111#8, 0b00000000#8, 0b00000000#8]) = .ok (.matchLf 8192 9, []) ∧
  decode (.access (.write .adl .cmd 2)) = .ok (.adlInit, []) ∧
  decode (.access (.write .adl .cmd 1)) = .ok (.adlUpdate, []) ∧
  decode (.access (.write .adl .reg8 0x062C0215)) = .ok (.adlLoad 0x062C0215#32, []) ∧
  decode (.access (.read .adl .reg8)) = .ok (.adlRead, []) ∧
  decode (.access (.write .enc .cmd 1)) = .ok (.encCompress, []) ∧
  decode (.access (.write .dec .cmd 1)) = .ok (.decDecompress, [])

/-- The assembler's choice of format by the operands, and its error (R111). -/
def Obligations.AssemblerPicksTheFormat : Prop :=
  ∀ d l : Nat,
    (assembleMatch d l = none ↔ d < 1 ∨ 73727 < d ∨ l < 3) ∧
    (∀ i, assembleMatch d l = some i → i.wf = true ∧ i.isToken = true ∧
      (d ≤ 8191 → l ≤ 8 → i = .matchSn d l) ∧ (8192 ≤ d → l ≤ 8 → i = .matchSf d l) ∧
      (d ≤ 8191 → 9 ≤ l → i = .matchLn d l) ∧ (8192 ≤ d → 9 ≤ l → i = .matchLf d l))

/-- DEC accepts exactly the streams that are one or more tokens back to back, none of them ill-formed (R90, R106). -/
def Obligations.DecompressAcceptsExactlyWellFormedStreams : Prop :=
  ∀ (input out : List Byte) (cap : Nat),
    decompress input cap = .ok out ↔
      ∃ tokens : List Instr, tokens ≠ [] ∧ (∀ i ∈ tokens, i.isToken = true ∧ i.wf = true) ∧
        input = tokens.flatMap encodeToken ∧ runTokens cap [] tokens = .ok out

/-- The first token of a stream that decodes is a `LIT` (R107). -/
def Obligations.FirstTokenIsLiteral : Prop :=
  ∀ (input out : List Byte) (cap : Nat), decompress input cap = .ok out →
    ∃ data rest, decode (.token input) = .ok (.lit data, rest)

/-- `RUN b, n` outputs n copies of b (R112). -/
def Obligations.RunPseudoInstructionRepeatsTheByte : Prop :=
  ∀ (b : Byte) (n cap : Nat), 4 ≤ n → n ≤ cap →
    ∃ tokens, assembleRun b n = some tokens ∧
      decompress (tokens.flatMap encodeToken) cap = .ok (List.replicate n b)

/-! ### The step -/

/-- A step runs the decoded instruction (R202, R241): DEC's turn runs the token at `DEC_IP`, after the turn has been taken off the order of
the agents, and a truncated token is `Corrupt`; the host's turn is `runAction` of its first action, taken off the queue, which runs the decoded
instruction if the action is an access that is a command; ADL and ENC, which fetch no
instruction, take their turn (R134, R155). The queue and the order of the agents are the model's own (DESIGN CHOICE, log entry 1). -/
def Obligations.StepRunsTheDecodedInstruction : Prop :=
  (∀ (s : State) (i : Instr) (rest : List Byte), s.mover = .dec → s.busy .dec = true →
    s.dec.ip.toNat < s.dec.jobIn.len.toNat → decode (.token s.decStream) = .ok (i, rest) →
      step s = exec i s.popTurn) ∧
  (∀ (s : State) (e : DecodeError), s.mover = .dec → s.busy .dec = true →
    s.dec.ip.toNat < s.dec.jobIn.len.toNat → decode (.token s.decStream) = .error e →
      step s = .next (s.popTurn.raise .dec .corrupt)) ∧
  (∀ (s : State) (a : Access) (queue : List HostAction) (i : Instr), s.mover = .host →
    s.hostQueue = .access a :: queue → decode (.access a) = .ok (i, []) →
      step s = exec i (s.popTurn.setHostQueue queue)) ∧
  (∀ (s : State) (a : HostAction) (queue : List HostAction), s.mover = .host → s.hostQueue = a :: queue →
    step s = runAction a (s.popTurn.setHostQueue queue)) ∧
  (∀ s : State, (s.mover = .adl → step s = .next (adlTurn s.popTurn)) ∧ (s.mover = .enc → step s = .next (encTurn s.popTurn)))

/-- A unit that is not BUSY does nothing and holds its registers, and with nothing pending the host changes nothing (R277, R291): only
the turn is taken off the order of the agents, which is the model's own (DESIGN CHOICE, log entry 1). -/
def Obligations.IdleAgentsChangeNothing : Prop :=
  ∀ s : State,
    (s.mover = .adl → s.busy .adl = false → step s = .next s.popTurn) ∧
    (s.mover = .enc → s.busy .enc = false → step s = .next s.popTurn) ∧
    (s.mover = .dec → s.busy .dec = false → step s = .next s.popTurn) ∧
    (s.mover = .host → s.hostQueue = [] → step s = .next s.popTurn)

/-- A step of one unit leaves the other two units as they are, whatever it does itself (R20, R267). -/
def Obligations.UnitsDoNotTouchEachOther : Prop :=
  ∀ s t : State, step s = .next t →
    (s.mover = .adl → t.enc = s.enc ∧ t.dec = s.dec) ∧
    (s.mover = .enc → t.adl = s.adl ∧ t.dec = s.dec) ∧
    (s.mover = .dec → t.adl = s.adl ∧ t.enc = s.enc)

/-- A running unit writes no byte outside the capacity of its output buffer, whatever its input holds; ADL writes none
(R41, R42, R214). The canonical form of memory is kept by every step (a statement of its own). -/
def Obligations.UnitsWriteOnlyTheirOutputBuffer : Prop :=
  ∀ s t : State, Memory.wf s.mem = true → step s = .next t →
    (s.mover = .adl → t.mem = s.mem) ∧
    (s.mover = .enc → ∀ a, s.enc.jobOut.holds a = false → t.mem.read a = s.mem.read a) ∧
    (s.mover = .dec → ∀ a, s.dec.jobOut.holds a = false → t.mem.read a = s.mem.read a)

/-- Every turn of a running unit ends its operation or moves its cursor forward, DEC by at least 2 (R202, R242). That ADL and DEC, while
still running, have a byte left rests on DESIGN CHOICE log entry 13. -/
def Obligations.EveryTurnAdvances : Prop :=
  ∀ s t : State, s.adl.Sound → s.enc.Sound → s.dec.Sound → step s = .next t →
    (s.mover = .adl → s.busy .adl = true → t.busy .adl = false ∨
      (t.adl.idx.toNat = s.adl.idx.toNat + 1 ∧ t.adl.idx.toNat < s.adl.job.len.toNat)) ∧
    (s.mover = .enc → s.busy .enc = true → t.busy .enc = false ∨
      (s.enc.ip.toNat + 1 ≤ t.enc.ip.toNat ∧ t.enc.ip.toNat ≤ s.enc.jobIn.len.toNat)) ∧
    (s.mover = .dec → s.busy .dec = true → t.busy .dec = false ∨
      (s.dec.ip.toNat + 2 ≤ t.dec.ip.toNat ∧ t.dec.ip.toNat < s.dec.jobIn.len.toNat))

/-! ### ADL (40_checksum.md) -/

/-- The byte step (R131): sums of naturals reduced modulo 65521, `S2` adding the `S1` just written; the sums before reduction fit 17
bits. -/
def Obligations.AdlByteStep : Prop :=
  ∀ (s1 s2 : Lane) (b : Byte),
    (adlerByte (s1, s2) b).1.toNat = (s1.toNat + b.toNat) % 65521 ∧
    (adlerByte (s1, s2) b).2.toNat = (s2.toNat + (adlerByte (s1, s2) b).1.toNat) % 65521 ∧
    s1.toNat + b.toNat ≤ 65535 + 255 ∧ s2.toNat + (adlerByte (s1, s2) b).1.toNat ≤ 65535 + 65520

/-- `ADL.INIT` (R132), the value 2 written to `ADL_CMD`: lanes 1 and 0, `DONE`, no error, nothing else; ignored while BUSY. -/
def Obligations.AdlInitSetsOne : Prop :=
  decode (.access (.write .adl .cmd 2)) = .ok (.adlInit, []) ∧
  ∀ s : State,
    (s.busy .adl = false → ∃ t, exec .adlInit s = .next t ∧
      t = { s with adl := { s.adl with s1 := 1#16, s2 := 0#16, status := .done, err := .none } } ∧
      t.adl.sum = 0x00000001#32) ∧
    (s.busy .adl = true → exec .adlInit s = .next s)

/-- `ADL.LOAD v` (R133), a write of v to `ADL_SUM`: the lanes take the halves of v, unreduced, and nothing else changes; a read of the
sum gives v. While BUSY, where R299 leaves the effect open, the write is refused, the treatment of 93_implementation_defined.md U1. -/
def Obligations.AdlLoadStoresBothLanes : Prop :=
  ∀ (s : State) (v : Word),
    decode (.access (.write .adl .reg8 v.toNat)) = .ok (.adlLoad v, []) ∧
    (s.busy .adl = false → ∃ t, exec (.adlLoad v) s = .next t ∧
      t.adl.s1.toNat = v.toNat % 65536 ∧ t.adl.s2.toNat = v.toNat / 65536 ∧ t.adl.sum = v ∧
      t = { s with adl := { s.adl with s1 := t.adl.s1, s2 := t.adl.s2 } }) ∧
    (s.busy .adl = true → exec (.adlLoad v) s = .refused .sumWriteWhileBusy)

/-- `ADL.READ` (R135), a read of `ADL_SUM`: while ADL is not BUSY the host gets `S2 * 2^16 + S1`, and no state of the block changes.
R135 is defined for that case only; that a read while BUSY answers, with an open value and the block unchanged, is R299 as U1 treats
it (DESIGN CHOICE, log entry 6). `hostData` and `freeCount` are the model's own (log entries 6, 17). -/
def Obligations.AdlReadReturnsTheSum : Prop :=
  decode (.access (.read .adl .reg8)) = .ok (.adlRead, []) ∧
  ∀ s : State, ∃ t, exec .adlRead s = .next t ∧
    (s.busy .adl = false → t = { s with hostData := s.adl.s2.toNat * 65536 + s.adl.s1.toNat }) ∧
    { t with hostData := s.hostData, freeCount := s.freeCount } = s

/-- `ADL.UPDATE` starts (R134, R241): on buffers the platform backs and no running operation writes, the operands are latched and the
unit is BUSY, or already `DONE` over zero bytes with the lanes as they were (at once: log entry 13); ignored while BUSY (R299). That exec
is only the START is DEDUCED (log entry 13). -/
def Obligations.AdlUpdateStarts : Prop :=
  ∀ s : State,
    (s.busy .adl = false → backedBy s.platform s.adl.input = true → s.outBufs.any s.adl.input.meets = false →
      exec .adlUpdate s = .next { s with adl := { s.adl with
        status := if s.adl.input.len = 0#32 then .done else .busy
        err := .none, job := s.adl.input, idx := 0#32 } }) ∧
    (s.busy .adl = true → exec .adlUpdate s = .next s)

/-- One turn of ADL in any state, whatever the other units do (R131, the small step of R134): with a byte left to read, the lanes take
the byte step of `IN[idx]`, the index moves by one, and nothing else changes; the operation is `DONE` after the last byte and only then.
That it is `DONE` in the step of that byte is DESIGN CHOICE (log entry 13). -/
def Obligations.AdlTurnTakesOneByte : Prop :=
  ∀ s : State, s.busy .adl = true → s.adl.idx.toNat < s.adl.job.len.toNat →
    let lanes := adlerByte (s.adl.s1, s.adl.s2) (s.mem.at s.adl.job s.adl.idx.toNat)
    adlTurn s = { s with adl := { s.adl with
      s1 := lanes.1, s2 := lanes.2, idx := BitVec.ofNat 32 (s.adl.idx.toNat + 1)
      status := if s.adl.idx.toNat + 1 = s.adl.job.len.toNat then .done else .busy } }

/-- Big step and small step of `ADL.UPDATE` agree (R134): from a quiet state, START and then one step for each byte end in `DONE` with
the fold of the byte step over the input bytes, and nothing but ADL has changed. Rests on log entries 1 (who moves), 3 (the base as an
address) and 13 (exec is the START). -/
def Obligations.AdlUpdateRunsToTheFold : Prop :=
  ∀ s : State, s.Quiet → backedBy s.platform s.adl.input = true →
    ∃ s₁ t, exec .adlUpdate s = .next s₁ ∧ Sys2Proof.core.run s.adl.input.len.toNat s₁ = .next t ∧
      t.adl.status = .done ∧ t.adl.err = .none ∧
      t.adl.sum = adlerUpdate s.adl.sum (s.mem.slice s.adl.input 0 s.adl.input.len.toNat) ∧
      t.adl.input = s.adl.input ∧ t = { s with adl := t.adl }

/-- Streaming equals one-shot (R136), and a read of the sum followed by a load of the same value restores both lanes. -/
def Obligations.AdlStreamingEqualsOneShot : Prop :=
  (∀ (r : Word) (a b : List Byte), adlerUpdate (adlerUpdate r a) b = adlerUpdate r (a ++ b)) ∧
  (∀ u : AdlUnit, u.loadSum u.sum = u)

/-- The closed form of the lanes after at least one byte, and their range (R21, R137). -/
def Obligations.AdlClosedForm : Prop :=
  ∀ (s1 s2 : Lane) (bytes : List Byte), bytes ≠ [] →
    (bytes.foldl adlerByte (s1, s2)).1.toNat = (s1.toNat + plainSum bytes) % 65521 ∧
    (bytes.foldl adlerByte (s1, s2)).2.toNat = (s2.toNat + bytes.length * s1.toNat + weightedSum bytes) % 65521 ∧
    (bytes.foldl adlerByte (s1, s2)).1.toNat < 65521 ∧ (bytes.foldl adlerByte (s1, s2)).2.toNat < 65521

/-! ### ENC (41_encoder.md) -/

/-- `REQ(n)` is 66 or `ceil(1.05 n)`, whichever is more, in exact arithmetic, with the examples of R7; from 4090445043 on no 32-bit
capacity reaches it, and the check ends in `OutputTooSmall`. -/
def Obligations.RequiredCapacityIsExact : Prop :=
  (∀ n : Nat, reqCap n = max 66 (n + (n + 19) / 20) ∧
    21 * n ≤ 20 * (n + (n + 19) / 20) ∧ 20 * (n + (n + 19) / 20) < 21 * n + 20) ∧
  reqCap 16 = 66 ∧ reqCap 62 = 66 ∧ reqCap 63 = 67 ∧ reqCap 100 = 105 ∧ reqCap 65536 = 68813 ∧
  reqCap 4294967295 = 4509715660 ∧
  (∀ n : Nat, 4090445043 ≤ n → 2 ^ 32 ≤ reqCap n ∧
    ∀ (level : Nat) (cap : Word), level = 1 ∨ level = 2 → encPrecheck level n cap.toNat = some .outputTooSmall)

/-- The precondition faults of `ENC.COMPRESS`, in their order, and that a failed check changes only `ENC_STATUS`, `ENC_ERR` and
`ENC_OUT_LEN`; with the checks passed, a START that answers is BUSY with `ERR` and `OUT_LEN` 0
(R151, R152, R261). That the checks fault also where the buffers are unbacked or overlap is DEDUCED (log entry 8). That
with the checks passed the next state is BUSY with only ENC changed rests on exec being only the START, DEDUCED (log entry 13). -/
def Obligations.EncPreconditionFaults : Prop :=
  ∀ s : State, s.busy .enc = false →
    let faultWith := fun e : ErrCode =>
      exec .encCompress s = .next { s with enc := { s.enc with status := .fault, err := e, outLen := 0#32 } }
    if s.enc.level ≠ 1#32 ∧ s.enc.level ≠ 2#32 then faultWith .unsupportedLevel
    else if s.enc.input.len.toNat < 16 then faultWith .inputTooSmall
    else if s.enc.output.len.toNat < reqCap s.enc.input.len.toNat then faultWith .outputTooSmall
    else ∀ t, exec .encCompress s = .next t →
      t.enc.status = .busy ∧ t.enc.err = .none ∧ t.enc.outLen = 0#32 ∧ t = { s with enc := t.enc }

/-- `ENC.COMPRESS` starts (R150, R154, R241): with the checks passed, the buffers backed, apart from each other and from every running
operation, the operands are latched, the cursors and the table are cleared and the unit is BUSY; ignored while BUSY. That exec is only the
START is DEDUCED (log entry 13). -/
def Obligations.EncCompressStarts : Prop :=
  ∀ s : State,
    (s.busy .enc = false → (s.enc.level = 1#32 ∨ s.enc.level = 2#32) → 16 ≤ s.enc.input.len.toNat →
      reqCap s.enc.input.len.toNat ≤ s.enc.output.len.toNat →
      backedBy s.platform s.enc.input = true → backedBy s.platform s.enc.output = true →
      s.enc.input.meets s.enc.output = false → s.outBufs.any s.enc.input.meets = false →
      s.ownedBufs.any s.enc.output.meets = false →
      exec .encCompress s = .next { s with enc := { s.enc with
        status := .busy, err := .none, outLen := 0#32, ip := 0#32, anchor := 0#32, op := 0#32, ht := [],
        jobIn := s.enc.input, jobOut := s.enc.output, jobLevel := s.enc.level } }) ∧
    (s.busy .enc = true → exec .encCompress s = .next s)

/-- `HASH` of every three bytes is the function of R156, a bucket number, and the examples of R156. -/
def Obligations.HashIsABucket : Prop :=
  (∀ b0 b1 b2 : Byte,
    let a := b0.toNat ||| (b1.toNat <<< 8)
    let b := b1.toNat ||| (b2.toNat <<< 8)
    hash3 b0 b1 b2 = (a ^^^ b ^^^ (a >>> 3)) &&& 0x1FFF ∧ hash3 b0 b1 b2 < 8192) ∧
  hash3 0x61#8 0x62#8 0x63#8 = 0x0D4F ∧ hash3 0x62#8 0x63#8 0x64#8 = 0x0B6D ∧ hash3 0x61#8 0x61#8 0x61#8 = 0x0C2C ∧
  hash3 0x00#8 0x00#8 0x00#8 = 0x0000 ∧ hash3 0xFF#8 0xFF#8 0xFF#8 = 0x1FFF ∧ hash3 0x74#8 0x68#8 0x65#8 = 0x0012 ∧
  hash3 0x01#8 0x02#8 0x03#8 = 0x0143

/-- `MATCHLEN` is the largest length within the limit over which the bytes agree (R159). -/
def Obligations.MatchLenIsTheLongestAgreement : Prop :=
  ∀ (rd : Nat → Byte) (c p lim : Nat),
    matchLen rd c p lim ≤ lim ∧
    (∀ i, i < matchLen rd c p lim → rd (c + i) = rd (p + i)) ∧
    (matchLen rd c p lim < lim → rd (c + matchLen rd c p lim) ≠ rd (p + matchLen rd c p lim))

/-- The selection rule of the match search (R158, R161, R162), with the numbers R153 gives each level: no match only if no way of the
bucket is acceptable; else an acceptable way of greatest length, and of those the one with the lowest number. -/
def Obligations.SearchTakesTheLongestThenTheLowestWay : Prop :=
  ∀ (rd : Nat → Byte) (level n h p : Nat) (ht : Cells 32),
    let len := fun w => matchLen rd (htAt ht h w) p (if level = 1 then min (n - p) 264 else n - p)
    let ok := fun w => w < (if level = 1 then 1 else 4) ∧
      1 ≤ p - htAt ht h w ∧ p - htAt ht h w ≤ (if level = 1 then 8191 else 73727) ∧
      (if p - htAt ht h w ≤ 8191 then 3 else 5) ≤ len w
    let r := search rd level n ht h p
    (r = (0, 0) ∧ ∀ w, ¬ ok w) ∨
    (∃ w, ok w ∧ r = (len w, p - htAt ht h w) ∧
      (∀ v, ok v → len v ≤ len w) ∧ (∀ v, ok v → v < w → len v < len w))

/-- `INSERT` (R163) with the ways of R153, one at level 1 and four at level 2: the position in way 0, every other kept way shifted down by
one, ways the level does not use and the other buckets as they were. -/
def Obligations.InsertShiftsTheBucket : Prop :=
  ∀ (level : Nat) (ht : Cells 32) (h q : Nat), Cells.wf ht = true → q < 2 ^ 32 →
    htAt (htInsert level ht h q) h 0 = q ∧
    (∀ w, w + 1 < (if level = 1 then 1 else 4) → htAt (htInsert level ht h q) h (w + 1) = htAt ht h w) ∧
    (∀ w, (if level = 1 then 1 else 4) ≤ w → w < 4 → htAt (htInsert level ht h q) h w = htAt ht h w) ∧
    (∀ h' w, h' ≠ h → w < 4 → htAt (htInsert level ht h q) h' w = htAt ht h' w)

/-- A turn of ENC at a position with 3 bytes left (R164 to R166): without a match the cursor moves by one and nothing is put; with a
match the pending literals and the back-reference are put, cursor and anchor move past the match, and at level 2 every
covered position `p + 1` to `p + len - 1` with three bytes left is entered in the table, ascending, each in the bucket of its own three
bytes. -/
def Obligations.EncPositionTurn : Prop :=
  ∀ s : State, s.enc.Sound → s.busy .enc = true → s.enc.ip.toNat + 3 ≤ s.enc.jobIn.len.toNat →
    let level := s.enc.jobLevel.toNat
    let n := s.enc.jobIn.len.toNat
    let p := s.enc.ip.toNat
    let bucket := fun q => hash3 (s.encIn q) (s.encIn (q + 1)) (s.encIn (q + 2))
    let m := search s.encIn level n s.enc.ht (bucket p) p
    let ht := htInsert level s.enc.ht (bucket p) p
    let covered := (List.range' (p + 1) (m.1 - 1)).filter (fun q => q + 3 ≤ n)
    let put := emitLits (s.mem.slice s.enc.jobIn s.enc.anchor.toNat p) ++ emitMatch m.2 m.1
    (m.1 = 0 → encTurn s = { s with enc := { s.enc with ht := ht, ip := BitVec.ofNat 32 (p + 1) } }) ∧
    (m.1 ≠ 0 → 3 ≤ m.1 ∧ p + m.1 ≤ n ∧ s.enc.op.toNat + put.length ≤ s.enc.jobOut.len.toNat ∧
      encTurn s = { s with
        mem := s.mem.writeBytes (s.enc.jobOut.addr s.enc.op.toNat) put
        enc := { s.enc with
          ht := if level = 2 then covered.foldl (fun t q => htInsert level t (bucket q) q) ht else ht
          ip := BitVec.ofNat 32 (p + m.1), anchor := BitVec.ofNat 32 (p + m.1)
          op := BitVec.ofNat 32 (s.enc.op.toNat + put.length) } })

/-- The tail flush (R167, R171): the pending bytes are put as literals and the operation ends in `DONE`. -/
def Obligations.EncTailFlush : Prop :=
  ∀ s : State, s.enc.Sound → s.busy .enc = true → s.enc.jobIn.len.toNat < s.enc.ip.toNat + 3 →
    let put := emitLits (s.mem.slice s.enc.jobIn s.enc.anchor.toNat s.enc.jobIn.len.toNat)
    s.enc.op.toNat + put.length ≤ s.enc.jobOut.len.toNat ∧
    encTurn s = { s with
      mem := s.mem.writeBytes (s.enc.jobOut.addr s.enc.op.toNat) put
      enc := { s.enc with
        op := BitVec.ofNat 32 (s.enc.op.toNat + put.length)
        outLen := BitVec.ofNat 32 (s.enc.op.toNat + put.length), err := .none, status := .done } }

/-- `EMIT_LITS` puts the `LIT` tokens of `LITS`, 32 bytes each but the last, and costs `m + ceil(m / 32)` bytes (R112, R168). -/
def Obligations.EmitLitsPutsLiteralTokens : Prop :=
  ∀ span : List Byte,
    emitLits span = (assembleLits span).flatMap encodeToken ∧
    assembleLits span = (List.range ((span.length + 31) / 32)).map (fun j => .lit ((span.drop (32 * j)).take 32)) ∧
    (emitLits span).length = span.length + (span.length + 31) / 32 ∧
    (∀ i ∈ assembleLits span, i.isToken = true ∧ i.wf = true)

/-- `EMIT_MATCH` puts the one token the assembler picks for the operands, and it is shorter than the input it covers (R162, R169). -/
def Obligations.EmitMatchPutsTheToken : Prop :=
  ∀ d l : Nat, 1 ≤ d → d ≤ 73727 → 3 ≤ l →
    ∃ i, assembleMatch d l = some i ∧ emitMatch d l = encodeToken i ∧
      ((d ≤ 8191 ∨ 5 ≤ l) → (emitMatch d l).length + 1 ≤ l)

/-- The output bound (R175), so that `compress` with the required capacity always ends in `Done`. -/
def Obligations.CompressedLengthIsBounded : Prop :=
  ∀ (level : Nat) (x : List Byte) (cap : Nat), level = 1 ∨ level = 2 → 16 ≤ x.length → reqCap x.length ≤ cap →
    (compressedBlock level x).length ≤ x.length + (x.length + 31) / 32 ∧
    x.length + (x.length + 31) / 32 ≤ x.length + (x.length + 19) / 20 ∧
    x.length + (x.length + 19) / 20 ≤ reqCap x.length ∧
    compress level x cap = .ok (compressedBlock level x)

/-- The first token of a compressed block is a `LIT`, so a block is never empty (R173). -/
def Obligations.CompressedBlockStartsWithLiteral : Prop :=
  ∀ (level : Nat) (x : List Byte), level = 1 ∨ level = 2 → 16 ≤ x.length →
    compressedBlock level x ≠ [] ∧
    ∃ data rest, decode (.token (compressedBlock level x)) = .ok (.lit data, rest)

/-- Big step and small step of `ENC.COMPRESS` agree (R150, R155, R174): from a quiet state whose operands pass the checks, START and
then at most `n + 1` steps end in `DONE` with the block that `compress` gives of the input bytes, in the output buffer; nothing
else has changed. Rests on log entries 1 (who moves), 3 (the base as an
address) and 13 (exec is the START). -/
def Obligations.EncRunsToCompress : Prop :=
  ∀ s : State, s.Quiet → Memory.wf s.mem = true → (s.enc.level = 1#32 ∨ s.enc.level = 2#32) →
    16 ≤ s.enc.input.len.toNat → reqCap s.enc.input.len.toNat ≤ s.enc.output.len.toNat →
    backedBy s.platform s.enc.input = true → backedBy s.platform s.enc.output = true →
    s.enc.input.meets s.enc.output = false →
    let x := s.mem.slice s.enc.input 0 s.enc.input.len.toNat
    ∃ s₁ t k y, exec .encCompress s = .next s₁ ∧ k ≤ s.enc.input.len.toNat + 1 ∧ Sys2Proof.core.run k s₁ = .next t ∧
      compress s.enc.level.toNat x s.enc.output.len.toNat = .ok y ∧
      t.enc.status = .done ∧ t.enc.err = .none ∧ t.enc.outLen.toNat = y.length ∧
      t.mem.slice s.enc.output 0 y.length = y ∧
      (∀ a, (∀ j, j < y.length → a ≠ s.enc.output.addr j) → t.mem.read a = s.mem.read a) ∧
      t.enc.input = s.enc.input ∧ t.enc.output = s.enc.output ∧ t.enc.level = s.enc.level ∧
      t = { s with enc := t.enc, mem := t.mem }

/-! ### DEC (42_decoder.md) -/

/-- `LIT` on a running decompression with the token inside IN and its run inside the capacity (R203): the literal bytes are output,
the cursors move, the stream may end (R212), in the token's own step (DESIGN CHOICE, log entry 13), and nothing else changes. -/
def Obligations.LitOutputsItsBytes : Prop :=
  ∀ (s : State) (data : List Byte), Memory.wf s.mem = true → s.busy .dec = true →
    1 ≤ data.length → data.length ≤ 32 →
    s.dec.ip.toNat + 1 + data.length ≤ s.dec.jobIn.len.toNat →
    s.dec.op.toNat + data.length ≤ s.dec.jobOut.len.toNat →
    ∃ t, exec (.lit data) s = .next t ∧
      (∀ j, j < data.length → t.mem.at s.dec.jobOut (s.dec.op.toNat + j) = data.getD j 0#8) ∧
      (∀ a, (∀ j, j < data.length → a ≠ s.dec.jobOut.addr (s.dec.op.toNat + j)) → t.mem.read a = s.mem.read a) ∧
      t.dec.ip.toNat = s.dec.ip.toNat + 1 + data.length ∧ t.dec.op.toNat = s.dec.op.toNat + data.length ∧
      (if t.dec.ip = s.dec.jobIn.len then t.dec.status = .done ∧ t.dec.err = .none ∧ t.dec.outLen = t.dec.op
        else t.dec.status = .busy ∧ t.dec.err = s.dec.err ∧ t.dec.outLen = s.dec.outLen) ∧
      t = { s with mem := t.mem, dec := { s.dec with
        ip := t.dec.ip, op := t.dec.op, status := t.dec.status, err := t.dec.err, outLen := t.dec.outLen } }

/-- Each of the four back-references on a running decompression, with the token inside IN, the distance inside the output and the
length inside the capacity (R205 to R211): the last `dist` bytes are output cyclically for `len` bytes, overlapping or not, the
cursors move, the stream may end (R212), in the token's own step (DESIGN CHOICE, log entry 13), and nothing else changes. -/
def Obligations.MatchRepeatsTheLastBytes : Prop :=
  ∀ (s : State) (i : Instr) (d l : Nat),
    (i = .matchSn d l ∨ i = .matchSf d l ∨ i = .matchLn d l ∨ i = .matchLf d l) →
    Memory.wf s.mem = true → s.busy .dec = true → i.wf = true →
    s.dec.ip.toNat + i.tlen ≤ s.dec.jobIn.len.toNat → d ≤ s.dec.op.toNat →
    s.dec.op.toNat + l ≤ s.dec.jobOut.len.toNat →
    ∃ t, exec i s = .next t ∧
      (∀ j, j < l → t.mem.at s.dec.jobOut (s.dec.op.toNat + j) = s.mem.at s.dec.jobOut (s.dec.op.toNat - d + j % d)) ∧
      (∀ a, (∀ j, j < l → a ≠ s.dec.jobOut.addr (s.dec.op.toNat + j)) → t.mem.read a = s.mem.read a) ∧
      t.dec.ip.toNat = s.dec.ip.toNat + i.tlen ∧ t.dec.op.toNat = s.dec.op.toNat + l ∧
      (if t.dec.ip = s.dec.jobIn.len then t.dec.status = .done ∧ t.dec.err = .none ∧ t.dec.outLen = t.dec.op
        else t.dec.status = .busy ∧ t.dec.err = s.dec.err ∧ t.dec.outLen = s.dec.outLen) ∧
      t = { s with mem := t.mem, dec := { s.dec with
        ip := t.dec.ip, op := t.dec.op, status := t.dec.status, err := t.dec.err, outLen := t.dec.outLen } }

/-- When a token faults, and what the fault leaves (R203 to R206, R213, R264): a token that would end past IN, a back-reference with
`dist > OP`, or an output past the capacity is `Corrupt`; only `STATUS`, `ERR` and `OUT_LEN` change, and no byte is written. -/
def Obligations.IllFormedTokensAreCorrupt : Prop :=
  ∀ (s : State) (i : Instr), s.busy .dec = true → i.isToken = true →
    (s.dec.jobIn.len.toNat < s.dec.ip.toNat + i.tlen ∨
      s.dec.jobOut.len.toNat < s.dec.op.toNat + outputBytes i ∨
      (∃ d l, (i = .matchSn d l ∨ i = .matchSf d l ∨ i = .matchLn d l ∨ i = .matchLf d l) ∧ s.dec.op.toNat < d)) →
    exec i s = .next { s with dec := { s.dec with outLen := 0#32, err := .corrupt, status := .fault } }

/-- The frame of the tokens: for every form and operands, only DEC's cursors and status registers and the bytes of OUT that the token
outputs, from `OUT[OP]` on, can change; outside a running decompression nothing does (R207, R241; log entry 14). -/
def Obligations.TokenFrame : Prop :=
  ∀ (s t : State) (i : Instr), Memory.wf s.mem = true → i.isToken = true → exec i s = .next t →
    t = { s with mem := t.mem, dec := { s.dec with
      ip := t.dec.ip, op := t.dec.op, status := t.dec.status, err := t.dec.err, outLen := t.dec.outLen } } ∧
    (∀ a, (∀ j, j < outputBytes i → a ≠ s.dec.jobOut.addr (s.dec.op.toNat + j)) → t.mem.read a = s.mem.read a) ∧
    (s.busy .dec = false → t = s)

/-- The frame of the host commands: no byte of memory changes; a command of ADL changes only ADL, or only what the host reads; START
of ENC or DEC changes only that unit, and in it no operand register (R132, R133, R135, R241). That exec of `ADL.UPDATE` leaves the lanes, and
exec of `ENC.COMPRESS` and `DEC.DECOMPRESS` memory, although the operations of R134, R150 and R200 change them, rests on log entry 13
(DEDUCED): exec is only the START, and the unit's turns do the rest. -/
def Obligations.HostCommandFrame : Prop :=
  ∀ s t : State,
    (∀ i, (i = .adlInit ∨ i = .adlUpdate ∨ ∃ v, i = .adlLoad v) → exec i s = .next t →
      t = { s with adl := t.adl } ∧ t.adl.input = s.adl.input) ∧
    (exec .adlUpdate s = .next t → t.adl.s1 = s.adl.s1 ∧ t.adl.s2 = s.adl.s2) ∧
    (exec .adlRead s = .next t → t = { s with hostData := t.hostData, freeCount := t.freeCount }) ∧
    (exec .encCompress s = .next t → t = { s with enc := t.enc } ∧
      t.enc.input = s.enc.input ∧ t.enc.output = s.enc.output ∧ t.enc.level = s.enc.level) ∧
    (exec .decDecompress s = .next t → t = { s with dec := t.dec } ∧
      t.dec.input = s.dec.input ∧ t.dec.output = s.dec.output)

/-- `DEC.DECOMPRESS` starts (R200, R201, R241): an empty input is `Corrupt`; else, with the buffers backed, apart from each other and
from every running operation, the operands are latched and the unit is BUSY at the first token; ignored while BUSY. That an empty input is
`Corrupt` whatever the buffers are is DEDUCED (log entry 8), and so is that exec is only the START (log entry 13). -/
def Obligations.DecDecompressStarts : Prop :=
  ∀ s : State,
    (s.busy .dec = false → s.dec.input.len = 0#32 →
      ∃ t, exec .decDecompress s = .next t ∧ t.dec.status = .fault ∧ t.dec.err = .corrupt ∧ t.dec.outLen = 0#32 ∧
        t.dec.ip = 0#32 ∧ t.dec.op = 0#32 ∧ t = { s with dec := t.dec }) ∧
    (s.busy .dec = false → s.dec.input.len ≠ 0#32 →
      backedBy s.platform s.dec.input = true → backedBy s.platform s.dec.output = true →
      s.dec.input.meets s.dec.output = false → s.outBufs.any s.dec.input.meets = false →
      s.ownedBufs.any s.dec.output.meets = false →
      exec .decDecompress s = .next { s with dec := { s.dec with
        status := .busy, err := .none, outLen := 0#32, ip := 0#32, op := 0#32,
        jobIn := s.dec.input, jobOut := s.dec.output } }) ∧
    (s.busy .dec = true → exec .decDecompress s = .next s)

/-- Big step and small step of `DEC.DECOMPRESS` agree (R200 to R213): from a quiet state, START and then at most `n / 2 + 1` steps end as
`decompress` of the input bytes ends: in `DONE` with its output in the buffer, or in `FAULT` with its error. Only DEC and bytes of
its output buffer have changed. Rests on log entries 1 (who moves), 3 (the base as an
address) and 13 (exec is the START). -/
def Obligations.DecRunsToDecompress : Prop :=
  ∀ s : State, s.Quiet → Memory.wf s.mem = true → s.dec.input.len ≠ 0#32 →
    backedBy s.platform s.dec.input = true → backedBy s.platform s.dec.output = true →
    s.dec.input.meets s.dec.output = false →
    let x := s.mem.slice s.dec.input 0 s.dec.input.len.toNat
    ∃ s₁ t k, exec .decDecompress s = .next s₁ ∧ k ≤ s.dec.input.len.toNat / 2 + 1 ∧ Sys2Proof.core.run k s₁ = .next t ∧
      (∀ y, decompress x s.dec.output.len.toNat = .ok y →
        t.dec.status = .done ∧ t.dec.err = .none ∧ t.dec.outLen.toNat = y.length ∧
        t.mem.slice s.dec.output 0 y.length = y) ∧
      (∀ e, decompress x s.dec.output.len.toNat = .error e →
        t.dec.status = .fault ∧ t.dec.err = e ∧ e = .corrupt ∧ t.dec.outLen = 0#32) ∧
      (∀ a, s.dec.output.holds a = false → t.mem.read a = s.mem.read a) ∧
      t = { s with dec := t.dec, mem := t.mem }

/-- Round trip (R216). -/
def Obligations.DecompressOfCompressIsTheInput : Prop :=
  ∀ (level : Nat) (x y : List Byte) (cap : Nat), level = 1 ∨ level = 2 → 16 ≤ x.length → reqCap x.length ≤ cap →
    compress level x cap = .ok y → decompress y x.length = .ok x

/-! ### Registers and the host (10_state.md, 43_host_protocol.md, 70_reset_and_hazards.md) -/

/-- `CMD` (R30): 1 is START, 2 is INIT in ADL, every other value and every write while BUSY has no effect, and a read returns 0. -/
def Obligations.CommandRegisterValues : Prop :=
  ∀ (s : State) (u : UnitId) (v : Nat),
    (v = 1 → runAction (.access (.write u .cmd v)) s =
      exec (match u with | .adl => .adlUpdate | .enc => .encCompress | .dec => .decDecompress) s) ∧
    (v = 2 → u = .adl → runAction (.access (.write u .cmd v)) s = exec .adlInit s) ∧
    (v ≠ 1 → (v ≠ 2 ∨ u ≠ .adl) → runAction (.access (.write u .cmd v)) s = .next s) ∧
    (s.busy u = true → runAction (.access (.write u .cmd v)) s = .next s) ∧
    runAction (.access (.read u .cmd)) s = .next { s with hostData := 0 }

/-- A host read (R31, R32, R39). It returns the register's value and changes nothing else, but for `ERR`, `OUT_LEN` and `ADL_SUM` of a
BUSY unit, whose value R299 leaves open: those reads change only what the host holds. `STATUS` can be read at any time. The values are
written out register by register: the codes of R31 and R33, the operands, `OUT_LEN` (R36), `LEVEL` and the sum (R22); numbers the unit lacks,
and `CMD`, read 0. That the open reads answer, with a free value, and that operand registers of a BUSY unit read as they stand is DESIGN CHOICE (log
entries 6, 10); that final values are there without a `STATUS` read before is log entry 19; `hostData` is the model's own (log entry 17). -/
def Obligations.RegisterReads : Prop :=
  ∀ (s : State) (u : UnitId) (r : RegNo), ∃ t, runAction (.access (.read u r)) s = .next t ∧
    ((s.busy u = true → r ≠ .err ∧ (u = .adl ∨ r ≠ .outLen) ∧ (u ≠ .adl ∨ r ≠ .reg8)) →
      t = { s with hostData := s.reg u r }) ∧
    { t with hostData := s.hostData, freeCount := s.freeCount } = s ∧
    (r = .status → t = { s with hostData := t.hostData } ∧ t.hostData =
      match (match u with | .adl => s.adl.status | .enc => s.enc.status | .dec => s.dec.status) with
      | .idle => 0 | .busy => 1 | .done => 2 | .fault => 3) ∧
    (r = .err → s.busy u = false → t.hostData =
      match (match u with | .adl => s.adl.err | .enc => s.enc.err | .dec => s.dec.err) with
      | .none => 0 | .unsupportedLevel => 1 | .inputTooSmall => 2 | .outputTooSmall => 3 | .corrupt => 4) ∧
    (r = .cmd → t.hostData = 0) ∧
    (r = .inBase → t.hostData = match u with | .adl => s.adl.input.base | .enc => s.enc.input.base | .dec => s.dec.input.base) ∧
    (r = .inLen → t.hostData =
      match u with | .adl => s.adl.input.len.toNat | .enc => s.enc.input.len.toNat | .dec => s.dec.input.len.toNat) ∧
    (r = .outBase → t.hostData = match u with | .adl => 0 | .enc => s.enc.output.base | .dec => s.dec.output.base) ∧
    (r = .outCap → t.hostData = match u with | .adl => 0 | .enc => s.enc.output.len.toNat | .dec => s.dec.output.len.toNat) ∧
    (r = .outLen → s.busy u = false → t.hostData =
      match u with | .adl => 0 | .enc => s.enc.outLen.toNat | .dec => s.dec.outLen.toNat) ∧
    (r = .reg8 → (u = .adl → s.busy u = false → t.hostData = s.adl.s2.toNat * 65536 + s.adl.s1.toNat) ∧
      (u = .enc → t.hostData = s.enc.level.toNat) ∧ (u = .dec → t.hostData = 0))

/-- A host write to an operand register (R32, R299), BUSY or not: the register holds the written value cut to its width, every other
register reads as before, and the running operations, their latched operands and memory are unchanged. The cut is log entry 12. -/
def Obligations.OperandWriteChangesOnlyTheRegister : Prop :=
  ∀ (s : State) (u : UnitId) (r : RegNo) (v : Nat),
    (r = .inBase ∨ r = .inLen ∨ (u ≠ .adl ∧ (r = .outBase ∨ r = .outCap)) ∨ (u = .enc ∧ r = .reg8)) →
    ∃ t, runAction (.access (.write u r v)) s = .next t ∧
      t.reg u r = v % 2 ^ (if r = .inBase ∨ r = .outBase then s.platform.addrBits else 32) ∧
      (∀ u' r', (u', r') ≠ (u, r) → t.reg u' r' = s.reg u' r') ∧
      { t with
        adl := { t.adl with input := s.adl.input }
        enc := { t.enc with input := s.enc.input, output := s.enc.output, level := s.enc.level }
        dec := { t.dec with input := s.dec.input, output := s.dec.output } } = s

/-- Registers a unit lacks, and read-only ones (R32): writes are ignored, and a number the unit lacks reads 0. That a write to a read-only
register of a BUSY unit is ignored is DESIGN CHOICE (log entry 21). -/
def Obligations.AbsentAndReadOnlyRegisters : Prop :=
  ∀ (s : State) (u : UnitId) (r : RegNo) (v : Nat),
    ((u = .adl ∧ (r = .outBase ∨ r = .outCap ∨ r = .outLen)) ∨ (u = .dec ∧ r = .reg8) →
      runAction (.access (.read u r)) s = .next { s with hostData := 0 } ∧
      runAction (.access (.write u r v)) s = .next s) ∧
    (r = .status ∨ r = .err ∨ r = .outLen → runAction (.access (.write u r v)) s = .next s)

/-- Results persist (R243): while a unit is not BUSY, no step changes its `STATUS`, `ERR`, `OUT_LEN` or `ADL_SUM` but the host's START
or INIT of that unit, `ADL.LOAD`, or reset. -/
def Obligations.ResultsPersist : Prop :=
  ∀ (s t : State) (u : UnitId), s.busy u = false → step s = .next t →
    (s.mover = .host → ∀ a queue, s.hostQueue = a :: queue →
      a ≠ .reset ∧ (∀ v, a ≠ .access (.write u .cmd v)) ∧ (u = .adl → ∀ v, a ≠ .access (.write .adl .reg8 v))) →
    t.results u = s.results u

/-- Buffers a running operation owns (R300, U2): the host's write of a byte of them is refused, and so is its read of a byte of an output
buffer; other bytes of ordinary memory are written and read. DESIGN CHOICE (log entries 3, 15), and so is that OUT can be read as soon as
its unit has ended, without a `STATUS` read before (log entry 19). -/
def Obligations.HostMemoryAccess : Prop :=
  ∀ (s : State) (a : Nat) (b : Byte), a < 2 ^ s.platform.addrBits → isDevice s.platform a = false →
    (s.ownedBufs.any (·.holds a) = true → runAction (.memWrite a b) s = .refused (.hostTouchesBusyBuffer a)) ∧
    (s.ownedBufs.any (·.holds a) = false → Memory.wf s.mem = true →
      ∃ t, runAction (.memWrite a b) s = .next t ∧ t.mem.read a = b ∧
        (∀ a', a' ≠ a → t.mem.read a' = s.mem.read a') ∧ t = { s with mem := t.mem }) ∧
    (s.outBufs.any (·.holds a) = true → runAction (.memRead a) s = .refused (.hostTouchesBusyBuffer a)) ∧
    (s.outBufs.any (·.holds a) = false →
      runAction (.memRead a) s = .next { s with hostData := (s.mem.read a).toNat })

/-- When a START whose other conditions hold is refused (R73, R76, R271; 93_implementation_defined.md U2, U3, U5): unbacked buffers, then
overlapping buffers of one operation, then bytes shared with a running operation. The order of the three refusals is the model's choice (DESIGN CHOICE, log entry 8). -/
def Obligations.LaunchRefusals : Prop :=
  ∀ s : State,
    (s.busy .adl = false →
      (backedBy s.platform s.adl.input = false → exec .adlUpdate s = .refused (.launchUnbacked .adl)) ∧
      (backedBy s.platform s.adl.input = true → s.outBufs.any s.adl.input.meets = true →
        exec .adlUpdate s = .refused (.launchConflict .adl))) ∧
    (s.busy .dec = false → s.dec.input.len ≠ 0#32 →
      ((backedBy s.platform s.dec.input && backedBy s.platform s.dec.output) = false →
        exec .decDecompress s = .refused (.launchUnbacked .dec)) ∧
      ((backedBy s.platform s.dec.input && backedBy s.platform s.dec.output) = true →
        s.dec.input.meets s.dec.output = true → exec .decDecompress s = .refused (.launchOverlap .dec)) ∧
      ((backedBy s.platform s.dec.input && backedBy s.platform s.dec.output) = true →
        s.dec.input.meets s.dec.output = false →
        (s.outBufs.any s.dec.input.meets || s.ownedBufs.any s.dec.output.meets) = true →
        exec .decDecompress s = .refused (.launchConflict .dec))) ∧
    (s.busy .enc = false → encPrecheck s.enc.level.toNat s.enc.input.len.toNat s.enc.output.len.toNat = none →
      ((backedBy s.platform s.enc.input && backedBy s.platform s.enc.output) = false →
        exec .encCompress s = .refused (.launchUnbacked .enc)) ∧
      ((backedBy s.platform s.enc.input && backedBy s.platform s.enc.output) = true →
        s.enc.input.meets s.enc.output = true → exec .encCompress s = .refused (.launchOverlap .enc)) ∧
      ((backedBy s.platform s.enc.input && backedBy s.platform s.enc.output) = true →
        s.enc.input.meets s.enc.output = false →
        (s.outBufs.any s.enc.input.meets || s.ownedBufs.any s.enc.output.meets) = true →
        exec .encCompress s = .refused (.launchConflict .enc)))

/-- What reset leaves, for the values R47 gives, and what a START straight after reset gives: ADL `Done` with sum 1, ENC
`Fault(UnsupportedLevel)`, DEC `Fault(Corrupt)` (R47). -/
def Obligations.ResetValuesAndFirstStart : Prop :=
  State.reset.adl.sum = 0x00000001#32 ∧
  (∀ u, State.reset.reg u .status = 0 ∧ State.reset.reg u .err = 0 ∧ State.reset.reg u .inLen = 0 ∧
    State.reset.reg u .outCap = 0 ∧ State.reset.reg u .outLen = 0) ∧
  State.reset.enc.level = 0#32 ∧
  State.reset.enc.ip = 0#32 ∧ State.reset.enc.anchor = 0#32 ∧ State.reset.enc.op = 0#32 ∧
  State.reset.dec.ip = 0#32 ∧ State.reset.dec.op = 0#32 ∧
  (∃ t, exec .adlUpdate State.reset = .next t ∧ t.adl.status = .done ∧ t.adl.sum = 1#32) ∧
  (∃ t, exec .encCompress State.reset = .next t ∧ t.enc.status = .fault ∧ t.enc.err = .unsupportedLevel) ∧
  (∃ t, exec .decDecompress State.reset = .next t ∧ t.dec.status = .fault ∧ t.dec.err = .corrupt)

/-- The reset event (R290, R292): every unit `IDLE` with its reset values and `ADL_SUM` 1, a running operation ended without a result,
and no byte changed outside the output buffers of running operations. R292 gives the memory clause for the buffers of an operation the
reset ends; for all other memory, which R47 and U7 leave unspecified after a reset, it is the model's choice (DEDUCED, unsafe, log entry
11), and so is that the host's pending actions outlive the reset. The values of the bases, of `HT` and of the latched copies are DESIGN
CHOICE (log entry 2); that the reset is an action of the host is log entry 20. -/
def Obligations.ResetEvent : Prop :=
  ∀ s : State, Memory.wf s.mem = true → ∃ t, runAction .reset s = .next t ∧
    t.adl = AdlUnit.reset ∧ t.enc = EncUnit.reset ∧ t.dec = DecUnit.reset ∧ t.adl.sum = 1#32 ∧
    (∀ u, t.reg u .status = 0) ∧
    (∀ a, s.outBufs.any (·.holds a) = false → t.mem.read a = s.mem.read a) ∧
    t.platform = s.platform ∧ t.hostQueue = s.hostQueue ∧ t.turns = s.turns ∧ t.hostData = s.hostData

/-! ### Invariants every step keeps -/

/-- Memory and the candidate table stay in canonical form, and the platform's parameters never change: memory is a function of addresses
(R40, R60), and equal memories are equal data (DESIGN CHOICE, log entries 4, 18). -/
def Obligations.CanonicalFormIsKept : Prop :=
  ∀ s t : State, s.Canonical → step s = .next t → t.Canonical ∧ t.platform = s.platform

/-- ADL never faults, its `ERR` is 0 (R31, R33, R260), and a running UPDATE has a byte left (R134, R242). The last clause rests on DESIGN
CHOICE log entry 13: an UPDATE is `DONE` in the step of its last byte, and at START over zero bytes. -/
def Obligations.AdlStaysSound : Prop :=
  ∀ s t : State, s.adl.Sound → step s = .next t → t.adl.Sound

/-- ENC stays sound (R23, R33, R36, R160, R175): in particular no run of `ENC.COMPRESS` ever reports `Corrupt` (R170, R263). -/
def Obligations.EncStaysSoundAndNeverCorrupt : Prop :=
  ∀ s t : State, s.enc.Sound → step s = .next t → t.enc.Sound ∧ t.enc.err ≠ .corrupt

/-- DEC stays sound (R25, R33, R36, R262). That a running decompression has a byte left, `DEC_IP` below the input length where R25 gives
only at most, follows from R202 and R212 with DESIGN CHOICE log entry 13: DEC is `DONE` in the step of its last token. -/
def Obligations.DecStaysSound : Prop :=
  ∀ s t : State, s.dec.Sound → step s = .next t → t.dec.Sound

/-- Running operations stay apart (R73, R76). -/
def Obligations.RunningOperationsStayApart : Prop :=
  ∀ s t : State, s.Apart → step s = .next t → t.Apart

/-- The invariants hold at reset. -/
def Obligations.ResetIsSound : Prop :=
  State.reset.Canonical ∧ State.reset.adl.Sound ∧ State.reset.enc.Sound ∧ State.reset.dec.Sound ∧ State.reset.Apart ∧
  State.reset.Quiet
end

