-- ==== Sys2Proof/Laws/State.lean ====
section
/-! SUPPORT. What each named update of the state changes and leaves, one lemma a field. -/

namespace Sys2Proof.Machine

@[simp] theorem State.setAdl_adl (s : State) (u : AdlUnit) : (s.setAdl u).adl = u := rfl
@[simp] theorem State.setAdl_enc (s : State) (u : AdlUnit) : (s.setAdl u).enc = s.enc := rfl
@[simp] theorem State.setAdl_dec (s : State) (u : AdlUnit) : (s.setAdl u).dec = s.dec := rfl
@[simp] theorem State.setAdl_mem (s : State) (u : AdlUnit) : (s.setAdl u).mem = s.mem := rfl
@[simp] theorem State.setAdl_platform (s : State) (u : AdlUnit) : (s.setAdl u).platform = s.platform := rfl
@[simp] theorem State.setAdl_hostQueue (s : State) (u : AdlUnit) : (s.setAdl u).hostQueue = s.hostQueue := rfl
@[simp] theorem State.setAdl_turns (s : State) (u : AdlUnit) : (s.setAdl u).turns = s.turns := rfl
@[simp] theorem State.setAdl_hostData (s : State) (u : AdlUnit) : (s.setAdl u).hostData = s.hostData := rfl
@[simp] theorem State.setAdl_freeCount (s : State) (u : AdlUnit) : (s.setAdl u).freeCount = s.freeCount := rfl

@[simp] theorem State.setEnc_adl (s : State) (u : EncUnit) : (s.setEnc u).adl = s.adl := rfl
@[simp] theorem State.setEnc_enc (s : State) (u : EncUnit) : (s.setEnc u).enc = u := rfl
@[simp] theorem State.setEnc_dec (s : State) (u : EncUnit) : (s.setEnc u).dec = s.dec := rfl
@[simp] theorem State.setEnc_mem (s : State) (u : EncUnit) : (s.setEnc u).mem = s.mem := rfl
@[simp] theorem State.setEnc_platform (s : State) (u : EncUnit) : (s.setEnc u).platform = s.platform := rfl
@[simp] theorem State.setEnc_hostQueue (s : State) (u : EncUnit) : (s.setEnc u).hostQueue = s.hostQueue := rfl
@[simp] theorem State.setEnc_turns (s : State) (u : EncUnit) : (s.setEnc u).turns = s.turns := rfl
@[simp] theorem State.setEnc_hostData (s : State) (u : EncUnit) : (s.setEnc u).hostData = s.hostData := rfl
@[simp] theorem State.setEnc_freeCount (s : State) (u : EncUnit) : (s.setEnc u).freeCount = s.freeCount := rfl

@[simp] theorem State.setDec_adl (s : State) (u : DecUnit) : (s.setDec u).adl = s.adl := rfl
@[simp] theorem State.setDec_enc (s : State) (u : DecUnit) : (s.setDec u).enc = s.enc := rfl
@[simp] theorem State.setDec_dec (s : State) (u : DecUnit) : (s.setDec u).dec = u := rfl
@[simp] theorem State.setDec_mem (s : State) (u : DecUnit) : (s.setDec u).mem = s.mem := rfl
@[simp] theorem State.setDec_platform (s : State) (u : DecUnit) : (s.setDec u).platform = s.platform := rfl
@[simp] theorem State.setDec_hostQueue (s : State) (u : DecUnit) : (s.setDec u).hostQueue = s.hostQueue := rfl
@[simp] theorem State.setDec_turns (s : State) (u : DecUnit) : (s.setDec u).turns = s.turns := rfl
@[simp] theorem State.setDec_hostData (s : State) (u : DecUnit) : (s.setDec u).hostData = s.hostData := rfl
@[simp] theorem State.setDec_freeCount (s : State) (u : DecUnit) : (s.setDec u).freeCount = s.freeCount := rfl

@[simp] theorem State.setMem_adl (s : State) (m : Mem) : (s.setMem m).adl = s.adl := rfl
@[simp] theorem State.setMem_enc (s : State) (m : Mem) : (s.setMem m).enc = s.enc := rfl
@[simp] theorem State.setMem_dec (s : State) (m : Mem) : (s.setMem m).dec = s.dec := rfl
@[simp] theorem State.setMem_mem (s : State) (m : Mem) : (s.setMem m).mem = m := rfl
@[simp] theorem State.setMem_platform (s : State) (m : Mem) : (s.setMem m).platform = s.platform := rfl
@[simp] theorem State.setMem_hostQueue (s : State) (m : Mem) : (s.setMem m).hostQueue = s.hostQueue := rfl
@[simp] theorem State.setMem_turns (s : State) (m : Mem) : (s.setMem m).turns = s.turns := rfl
@[simp] theorem State.setMem_hostData (s : State) (m : Mem) : (s.setMem m).hostData = s.hostData := rfl
@[simp] theorem State.setMem_freeCount (s : State) (m : Mem) : (s.setMem m).freeCount = s.freeCount := rfl

@[simp] theorem State.setHostData_adl (s : State) (v : Nat) : (s.setHostData v).adl = s.adl := rfl
@[simp] theorem State.setHostData_enc (s : State) (v : Nat) : (s.setHostData v).enc = s.enc := rfl
@[simp] theorem State.setHostData_dec (s : State) (v : Nat) : (s.setHostData v).dec = s.dec := rfl
@[simp] theorem State.setHostData_mem (s : State) (v : Nat) : (s.setHostData v).mem = s.mem := rfl
@[simp] theorem State.setHostData_platform (s : State) (v : Nat) : (s.setHostData v).platform = s.platform := rfl
@[simp] theorem State.setHostData_hostQueue (s : State) (v : Nat) : (s.setHostData v).hostQueue = s.hostQueue := rfl
@[simp] theorem State.setHostData_turns (s : State) (v : Nat) : (s.setHostData v).turns = s.turns := rfl
@[simp] theorem State.setHostData_hostData (s : State) (v : Nat) : (s.setHostData v).hostData = v := rfl
@[simp] theorem State.setHostData_freeCount (s : State) (v : Nat) : (s.setHostData v).freeCount = s.freeCount := rfl

@[simp] theorem State.setHostQueue_adl (s : State) (q : List HostAction) : (s.setHostQueue q).adl = s.adl := rfl
@[simp] theorem State.setHostQueue_enc (s : State) (q : List HostAction) : (s.setHostQueue q).enc = s.enc := rfl
@[simp] theorem State.setHostQueue_dec (s : State) (q : List HostAction) : (s.setHostQueue q).dec = s.dec := rfl
@[simp] theorem State.setHostQueue_mem (s : State) (q : List HostAction) : (s.setHostQueue q).mem = s.mem := rfl
@[simp] theorem State.setHostQueue_platform (s : State) (q : List HostAction) : (s.setHostQueue q).platform = s.platform := rfl
@[simp] theorem State.setHostQueue_hostQueue (s : State) (q : List HostAction) : (s.setHostQueue q).hostQueue = q := rfl
@[simp] theorem State.setHostQueue_turns (s : State) (q : List HostAction) : (s.setHostQueue q).turns = s.turns := rfl
@[simp] theorem State.setHostQueue_hostData (s : State) (q : List HostAction) : (s.setHostQueue q).hostData = s.hostData := rfl
@[simp] theorem State.setHostQueue_freeCount (s : State) (q : List HostAction) : (s.setHostQueue q).freeCount = s.freeCount := rfl

@[simp] theorem State.setTurns_adl (s : State) (t : List Agent) : (s.setTurns t).adl = s.adl := rfl
@[simp] theorem State.setTurns_enc (s : State) (t : List Agent) : (s.setTurns t).enc = s.enc := rfl
@[simp] theorem State.setTurns_dec (s : State) (t : List Agent) : (s.setTurns t).dec = s.dec := rfl
@[simp] theorem State.setTurns_mem (s : State) (t : List Agent) : (s.setTurns t).mem = s.mem := rfl
@[simp] theorem State.setTurns_platform (s : State) (t : List Agent) : (s.setTurns t).platform = s.platform := rfl
@[simp] theorem State.setTurns_hostQueue (s : State) (t : List Agent) : (s.setTurns t).hostQueue = s.hostQueue := rfl
@[simp] theorem State.setTurns_turns (s : State) (t : List Agent) : (s.setTurns t).turns = t := rfl
@[simp] theorem State.setTurns_hostData (s : State) (t : List Agent) : (s.setTurns t).hostData = s.hostData := rfl
@[simp] theorem State.setTurns_freeCount (s : State) (t : List Agent) : (s.setTurns t).freeCount = s.freeCount := rfl

@[simp] theorem State.bumpFree_adl (s : State) : s.bumpFree.adl = s.adl := rfl
@[simp] theorem State.bumpFree_enc (s : State) : s.bumpFree.enc = s.enc := rfl
@[simp] theorem State.bumpFree_dec (s : State) : s.bumpFree.dec = s.dec := rfl
@[simp] theorem State.bumpFree_mem (s : State) : s.bumpFree.mem = s.mem := rfl
@[simp] theorem State.bumpFree_platform (s : State) : s.bumpFree.platform = s.platform := rfl
@[simp] theorem State.bumpFree_hostQueue (s : State) : s.bumpFree.hostQueue = s.hostQueue := rfl
@[simp] theorem State.bumpFree_turns (s : State) : s.bumpFree.turns = s.turns := rfl
@[simp] theorem State.bumpFree_hostData (s : State) : s.bumpFree.hostData = s.hostData := rfl
@[simp] theorem State.bumpFree_freeCount (s : State) : s.bumpFree.freeCount = s.freeCount + 1 := rfl

@[simp] theorem State.setAdl_busy_adl (s : State) (u : AdlUnit) : (s.setAdl u).busy .adl = (u.status == .busy) := rfl
@[simp] theorem State.setAdl_busy_enc (s : State) (u : AdlUnit) : (s.setAdl u).busy .enc = s.busy .enc := rfl
@[simp] theorem State.setAdl_busy_dec (s : State) (u : AdlUnit) : (s.setAdl u).busy .dec = s.busy .dec := rfl
@[simp] theorem State.setEnc_busy_adl (s : State) (u : EncUnit) : (s.setEnc u).busy .adl = s.busy .adl := rfl
@[simp] theorem State.setEnc_busy_enc (s : State) (u : EncUnit) : (s.setEnc u).busy .enc = (u.status == .busy) := rfl
@[simp] theorem State.setEnc_busy_dec (s : State) (u : EncUnit) : (s.setEnc u).busy .dec = s.busy .dec := rfl
@[simp] theorem State.setDec_busy_adl (s : State) (u : DecUnit) : (s.setDec u).busy .adl = s.busy .adl := rfl
@[simp] theorem State.setDec_busy_enc (s : State) (u : DecUnit) : (s.setDec u).busy .enc = s.busy .enc := rfl
@[simp] theorem State.setDec_busy_dec (s : State) (u : DecUnit) : (s.setDec u).busy .dec = (u.status == .busy) := rfl
@[simp] theorem State.setMem_busy (s : State) (m : Mem) (w : UnitId) : (s.setMem m).busy w = s.busy w := by
  cases w <;> rfl
@[simp] theorem State.setHostData_busy (s : State) (v : Nat) (w : UnitId) : (s.setHostData v).busy w = s.busy w := by
  cases w <;> rfl
@[simp] theorem State.setHostQueue_busy (s : State) (q : List HostAction) (w : UnitId) : (s.setHostQueue q).busy w = s.busy w := by
  cases w <;> rfl
@[simp] theorem State.setTurns_busy (s : State) (t : List Agent) (w : UnitId) : (s.setTurns t).busy w = s.busy w := by
  cases w <;> rfl
@[simp] theorem State.bumpFree_busy (s : State) (w : UnitId) : s.bumpFree.busy w = s.busy w := by
  cases w <;> rfl

@[simp] theorem State.popTurn_adl (s : State) : s.popTurn.adl = s.adl := rfl
@[simp] theorem State.popTurn_enc (s : State) : s.popTurn.enc = s.enc := rfl
@[simp] theorem State.popTurn_dec (s : State) : s.popTurn.dec = s.dec := rfl
@[simp] theorem State.popTurn_mem (s : State) : s.popTurn.mem = s.mem := rfl
@[simp] theorem State.popTurn_platform (s : State) : s.popTurn.platform = s.platform := rfl
@[simp] theorem State.popTurn_hostQueue (s : State) : s.popTurn.hostQueue = s.hostQueue := rfl
@[simp] theorem State.popTurn_hostData (s : State) : s.popTurn.hostData = s.hostData := rfl
@[simp] theorem State.popTurn_freeCount (s : State) : s.popTurn.freeCount = s.freeCount := rfl
@[simp] theorem State.popTurn_busy (s : State) (w : UnitId) : s.popTurn.busy w = s.busy w := by cases w <;> rfl

theorem State.busy_adl (s : State) : s.busy .adl = true ↔ s.adl.status = .busy := by simp [State.busy]
theorem State.busy_enc (s : State) : s.busy .enc = true ↔ s.enc.status = .busy := by simp [State.busy]
theorem State.busy_dec (s : State) : s.busy .dec = true ↔ s.dec.status = .busy := by simp [State.busy]

/-- Setting the parts of a state to themselves is no change. -/
theorem State.setMem_self (s : State) : s.setMem s.mem = s := rfl

/-- An error leaves everything but its unit as it is (R267). -/
theorem State.raise_enc (s : State) (e : ErrCode) : s.raise .enc e = s.setEnc (s.enc.raise e) := rfl
theorem State.raise_dec (s : State) (e : ErrCode) : s.raise .dec e = s.setDec (s.dec.raise e) := rfl

end Sys2Proof.Machine
end

