-- ==== Sys2Proof/Laws/Cells.lean ====
section
/-! SUPPORT. Sparse cells: read after write, the canonical form, and what it is for (equal reads are equal cells). -/

namespace Sys2Proof.Machine

variable {w : Nat}

theorem Cells.wfFrom_mono {lo lo' : Nat} (h : lo ≤ lo') : ∀ {c : Cells w}, Cells.wfFrom lo' c = true → Cells.wfFrom lo c = true
  | [], _ => rfl
  | (a, x) :: rest, hw => by
    simp only [Cells.wfFrom, Bool.and_eq_true, decide_eq_true_eq] at hw ⊢
    exact ⟨⟨by omega, hw.1.2⟩, hw.2⟩

/-- A key below every listed one reads as zero. -/
theorem Cells.read_below {lo k : Nat} (hk : k < lo) : ∀ {c : Cells w}, Cells.wfFrom lo c = true → c.read k = 0#w
  | [], _ => rfl
  | (a, x) :: rest, hw => by
    simp only [Cells.wfFrom, Bool.and_eq_true, decide_eq_true_eq] at hw
    simp only [Cells.read]
    rw [if_neg (by omega), if_pos (by omega)]

/-- A write keeps the canonical form. -/
theorem Cells.wfFrom_write {lo k : Nat} (v : BitVec w) (hk : lo ≤ k) :
    ∀ {c : Cells w}, Cells.wfFrom lo c = true → Cells.wfFrom lo (c.write k v) = true
  | [], _ => by
    by_cases hv : v = 0#w <;> simp [Cells.write, Cells.wfFrom, hv, hk]
  | (a, x) :: rest, hw => by
    have hw' := hw
    simp only [Cells.wfFrom, Bool.and_eq_true, decide_eq_true_eq] at hw'
    obtain ⟨⟨ha, hx⟩, hr⟩ := hw'
    simp only [Cells.write]
    split
    · split
      · exact hw
      · rename_i hka hv
        simp only [Cells.wfFrom, Bool.and_eq_true, decide_eq_true_eq]
        exact ⟨⟨hk, hv⟩, ⟨by omega, hx⟩, hr⟩
    · split
      · split
        · exact Cells.wfFrom_mono (by omega) hr
        · rename_i hv
          simp only [Cells.wfFrom, Bool.and_eq_true, decide_eq_true_eq]
          exact ⟨⟨hk, hv⟩, by subst_vars; exact hr⟩
      · simp only [Cells.wfFrom, Bool.and_eq_true, decide_eq_true_eq]
        exact ⟨⟨ha, hx⟩, Cells.wfFrom_write v (by omega) hr⟩

theorem Cells.wf_write {c : Cells w} (k : Nat) (v : BitVec w) (h : c.wf = true) : (c.write k v).wf = true :=
  Cells.wfFrom_write v (Nat.zero_le k) h

theorem Cells.read_write_from {lo : Nat} (k j : Nat) (v : BitVec w) :
    ∀ {c : Cells w}, Cells.wfFrom lo c = true → (c.write k v).read j = if j = k then v else c.read j
  | [], _ => by
    by_cases hv : v = 0#w <;> simp only [Cells.write, Cells.read, hv, if_true, if_false] <;> split_ifs <;> rfl
  | (a, x) :: rest, hw => by
    simp only [Cells.wfFrom, Bool.and_eq_true, decide_eq_true_eq] at hw
    obtain ⟨⟨ha, hx⟩, hr⟩ := hw
    have ih := Cells.read_write_from k j v hr
    have hb : ∀ i, i ≤ a → Cells.read i rest = 0#w := fun i hi => Cells.read_below (by omega) hr
    by_cases hlt : k < a
    · by_cases hv : v = 0#w
      · simp only [Cells.write, if_pos hlt, if_pos hv, Cells.read]
        split_ifs <;> first | omega | simp_all
      · simp only [Cells.write, if_pos hlt, if_neg hv, Cells.read]
        split_ifs <;> first | omega | rfl
    · by_cases hka : k = a
      · subst hka
        by_cases hv : v = 0#w
        · simp only [Cells.write, if_neg hlt, if_true, if_pos hv, Cells.read]
          by_cases hj : j ≤ k
          · rw [hb j hj]; split_ifs <;> first | omega | simp_all
          · rw [if_neg (by omega), if_neg (by omega), if_neg (by omega)]
        · simp only [Cells.write, if_neg hlt, if_true, if_neg hv, Cells.read]
          split_ifs <;> first | omega | rfl
      · simp only [Cells.write, if_neg hlt, if_neg hka, Cells.read, ih]
        split_ifs <;> first | omega | rfl

/-- Read after write: the written value at its key, every other key as before. -/
theorem Cells.read_write {c : Cells w} (h : c.wf = true) (k j : Nat) (v : BitVec w) :
    (c.write k v).read j = if j = k then v else c.read j :=
  Cells.read_write_from k j v h

/-- What is listed is what reads as non-zero. -/
theorem Cells.mem_iff_read {lo : Nat} : ∀ {c : Cells w}, Cells.wfFrom lo c = true → ∀ k v, (k, v) ∈ c ↔ v ≠ 0#w ∧ c.read k = v
  | [], _ => by
    intro k v
    simp only [List.not_mem_nil, Cells.read, false_iff, not_and]
    exact fun h => fun h' => h h'.symm
  | (a, x) :: rest, hw => by
    intro k v
    have hw' := hw
    simp only [Cells.wfFrom, Bool.and_eq_true, decide_eq_true_eq] at hw
    obtain ⟨⟨ha, hx⟩, hr⟩ := hw
    have ih := Cells.mem_iff_read hr k v
    simp only [List.mem_cons, Prod.mk.injEq, Cells.read]
    by_cases hka : k = a
    · subst hka
      have : Cells.read k rest = 0#w := Cells.read_below (by omega) hr
      rw [this] at ih
      simp only [true_and, if_true]
      constructor
      · rintro (rfl | h)
        · exact ⟨hx, rfl⟩
        · exact absurd (ih.1 h).2.symm (ih.1 h).1
      · rintro ⟨_, h⟩
        exact .inl h.symm
    · simp only [hka, false_and, false_or, if_false]
      by_cases hlt : k < a
      · have : Cells.read k rest = 0#w := Cells.read_below (by omega) hr
        rw [ih, this, if_pos hlt]
      · rw [if_neg hlt, ih]

/-- Cells in canonical form with the same reads are the same cells. -/
theorem Cells.eq_of_read_eq_from {lo : Nat} : ∀ {c d : Cells w}, Cells.wfFrom lo c = true → Cells.wfFrom lo d = true →
    (∀ k, c.read k = d.read k) → c = d
  | [], [], _, _, _ => rfl
  | [], (b, y) :: d, _, hd, h => by
    simp only [Cells.wfFrom, Bool.and_eq_true, decide_eq_true_eq] at hd
    have := h b
    simp [Cells.read] at this
    exact absurd this.symm hd.1.2
  | (a, x) :: c, [], hc, _, h => by
    simp only [Cells.wfFrom, Bool.and_eq_true, decide_eq_true_eq] at hc
    have := h a
    simp [Cells.read] at this
    exact absurd this hc.1.2
  | (a, x) :: c, (b, y) :: d, hc, hd, h => by
    simp only [Cells.wfFrom, Bool.and_eq_true, decide_eq_true_eq] at hc hd
    obtain ⟨⟨ha, hx⟩, hc⟩ := hc
    obtain ⟨⟨hb, hy⟩, hd⟩ := hd
    have hab : a = b := by
      have h1 := h a
      have h2 := h b
      simp only [Cells.read] at h1 h2
      split_ifs at h1 h2 <;> first | omega | simp_all
    subst hab
    have hxy : x = y := by simpa [Cells.read] using h a
    subst hxy
    have : c = d := by
      refine Cells.eq_of_read_eq_from hc hd fun k => ?_
      by_cases hk : k ≤ a
      · rw [Cells.read_below (by omega) hc, Cells.read_below (by omega) hd]
      · have := h k
        simp only [Cells.read] at this
        rwa [if_neg (by omega), if_neg (by omega), if_neg (by omega), if_neg (by omega)] at this
    rw [this]

theorem Cells.eq_of_read_eq {c d : Cells w} (hc : c.wf = true) (hd : d.wf = true) (h : ∀ k, c.read k = d.read k) : c = d :=
  Cells.eq_of_read_eq_from hc hd h

/-- A write lists nothing new but the pair written. -/
theorem Cells.mem_write {k : Nat} {v : BitVec w} {e : Nat × BitVec w} : ∀ {c : Cells w}, e ∈ c.write k v → e ∈ c ∨ e = (k, v)
  | [], h => by
    simp only [Cells.write] at h
    split at h
    · cases h
    · exact .inr (List.mem_singleton.1 h)
  | (a, x) :: rest, h => by
    simp only [Cells.write] at h
    split_ifs at h <;> simp only [List.mem_cons] at h ⊢
    · exact .inl h
    · tauto
    · tauto
    · tauto
    · rcases h with h | h
      · tauto
      · rcases Cells.mem_write h with h | h <;> tauto

/-- A value read is zero or listed. -/
theorem Cells.read_mem {k : Nat} : ∀ {c : Cells w}, c.read k = 0#w ∨ (k, c.read k) ∈ c
  | [] => .inl rfl
  | (a, x) :: rest => by
    simp only [Cells.read]
    split_ifs with h1 h2
    · subst h1; right; simp
    · left; rfl
    · rcases @Cells.read_mem k rest with h | h
      · exact .inl h
      · right; simp [h]

end Sys2Proof.Machine
end

