-- ==== Sys2Proof/Laws/Ops.lean ====
section
/-! SUPPORT. What each shared operation over memory and buffers does: reads after writes, the bytes a block write, a forward copy or a
scramble touches, the canonical form, and when a launch is refused. -/

namespace Sys2Proof.Machine

/-! ### One byte -/

theorem Mem.read_write {m : Mem} (h : Memory.wf m = true) (a j : Nat) (b : Byte) :
    (m.write a b).read j = if j = a then b else m.read j := Cells.read_write h a j b

theorem Memory.wf_write {m : Mem} (a : Nat) (b : Byte) (h : Memory.wf m = true) : Memory.wf (m.write a b) = true :=
  Cells.wf_write a b h

/-! ### Block write -/

theorem Memory.wf_writeBytes (bs : List Byte) : ∀ {m : Mem} (a : Nat), Memory.wf m = true → Memory.wf (m.writeBytes a bs) = true := by
  induction bs with
  | nil => exact fun _ h => h
  | cons b bs ih => exact fun a h => ih (a + 1) (Memory.wf_write a b h)

/-- The written bytes, and every other byte as before. -/
theorem Mem.read_writeBytes (bs : List Byte) : ∀ {m : Mem} (a j : Nat), Memory.wf m = true →
    (m.writeBytes a bs).read j = if a ≤ j ∧ j < a + bs.length then bs.getD (j - a) 0#8 else m.read j := by
  induction bs with
  | nil => intro m a j _; rw [if_neg (by simp)]; rfl
  | cons b bs ih =>
    intro m a j h
    rw [Mem.writeBytes, ih (a + 1) j (Memory.wf_write a b h), Mem.read_write h]
    by_cases hj : j = a
    · subst hj; simp
    · by_cases hin : a + 1 ≤ j ∧ j < a + 1 + bs.length
      · rw [if_pos hin, if_pos (by simp only [List.length_cons]; omega)]
        obtain ⟨i, rfl⟩ : ∃ i, j = a + 1 + i := ⟨j - (a + 1), by omega⟩
        rw [show a + 1 + i - (a + 1) = i by omega, show a + 1 + i - a = i + 1 by omega]
        rfl
      · rw [if_neg hin, if_neg hj, if_neg (by simp only [List.length_cons]; omega)]

theorem Mem.writeBytes_append (as bs : List Byte) : ∀ (m : Mem) (a : Nat),
    m.writeBytes a (as ++ bs) = (m.writeBytes a as).writeBytes (a + as.length) bs := by
  induction as with
  | nil => intro m a; rfl
  | cons x as ih =>
    intro m a
    simp only [List.cons_append, Mem.writeBytes, ih, List.length_cons]
    rw [show a + 1 + as.length = a + (as.length + 1) by omega]

/-! ### Block read -/

@[simp] theorem Mem.readBytes_length (m : Mem) : ∀ (a k : Nat), (m.readBytes a k).length = k
  | _, 0 => rfl
  | a, k + 1 => by simp [Mem.readBytes, Mem.readBytes_length m (a + 1) k]

theorem Mem.readBytes_getD (m : Mem) : ∀ (a k i : Nat), i < k → (m.readBytes a k).getD i 0#8 = m.read (a + i)
  | a, k + 1, 0, _ => rfl
  | a, k + 1, i + 1, h => by
    have := Mem.readBytes_getD m (a + 1) k i (by omega)
    rw [show a + (i + 1) = a + 1 + i by omega, ← this]; rfl

theorem Mem.readBytes_congr {m m' : Mem} : ∀ (a k : Nat), (∀ j, a ≤ j → j < a + k → m.read j = m'.read j) →
    m.readBytes a k = m'.readBytes a k
  | _, 0, _ => rfl
  | a, k + 1, h => by
    rw [Mem.readBytes, Mem.readBytes, h a (by omega) (by omega),
      Mem.readBytes_congr (a + 1) k fun j h1 h2 => h j (by omega) (by omega)]

theorem Mem.readBytes_add (m : Mem) : ∀ (a k l : Nat), m.readBytes a (k + l) = m.readBytes a k ++ m.readBytes (a + k) l
  | a, 0, l => by simp [Mem.readBytes]
  | a, k + 1, l => by
    rw [show k + 1 + l = (k + l) + 1 by omega, Mem.readBytes, Mem.readBytes_add m (a + 1) k l, Mem.readBytes,
      show a + 1 + k = a + (k + 1) by omega]
    rfl

/-- A block read of what a block write stored. -/
theorem Mem.readBytes_writeBytes {m : Mem} (h : Memory.wf m = true) (a : Nat) (bs : List Byte) :
    (m.writeBytes a bs).readBytes a bs.length = bs := by
  apply List.ext_getElem (by simp)
  intro i h1 h2
  have hr := Mem.readBytes_getD (m.writeBytes a bs) a bs.length i h2
  rw [Mem.read_writeBytes bs a _ h, if_pos (by omega), show a + i - a = i by omega] at hr
  simpa [List.getD_eq_getElem?_getD, h1, h2] using hr

@[simp] theorem Mem.slice_length (m : Mem) (b : Buf) (i j : Nat) : (m.slice b i j).length = j - i := by simp [Mem.slice]

theorem Mem.slice_getD (m : Mem) (b : Buf) (i j k : Nat) (h : k < j - i) : (m.slice b i j).getD k 0#8 = m.at b (i + k) := by
  rw [Mem.slice, Mem.readBytes_getD _ _ _ _ h, Mem.at, Buf.addr, Buf.addr, Nat.add_assoc]

theorem Mem.slice_congr {m m' : Mem} (b : Buf) (i j : Nat) (h : ∀ k, i ≤ k → k < j → m.at b k = m'.at b k) :
    m.slice b i j = m'.slice b i j := by
  apply Mem.readBytes_congr
  intro a h1 h2
  simp only [Buf.addr] at h1 h2
  have := h (a - b.base) (by omega) (by omega)
  simp only [Mem.at, Buf.addr] at this
  rwa [show b.base + (a - b.base) = a by omega] at this

theorem Mem.slice_cons (m : Mem) (b : Buf) {i j : Nat} (h : i < j) : m.slice b i j = m.at b i :: m.slice b (i + 1) j := by
  unfold Mem.slice
  obtain ⟨k, rfl⟩ : ∃ k, j = i + (k + 1) := ⟨j - i - 1, by omega⟩
  rw [show i + (k + 1) - i = k + 1 by omega, show i + (k + 1) - (i + 1) = k by omega]
  rfl

theorem Mem.slice_of_le (m : Mem) (b : Buf) {i j : Nat} (h : j ≤ i) : m.slice b i j = [] := by
  unfold Mem.slice
  rw [show j - i = 0 by omega]
  rfl

theorem Mem.slice_snoc (m : Mem) (b : Buf) (i : Nat) : m.slice b 0 (i + 1) = m.slice b 0 i ++ [m.at b i] := by
  unfold Mem.slice
  rw [Nat.sub_zero, Nat.sub_zero, Mem.readBytes_add]
  rfl

theorem Mem.slice_drop (m : Mem) (b : Buf) (i j k : Nat) : (m.slice b i j).drop k = m.slice b (i + k) j := by
  induction k generalizing i with
  | zero => rfl
  | succ k ih =>
    by_cases h : i < j
    · rw [Mem.slice_cons m b h, List.drop_succ_cons, ih, show i + 1 + k = i + (k + 1) by omega]
    · rw [Mem.slice_of_le m b (i := i) (by omega), Mem.slice_of_le m b (i := i + (k + 1)) (by omega)]
      rfl

/-- Bytes written behind the first bytes of a buffer extend them. -/
theorem Mem.slice_writeBytes {m : Mem} (h : Memory.wf m = true) (b : Buf) (op : Nat) (bs : List Byte) :
    (m.writeBytes (b.addr op) bs).slice b 0 (op + bs.length) = m.slice b 0 op ++ bs := by
  unfold Mem.slice
  rw [Nat.sub_zero, Nat.sub_zero, Mem.readBytes_add]
  congr 1
  · apply Mem.readBytes_congr
    intro j h1 h2
    rw [Mem.read_writeBytes _ _ _ h, if_neg]
    simp only [Buf.addr] at *
    omega
  · exact Mem.readBytes_writeBytes h _ _

/-! ### Forward copy -/

theorem Memory.wf_copyForward (k : Nat) : ∀ {m : Mem} (src dst : Nat), Memory.wf m = true →
    Memory.wf (m.copyForward src dst k) = true := by
  induction k with
  | zero => exact fun _ _ h => h
  | succ k ih => exact fun src dst h => ih (src + 1) (dst + 1) (Memory.wf_write dst _ h)

/-- Outside the destination nothing changes. -/
theorem Mem.read_copyForward_frame (k : Nat) : ∀ {m : Mem} (src dst j : Nat), Memory.wf m = true →
    ¬(dst ≤ j ∧ j < dst + k) → (m.copyForward src dst k).read j = m.read j := by
  induction k with
  | zero => intros; rfl
  | succ k ih =>
    intro m src dst j h hj
    rw [Mem.copyForward, ih _ _ _ (Memory.wf_write dst _ h) (by omega), Mem.read_write h, if_neg (by omega)]

/-- The copied bytes: the `d` bytes before the destination, cyclically (R207). -/
theorem Mem.read_copyForward (d k : Nat) (hd : 1 ≤ d) : ∀ {m : Mem} (src j : Nat), Memory.wf m = true → j < k →
    (m.copyForward src (src + d) k).read (src + d + j) = m.read (src + j % d) := by
  induction k with
  | zero => intro m src j _ hj; omega
  | succ k ih =>
    intro m src j h hj
    rw [Mem.copyForward, show src + d + 1 = src + 1 + d by omega]
    have hw := Memory.wf_write (src + d) (m.read src) h
    cases j with
    | zero =>
      rw [Mem.read_copyForward_frame k _ _ _ hw (by omega), Mem.read_write h, if_pos (by omega), Nat.zero_mod]
      rfl
    | succ j =>
      rw [show src + d + (j + 1) = src + 1 + d + j by omega, ih (src + 1) j hw (by omega), Mem.read_write h]
      have hlt := Nat.mod_lt j (show d > 0 by omega)
      by_cases hc : j % d + 1 = d
      · rw [if_pos (by omega), show (j + 1) % d = 0 by rw [Nat.add_mod]; by_cases h1 : d = 1
                                                       · subst h1; simp [Nat.mod_one]
                                                       · rw [Nat.mod_eq_of_lt (show 1 < d by omega), hc, Nat.mod_self]]
        rfl
      · rw [if_neg (by omega), show (j + 1) % d = j % d + 1 by
          rw [Nat.add_mod, Nat.mod_eq_of_lt (show 1 < d by omega), Nat.mod_eq_of_lt (by omega)]]
        congr 1; omega

/-! ### Free bytes -/

theorem Memory.wf_scramble (n k : Nat) : ∀ {m : Mem} (a : Nat), Memory.wf m = true → Memory.wf (m.scramble n a k) = true := by
  induction k with
  | zero => exact fun _ h => h
  | succ k ih => exact fun a h => ih (a + 1) (Memory.wf_write a _ h)

theorem Mem.read_scramble_frame (n k : Nat) : ∀ {m : Mem} (a j : Nat), Memory.wf m = true →
    ¬(a ≤ j ∧ j < a + k) → (m.scramble n a k).read j = m.read j := by
  induction k with
  | zero => intros; rfl
  | succ k ih =>
    intro m a j h hj
    rw [Mem.scramble, ih _ _ (Memory.wf_write a _ h) (by omega), Mem.read_write h, if_neg (by omega)]

theorem Memory.wf_scrambleBufs (n : Nat) : ∀ (bs : List Buf) {m : Mem}, Memory.wf m = true → Memory.wf (scrambleBufs m n bs) = true
  | [], _, h => h
  | b :: bs, _, h => Memory.wf_scrambleBufs n bs (Memory.wf_scramble n _ b.base h)

theorem read_scrambleBufs_frame (n : Nat) : ∀ (bs : List Buf) {m : Mem} (j : Nat), Memory.wf m = true →
    bs.any (·.holds j) = false → (scrambleBufs m n bs).read j = m.read j
  | [], _, _, _, _ => rfl
  | b :: bs, m, j, h, hj => by
    simp only [List.any_cons, Bool.or_eq_false_iff] at hj
    rw [scrambleBufs, read_scrambleBufs_frame n bs j (Memory.wf_scramble n _ b.base h) hj.2]
    exact Mem.read_scramble_frame n _ _ _ h (by simpa [Buf.holds] using hj.1)

/-! ### Buffers -/

theorem Buf.holds_iff (b : Buf) (a : Nat) : b.holds a = true ↔ b.base ≤ a ∧ a < b.base + b.len.toNat := by simp [Buf.holds]

theorem Buf.holds_false_iff (b : Buf) (a : Nat) : b.holds a = false ↔ ¬(b.base ≤ a ∧ a < b.base + b.len.toNat) := by
  simp only [Buf.holds, decide_eq_false_iff_not]

theorem Buf.meets_comm (b c : Buf) : b.meets c = c.meets b := by
  simp only [Buf.meets, rangesMeet, Nat.max_comm, Nat.min_comm]

/-- Buffers that do not meet share no address. -/
theorem Buf.holds_of_not_meets {b c : Buf} (h : b.meets c = false) {a : Nat} (ha : b.holds a = true) : c.holds a = false := by
  simp only [Buf.meets, rangesMeet, decide_eq_false_iff_not] at h
  rw [Buf.holds_iff] at ha
  rw [Buf.holds_false_iff]
  omega

/-- A launch is let through exactly when the buffers are backed, IN and OUT are apart, and no byte is shared with a running operation
where one of the two writes it. -/
theorem State.launchRefusal_none (s : State) (u : UnitId) (reads writes : List Buf) :
    s.launchRefusal u reads writes = none ↔
      (reads ++ writes).all (backedBy s.platform) = true ∧ reads.any (fun r => writes.any r.meets) = false ∧
      reads.any (fun r => s.outBufs.any r.meets) = false ∧ writes.any (fun w => s.ownedBufs.any w.meets) = false := by
  unfold State.launchRefusal
  generalize (reads ++ writes).all (backedBy s.platform) = backed
  generalize reads.any (fun r => writes.any r.meets) = overlap
  generalize reads.any (fun r => s.outBufs.any r.meets) = readsHit
  generalize writes.any (fun w => s.ownedBufs.any w.meets) = writesHit
  cases backed <;> cases overlap <;> cases readsHit <;> cases writesHit <;> simp

/-- A launch is never refused as not modelled: the refusals of a launch are the three of its own. -/
theorem State.launchRefusal_cases (s : State) (u : UnitId) (reads writes : List Buf) :
    s.launchRefusal u reads writes = none ∨ s.launchRefusal u reads writes = some (.launchUnbacked u) ∨
    s.launchRefusal u reads writes = some (.launchOverlap u) ∨ s.launchRefusal u reads writes = some (.launchConflict u) := by
  unfold State.launchRefusal
  split_ifs <;> simp

/-- What holds of no buffer owned by a running operation, unit by unit. -/
theorem State.ownedBufs_any {s : State} {f : Buf → Bool} (h : s.ownedBufs.any f = false) :
    (s.busy .adl → f s.adl.job = false) ∧ (s.busy .enc → f s.enc.jobIn = false ∧ f s.enc.jobOut = false) ∧
    (s.busy .dec → f s.dec.jobIn = false ∧ f s.dec.jobOut = false) := by
  unfold State.ownedBufs at h
  cases h1 : s.busy .adl <;> cases h2 : s.busy .enc <;> cases h3 : s.busy .dec <;> simp_all

theorem State.outBufs_any {s : State} {f : Buf → Bool} (h : s.outBufs.any f = false) :
    (s.busy .enc → f s.enc.jobOut = false) ∧ (s.busy .dec → f s.dec.jobOut = false) := by
  unfold State.outBufs at h
  cases h2 : s.busy .enc <;> cases h3 : s.busy .dec <;> simp_all

end Sys2Proof.Machine
end

