-- ==== Sys2Proof/Laws/Decode.lean ====
section
/-! SUPPORT. The fields of a token, one at a time: each part of the encoder is read back by its part of the decoder, and what a part of
the decoder reads is what its part of the encoder writes. -/

namespace Sys2Proof

/-! ### Operand ranges -/

@[simp] theorem runOk_iff (data : List Byte) : runOk data = true ↔ 1 ≤ data.length ∧ data.length ≤ 32 := decide_eq_true_iff
@[simp] theorem shortLenOk_iff (l : Nat) : shortLenOk l = true ↔ 3 ≤ l ∧ l ≤ 8 := decide_eq_true_iff
@[simp] theorem longLenOk_iff (l : Nat) : longLenOk l = true ↔ 9 ≤ l := decide_eq_true_iff
@[simp] theorem nearOk_iff (d : Nat) : nearOk d = true ↔ 1 ≤ d ∧ d ≤ 8191 := decide_eq_true_iff
@[simp] theorem farOk_iff (d : Nat) : farOk d = true ↔ 8191 < d ∧ d ≤ 73727 := decide_eq_true_iff

/-! ### Bytes of a number -/

@[simp] theorem loByte_toNat (v : Nat) : (loByte v).toNat = v % 256 := by simp [loByte]
@[simp] theorem hiByte_toNat (v : Nat) : (hiByte v).toNat = v / 256 % 256 := by simp [hiByte]
@[simp] theorem ctlByte_toNat (t l5 : Nat) : (ctlByte t l5).toNat = (t * 32 + l5) % 256 := by simp [ctlByte]

theorem byte_eq_of_toNat {a b : Byte} (h : a.toNat = b.toNat) : a = b := BitVec.eq_of_toNat_eq h

theorem ctlT_ctlByte {t l5 : Nat} (ht : t < 8) (hl : l5 < 32) : ctlT (ctlByte t l5) = t := by
  simp only [ctlT, ctlByte_toNat]; omega

theorem ctlL5_ctlByte {t l5 : Nat} (hl : l5 < 32) : ctlL5 (ctlByte t l5) = l5 := by
  simp only [ctlL5, ctlByte_toNat]; omega

theorem ctlByte_fields (c : Byte) : ctlByte (ctlT c) (ctlL5 c) = c := by
  apply byte_eq_of_toNat
  have := c.isLt
  simp only [ctlByte_toNat, ctlT, ctlL5]; omega

theorem ctlT_lt (c : Byte) : ctlT c < 8 := by have := c.isLt; simp only [ctlT]; omega
theorem ctlL5_lt (c : Byte) : ctlL5 c < 32 := by simp only [ctlL5]; omega

/-! ### The length extension (R101) -/

@[simp] theorem encodeExt_length (x : Nat) : (encodeExt x).length = x / 255 + 1 := by simp [encodeExt]

theorem encodeExt_small {x : Nat} (h : x < 255) : encodeExt x = [BitVec.ofNat 8 x] := by
  simp [encodeExt, Nat.div_eq_of_lt h, Nat.mod_eq_of_lt h]

theorem encodeExt_add (x : Nat) : encodeExt (255 + x) = 0xFF#8 :: encodeExt x := by
  simp only [encodeExt, show (255 + x) / 255 = x / 255 + 1 by omega, show (255 + x) % 255 = x % 255 by omega,
    List.replicate_succ, List.cons_append]

/-- The extension written for `x` is read back as `x`. -/
theorem readExt_encodeExt (x : Nat) (rest : List Byte) : readExt (encodeExt x ++ rest) = .ok (x, rest) := by
  induction x using Nat.strong_induction_on with
  | _ x ih =>
    by_cases h : x < 255
    · have hne : BitVec.ofNat 8 x ≠ 0xFF#8 := by
        intro he
        have := congrArg BitVec.toNat he
        simp at this; omega
      simp only [encodeExt_small h, List.cons_append, List.nil_append, readExt, if_neg hne, BitVec.toNat_ofNat]
      rw [Nat.mod_eq_of_lt (by omega)]
    · obtain ⟨y, rfl⟩ : ∃ y, x = 255 + y := ⟨x - 255, by omega⟩
      simp [encodeExt_add, readExt, ih y (by omega)]

/-- Bytes read as an extension of value `x` are the extension written for `x`. -/
theorem encodeExt_of_readExt : ∀ {bytes : List Byte} {x : Nat} {rest : List Byte}, readExt bytes = .ok (x, rest) →
    bytes = encodeExt x ++ rest
  | [], x, rest, h => by simp [readExt] at h
  | e :: bytes, x, rest, h => by
    simp only [readExt] at h
    split at h
    · rename_i he
      cases hr : readExt bytes with
      | error err => simp [hr] at h
      | ok p =>
        obtain ⟨y, r⟩ := p
        simp only [hr, Except.ok.injEq, Prod.mk.injEq] at h
        obtain ⟨rfl, rfl⟩ := h
        rw [encodeExt_add, encodeExt_of_readExt hr, he]; rfl
    · rename_i he
      simp only [Except.ok.injEq, Prod.mk.injEq] at h
      obtain ⟨rfl, rfl⟩ := h
      have hlt : e.toNat < 255 := by
        have h1 := e.isLt
        have h2 : e.toNat ≠ 255 := fun h => he (byte_eq_of_toNat h)
        omega
      rw [encodeExt_small hlt]
      simp

/-! ### The distance (R98, R99) -/

/-- The near form written for a near distance is read back. -/
theorem readDistance_near {d : Nat} (h1 : 1 ≤ d) (h2 : d ≤ 8191) (rest : List Byte) :
    readDistance ((d - 1) / 256) (loByte (d - 1) :: rest) = .ok (.near d, rest) := by
  have hne : ¬((d - 1) / 256 = 31 ∧ loByte (d - 1) = 0xFF#8) := by
    rintro ⟨ha, hb⟩
    have := congrArg BitVec.toNat hb
    simp at this; omega
  simp only [readDistance, if_neg hne, loByte_toNat, Except.ok.injEq, Prod.mk.injEq, Distance.near.injEq, and_true]
  omega

/-- The far form written for a far distance is read back. -/
theorem readDistance_far {d : Nat} (h1 : 8192 ≤ d) (h2 : d ≤ 73727) (rest : List Byte) :
    readDistance 31 (0xFF#8 :: hiByte (d - 8192) :: loByte (d - 8192) :: rest) = .ok (.far d, rest) := by
  simp only [readDistance, and_self, if_true, hiByte_toNat, loByte_toNat, Except.ok.injEq, Prod.mk.injEq,
    Distance.far.injEq, and_true]
  omega

/-- Bytes read as a near distance are the near form of it. -/
theorem near_of_readDistance {l5 d : Nat} {bytes rest : List Byte} (hl : l5 < 32)
    (h : readDistance l5 bytes = .ok (.near d, rest)) :
    1 ≤ d ∧ d ≤ 8191 ∧ l5 = (d - 1) / 256 ∧ bytes = loByte (d - 1) :: rest := by
  cases bytes with
  | nil => simp [readDistance] at h
  | cons d0 tail =>
    simp only [readDistance] at h
    split at h
    · split at h <;> simp at h
    · rename_i hne
      simp only [Except.ok.injEq, Prod.mk.injEq, Distance.near.injEq] at h
      obtain ⟨rfl, rfl⟩ := h
      have h0 := d0.isLt
      have : ¬(l5 = 31 ∧ d0.toNat = 255) := fun ⟨ha, hb⟩ => hne ⟨ha, byte_eq_of_toNat hb⟩
      refine ⟨by omega, by omega, by omega, ?_⟩
      congr 1
      apply byte_eq_of_toNat
      simp only [loByte_toNat]; omega

/-- Bytes read as a far distance are the far form of it. -/
theorem far_of_readDistance {l5 d : Nat} {bytes rest : List Byte}
    (h : readDistance l5 bytes = .ok (.far d, rest)) :
    8192 ≤ d ∧ d ≤ 73727 ∧ l5 = 31 ∧ bytes = 0xFF#8 :: hiByte (d - 8192) :: loByte (d - 8192) :: rest := by
  cases bytes with
  | nil => simp [readDistance] at h
  | cons d0 tail =>
    simp only [readDistance] at h
    split at h
    · rename_i hfar
      obtain ⟨rfl, rfl⟩ := hfar
      split at h
      · rename_i fh fl rest'
        simp only [Except.ok.injEq, Prod.mk.injEq, Distance.far.injEq] at h
        obtain ⟨rfl, rfl⟩ := h
        have h1 := fh.isLt
        have h2 := fl.isLt
        have hfh : hiByte (fh.toNat * 256 + fl.toNat) = fh := by
          apply byte_eq_of_toNat; simp only [hiByte_toNat]; omega
        have hfl : loByte (fh.toNat * 256 + fl.toNat) = fl := by
          apply byte_eq_of_toNat; simp only [loByte_toNat]; omega
        exact ⟨by omega, by omega, rfl, by rw [Nat.add_sub_cancel_left, hfh, hfl]⟩
      · simp at h
    · simp at h

/-! ### The whole token, by the form of its control byte -/

theorem decodeToken_lit {data : List Byte} (h1 : 1 ≤ data.length) (h2 : data.length ≤ 32) (rest : List Byte) :
    decodeToken (ctlByte 0 (data.length - 1) :: (data ++ rest)) = .ok (.lit data, rest) := by
  have e1 : ctlT (ctlByte 0 (data.length - 1)) = 0 := ctlT_ctlByte (by omega) (by omega)
  have e2 : ctlL5 (ctlByte 0 (data.length - 1)) + 1 = data.length := by
    rw [ctlL5_ctlByte (by omega)]; omega
  simp [decodeToken, e1, e2]

theorem decodeToken_short {t l5 : Nat} (h1 : 1 ≤ t) (h6 : t ≤ 6) (hl : l5 < 32) (tail : List Byte) :
    decodeToken (ctlByte t l5 :: tail) =
      match readDistance l5 tail with
      | .ok (.near d, rest) => .ok (.matchSn d (t + 2), rest)
      | .ok (.far d, rest) => .ok (.matchSf d (t + 2), rest)
      | .error err => .error err := by
  simp only [decodeToken, ctlT_ctlByte (show t < 8 by omega) hl, ctlL5_ctlByte hl, if_neg (show t ≠ 0 by omega), if_pos h6] <;>
    rfl

theorem decodeToken_long {l5 : Nat} (hl : l5 < 32) (tail : List Byte) :
    decodeToken (ctlByte 7 l5 :: tail) =
      match readExt tail with
      | .ok (x, after) =>
        match readDistance l5 after with
        | .ok (.near d, rest) => .ok (.matchLn d (9 + x), rest)
        | .ok (.far d, rest) => .ok (.matchLf d (9 + x), rest)
        | .error err => .error err
      | .error err => .error err := by
  simp only [decodeToken, ctlT_ctlByte (show 7 < 8 by omega) hl, ctlL5_ctlByte hl] <;>
    rfl

/-! ### The whole token: what can be decoded -/

/-- Every case of a decoded token: its format, its operands and the bytes it is made of (R92 to R103). -/
theorem decodeToken_cases {bytes rest : List Byte} {i : Instr} (h : decodeToken bytes = .ok (i, rest)) :
    (∃ data, i = .lit data ∧ 1 ≤ data.length ∧ data.length ≤ 32 ∧ bytes = ctlByte 0 (data.length - 1) :: (data ++ rest)) ∨
    (∃ d l, i = .matchSn d l ∧ 1 ≤ d ∧ d ≤ 8191 ∧ 3 ≤ l ∧ l ≤ 8 ∧
      bytes = ctlByte (l - 2) ((d - 1) / 256) :: loByte (d - 1) :: rest) ∨
    (∃ d l, i = .matchSf d l ∧ 8192 ≤ d ∧ d ≤ 73727 ∧ 3 ≤ l ∧ l ≤ 8 ∧
      bytes = ctlByte (l - 2) 31 :: 0xFF#8 :: hiByte (d - 8192) :: loByte (d - 8192) :: rest) ∨
    (∃ d l, i = .matchLn d l ∧ 1 ≤ d ∧ d ≤ 8191 ∧ 9 ≤ l ∧
      bytes = ctlByte 7 ((d - 1) / 256) :: (encodeExt (l - 9) ++ (loByte (d - 1) :: rest))) ∨
    (∃ d l, i = .matchLf d l ∧ 8192 ≤ d ∧ d ≤ 73727 ∧ 9 ≤ l ∧
      bytes = ctlByte 7 31 :: (encodeExt (l - 9) ++ (0xFF#8 :: hiByte (d - 8192) :: loByte (d - 8192) :: rest))) := by
  cases bytes with
  | nil => simp [decodeToken] at h
  | cons c tail =>
    have hT := ctlT_lt c
    have hL := ctlL5_lt c
    have hc := ctlByte_fields c
    simp only [decodeToken] at h
    split at h
    · rename_i h0
      split at h
      · simp at h
      · rename_i hlen
        simp only [Except.ok.injEq, Prod.mk.injEq] at h
        obtain ⟨rfl, rfl⟩ := h
        simp only [List.length_take] at hlen
        have hl : (tail.take (ctlL5 c + 1)).length = ctlL5 c + 1 := by simp only [List.length_take]; omega
        refine .inl ⟨_, rfl, by omega, by omega, ?_⟩
        rw [hl, List.take_append_drop, Nat.add_sub_cancel, ← h0, hc]
    · split at h
      · rename_i h0 h6
        cases hd : readDistance (ctlL5 c) tail with
        | error err => simp [hd] at h
        | ok p =>
          obtain ⟨dd, r⟩ := p
          cases dd with
          | near d =>
            simp only [hd, Except.ok.injEq, Prod.mk.injEq] at h
            obtain ⟨rfl, rfl⟩ := h
            obtain ⟨a, b, e, f⟩ := near_of_readDistance hL hd
            exact .inr (.inl ⟨d, _, rfl, a, b, by omega, by omega, by rw [Nat.add_sub_cancel, ← e, hc, f]⟩)
          | far d =>
            simp only [hd, Except.ok.injEq, Prod.mk.injEq] at h
            obtain ⟨rfl, rfl⟩ := h
            obtain ⟨a, b, e, f⟩ := far_of_readDistance hd
            exact .inr (.inr (.inl ⟨d, _, rfl, a, b, by omega, by omega, by rw [Nat.add_sub_cancel, ← e, hc, f]⟩))
      · rename_i h0 h6
        have h7 : ctlT c = 7 := by omega
        rw [h7] at hc
        cases hx : readExt tail with
        | error err => simp [hx] at h
        | ok q =>
          obtain ⟨x, r1⟩ := q
          have hxe := encodeExt_of_readExt hx
          cases hd : readDistance (ctlL5 c) r1 with
          | error err => simp [hx, hd] at h
          | ok p =>
            obtain ⟨dd, r⟩ := p
            cases dd with
            | near d =>
              simp only [hx, hd, Except.ok.injEq, Prod.mk.injEq] at h
              obtain ⟨rfl, rfl⟩ := h
              obtain ⟨a, b, e, f⟩ := near_of_readDistance hL hd
              exact .inr (.inr (.inr (.inl ⟨d, _, rfl, a, b, by omega, by
                rw [← e, hc, hxe, f, Nat.add_sub_cancel_left]⟩)))
            | far d =>
              simp only [hx, hd, Except.ok.injEq, Prod.mk.injEq] at h
              obtain ⟨rfl, rfl⟩ := h
              obtain ⟨a, b, e, f⟩ := far_of_readDistance hd
              exact .inr (.inr (.inr (.inr ⟨d, _, rfl, a, b, by omega, by
                rw [← e, hc, hxe, f, Nat.add_sub_cancel_left]⟩)))

/-- The assembler's choice with the numbers of R111 in place. -/
theorem assembleMatch_eq (d l : Nat) : assembleMatch d l =
    if d < 1 ∨ 73727 < d ∨ l < 3 then none
    else if d ≤ 8191 then some (if l ≤ 8 then .matchSn d l else .matchLn d l)
    else some (if l ≤ 8 then .matchSf d l else .matchLf d l) := rfl

/-- A decoded token is a token, never a host command. -/
theorem isToken_of_decodeToken {bytes rest : List Byte} {i : Instr} (h : decodeToken bytes = .ok (i, rest)) :
    i.isToken = true := by
  obtain ⟨_, rfl, _⟩ | ⟨_, _, rfl, _⟩ | ⟨_, _, rfl, _⟩ | ⟨_, _, rfl, _⟩ | ⟨_, _, rfl, _⟩ := decodeToken_cases h <;> rfl

/-- The register access a decoded command stands for. -/
theorem decodeAccess_cases {a : Access} {i : Instr} (h : decodeAccess a = some i) :
    (a = .write .adl .cmd 1 ∧ i = .adlUpdate) ∨ (a = .write .adl .cmd 2 ∧ i = .adlInit) ∨
    (a = .write .enc .cmd 1 ∧ i = .encCompress) ∨ (a = .write .dec .cmd 1 ∧ i = .decDecompress) ∨
    (∃ v, a = .write .adl .reg8 v ∧ i = .adlLoad (BitVec.ofNat 32 v)) ∨ (a = .read .adl .reg8 ∧ i = .adlRead) := by
  cases a with
  | read u r => cases u <;> cases r <;> simp_all [decodeAccess]
  | write u r v =>
    cases u <;> cases r <;> simp only [decodeAccess] at h <;> (try split_ifs at h) <;> simp_all

end Sys2Proof
end

