-- ==== Sys2Proof/Laws/BigStep.lean ====
section
/-! SUPPORT. Byte strings: spans of the input, the copy of a back-reference on the output so far, token streams in a row, and the numbers
in the rules of ENC. -/

namespace Sys2Proof.Machine

theorem minLen_eq (d : Nat) : minLen d = if d ≤ 8191 then 3 else 5 := rfl

theorem maxDist_le (level : Nat) : Config.maxDist level ≤ 73727 := by unfold Config.maxDist; split <;> omega

theorem matchLim_le (level n p : Nat) : matchLim level n p ≤ n - p := by
  unfold matchLim
  split
  · exact Nat.min_le_left _ _
  · exact Nat.le_refl _

theorem emitExt_eq (x : Nat) : emitExt x = encodeExt x := rfl

/-- `EMIT_MATCH` with the numbers of R169 in place. -/
theorem emitMatch_eq (d l : Nat) : emitMatch d l =
    if d ≤ 8191 then
      BitVec.ofNat 8 ((if l ≤ 8 then l - 2 else 7) * 32 + (d - 1) / 256) ::
        ((if (if l ≤ 8 then l - 2 else 7) = 7 then emitExt (l - 9) else []) ++ [BitVec.ofNat 8 ((d - 1) % 256)])
    else
      BitVec.ofNat 8 ((if l ≤ 8 then l - 2 else 7) * 32 + 31) ::
        ((if (if l ≤ 8 then l - 2 else 7) = 7 then emitExt (l - 9) else []) ++
          [0xFF#8, BitVec.ofNat 8 ((d - 8192) / 256), BitVec.ofNat 8 ((d - 8192) % 256)]) := rfl

theorem ofNat_mod_eq_loByte (v : Nat) : BitVec.ofNat 8 (v % 256) = loByte v := by
  apply BitVec.eq_of_toNat_eq; simp

/-- The required capacity covers the output bound of R175. -/
theorem bound_le_reqCap (n : Nat) : n + (n + 31) / 32 ≤ reqCap n := by
  have : n + (n + 19) / 20 ≤ reqCap n := Nat.le_max_right _ _
  omega

/-- The checks of R151 pass exactly on a legal level, at least 16 bytes and the required capacity. -/
theorem encPrecheck_none (level n cap : Nat) :
    encPrecheck level n cap = none ↔ (level = 1 ∨ level = 2) ∧ 16 ≤ n ∧ reqCap n ≤ cap := by
  unfold encPrecheck Config.minInput
  split_ifs <;> simp <;> omega

theorem sliceOf_length (x : List Byte) {a b : Nat} (h : b ≤ x.length) : (sliceOf x a b).length = b - a := by
  simp [sliceOf]; omega

theorem take_append_sliceOf (x : List Byte) {a b : Nat} (h : a ≤ b) : x.take a ++ sliceOf x a b = x.take b := by
  unfold sliceOf
  rw [← List.drop_take]
  have := List.take_append_drop a (x.take b)
  rw [List.take_take, Nat.min_eq_left h] at this
  exact this

@[simp] theorem copyList_length (d k : Nat) : ∀ out, (copyList out d k).length = out.length + k := by
  induction k with
  | zero => intro out; rfl
  | succ k ih => intro out; simp only [copyList, ih, List.length_append, List.length_singleton]; omega

/-- Copying what agrees with the input extends a head of the input to a longer one (R216). -/
theorem copyList_take (x : List Byte) (d l : Nat) (hd : 1 ≤ d) : ∀ p, d ≤ p → p + l ≤ x.length →
    (∀ i, i < l → byteAt x (p - d + i) = byteAt x (p + i)) → copyList (x.take p) d l = x.take (p + l) := by
  induction l with
  | zero => intros; rfl
  | succ l ih =>
    intro p hp hl he
    have h0 := he 0 (by omega)
    simp only [Nat.add_zero, byteAt] at h0
    have hstep : x.take p ++ [(x.take p).getD ((x.take p).length - d) 0#8] = x.take (p + 1) := by
      have hlen : (x.take p).length = p := by simp; omega
      have hval : (x.take p).getD (p - d) 0#8 = x.getD p 0#8 := by
        rw [← h0]; simp [List.getD_eq_getElem?_getD, show p - d < p by omega]
      rw [hlen, hval, List.take_add_one]
      congr 1
      simp [List.getD_eq_getElem?_getD, List.getElem?_eq_getElem (show p < x.length by omega)]
    rw [copyList, hstep, ih (p + 1) (by omega) (by omega)]
    · congr 1; omega
    · intro i hi
      have := he (i + 1) (by omega)
      rw [show p + 1 - d + i = p - d + (i + 1) by omega, this]; congr 1; omega

/-- `COPY` in memory is `COPY` on the output so far (R207). -/
theorem Mem.slice_copyForward (b : Buf) {d : Nat} (hd : 1 ≤ d) : ∀ (l : Nat) (m : Mem) (op : Nat), Memory.wf m = true → d ≤ op →
    (m.copyForward (b.addr (op - d)) (b.addr op) l).slice b 0 (op + l) = copyList (m.slice b 0 op) d l := by
  intro l
  induction l with
  | zero => intros; rfl
  | succ l ih =>
    intro m op hw hop
    rw [Mem.copyForward, copyList]
    have := ih (m.write (b.addr op) (m.read (b.addr (op - d)))) (op + 1) (Memory.wf_write _ _ hw) (by omega)
    have e1 : b.addr (op + 1 - d) = b.addr (op - d) + 1 := by simp only [Buf.addr]; omega
    have e2 : b.addr (op + 1) = b.addr op + 1 := by simp only [Buf.addr]; omega
    rw [e1, e2] at this
    rw [show op + (l + 1) = op + 1 + l by omega, this, Mem.slice_snoc]
    congr 2
    · apply Mem.slice_congr
      intro k _ hk
      simp only [Mem.at]
      rw [Mem.read_write hw, if_neg]
      simp only [Buf.addr]
      omega
    · simp only [Mem.at, Mem.read_write hw, if_true, List.cons.injEq, and_true]
      rw [Mem.slice_length, Nat.sub_zero, Mem.slice_getD _ _ _ _ _ (by omega), Nat.zero_add]
      rfl

/-- A span of a buffer is the same span of the bytes of the whole buffer. -/
theorem Mem.slice_eq_sliceOf (m : Mem) (b : Buf) {n i j : Nat} (hj : j ≤ n) : m.slice b i j = sliceOf (m.slice b 0 n) i j := by
  unfold sliceOf
  rw [Mem.slice_drop, Nat.zero_add]
  unfold Mem.slice
  by_cases h : i ≤ j
  · rw [show n - i = (j - i) + (n - j) by omega, Mem.readBytes_add, List.take_left' (by simp)]
  · rw [show j - i = 0 by omega]
    rfl

/-- The 32-bit view of two lanes as a number (R22). -/
theorem lanes_toNat (hi lo : Lane) : (hi ++ lo).toNat = hi.toNat * 65536 + lo.toNat := by
  have := lo.isLt
  rw [BitVec.toNat_append, ← Nat.shiftLeft_add_eq_or_of_lt this, Nat.shiftLeft_eq]

@[simp] theorem lanesOf_packLanes (lanes : Lane × Lane) : lanesOf (packLanes lanes) = lanes := by
  obtain ⟨l1, l2⟩ := lanes
  have := l1.isLt
  have := l2.isLt
  simp only [lanesOf, packLanes, Prod.mk.injEq]
  constructor <;>
    (apply BitVec.eq_of_toNat_eq
     simp only [BitVec.extractLsb', BitVec.toNat_ofNat, lanes_toNat, Nat.shiftRight_eq_div_pow]
     omega)

@[simp] theorem packLanes_lanesOf (r : Word) : packLanes (lanesOf r) = r := by
  apply BitVec.eq_of_toNat_eq
  have := r.isLt
  simp only [packLanes, lanesOf, lanes_toNat, BitVec.extractLsb', BitVec.toNat_ofNat, Nat.shiftRight_eq_div_pow]
  omega

theorem runTokens_append (cap : Nat) (out : List Byte) (a b : List Instr) :
    runTokens cap out (a ++ b) =
      match runTokens cap out a with
      | .ok out' => runTokens cap out' b
      | .error e => .error e := by
  induction a generalizing out with
  | nil => rfl
  | cons i is ih =>
    simp only [List.cons_append, runTokens]
    cases expandToken cap out i with
    | error e => rfl
    | ok out' => exact ih out'

end Sys2Proof.Machine
end

