-- ==== Sys2Proof/Laws/PerInstr.lean ====
section
/-! SUPPORT. Statements made one instruction at a time. Family CodeLength: the bytes of an instruction's code are as many as R104 says, at
least two for a token and none for a host command. -/

namespace Sys2Proof.Laws

/-- The length of an instruction's code in stream bytes (R104). -/
def CodeLength.Statement (i : Instr) : Prop :=
  i.wf = true → (encodeToken i).length = i.tlen ∧ (i.isToken = true → 2 ≤ i.tlen) ∧ (i.isToken = false → i.tlen = 0)

theorem CodeLength.lit (data : List Byte) : CodeLength.Statement (.lit data) := by
  intro h
  simp only [Instr.wf, runOk_iff] at h
  refine ⟨?_, fun _ => ?_, fun h => by cases h⟩
  · simp only [encodeToken, List.length_cons, Instr.tlen]; omega
  · simp only [Instr.tlen]; omega

theorem CodeLength.matchSn (dist len : Nat) : CodeLength.Statement (.matchSn dist len) :=
  fun _ => ⟨rfl, fun _ => Nat.le_refl 2, fun h => by cases h⟩

theorem CodeLength.matchSf (dist len : Nat) : CodeLength.Statement (.matchSf dist len) :=
  fun _ => ⟨rfl, fun _ => by simp only [Instr.tlen]; omega, fun h => by cases h⟩

theorem CodeLength.matchLn (dist len : Nat) : CodeLength.Statement (.matchLn dist len) := by
  refine fun _ => ⟨?_, fun _ => by simp only [Instr.tlen]; omega, fun h => by cases h⟩
  simp only [encodeToken, List.length_cons, List.length_append, encodeExt_length, List.length_nil, Instr.tlen, extBytes]
  omega

theorem CodeLength.matchLf (dist len : Nat) : CodeLength.Statement (.matchLf dist len) := by
  refine fun _ => ⟨?_, fun _ => by simp only [Instr.tlen]; omega, fun h => by cases h⟩
  simp only [encodeToken, List.length_cons, List.length_append, encodeExt_length, List.length_nil, Instr.tlen, extBytes]
  omega

theorem CodeLength.adlInit : CodeLength.Statement .adlInit := fun _ => ⟨rfl, (fun h => by cases h), fun _ => rfl⟩

theorem CodeLength.adlUpdate : CodeLength.Statement .adlUpdate := fun _ => ⟨rfl, (fun h => by cases h), fun _ => rfl⟩

theorem CodeLength.adlLoad (v : Word) : CodeLength.Statement (.adlLoad v) := fun _ => ⟨rfl, (fun h => by cases h), fun _ => rfl⟩

theorem CodeLength.adlRead : CodeLength.Statement .adlRead := fun _ => ⟨rfl, (fun h => by cases h), fun _ => rfl⟩

theorem CodeLength.encCompress : CodeLength.Statement .encCompress := fun _ => ⟨rfl, (fun h => by cases h), fun _ => rfl⟩

theorem CodeLength.decDecompress : CodeLength.Statement .decDecompress := fun _ => ⟨rfl, (fun h => by cases h), fun _ => rfl⟩

end Sys2Proof.Laws
end

