-- ==== Sys2Proof/Laws/Step.lean ====
section
/-! SUPPORT. What each instruction, unit turn and host action can do, said once: the outcomes of every meaning, the frames of the units'
turns, and the inversion of a step. -/

namespace Sys2Proof.Machine

/-! ### PUT -/

/-- Bytes put within the capacity: they are stored from the output cursor on, and the cursor moves past them. -/
theorem encPutAll_ok (bs : List Byte) : ∀ (s : State), s.enc.op.toNat + bs.length ≤ s.enc.jobOut.len.toNat →
    encPutAll s bs = .ok ((s.setMem (s.mem.writeBytes (s.enc.jobOut.addr s.enc.op.toNat) bs)).setEnc
      { s.enc with op := BitVec.ofNat 32 (s.enc.op.toNat + bs.length) }) := by
  induction bs with
  | nil =>
    intro s _
    have : BitVec.ofNat 32 s.enc.op.toNat = s.enc.op := by simp
    simp only [encPutAll, List.length_nil, Nat.add_zero, this]
    rfl
  | cons b bs ih =>
    intro s h
    simp only [List.length_cons] at h
    have hlt : s.enc.op.toNat + 1 < 2 ^ 32 := by have := s.enc.jobOut.len.isLt; omega
    have hop : (BitVec.ofNat 32 (s.enc.op.toNat + 1)).toNat = s.enc.op.toNat + 1 := by
      rw [BitVec.toNat_ofNat, Nat.mod_eq_of_lt hlt]
    have hput : encPut s b = .ok ((s.setMem (s.mem.write (s.enc.jobOut.addr s.enc.op.toNat) b)).setEnc
        { s.enc with op := BitVec.ofNat 32 (s.enc.op.toNat + 1) }) := by
      rw [encPut, if_neg (by omega)]
    rw [encPutAll, hput]
    simp only
    rw [ih _ (by simp only [State.setEnc_enc, hop]; omega)]
    simp only [State.setEnc_enc, State.setEnc_mem, State.setMem_mem, hop, Mem.writeBytes, Buf.addr, List.length_cons,
      Nat.add_assoc, Nat.add_comm 1]
    rfl

/-- Whatever happens while bytes are put, only ENC's output cursor and status registers and bytes of its output buffer change. -/
theorem encPutAll_frame (bs : List Byte) : ∀ (s r : State), (encPutAll s bs = .ok r ∨ encPutAll s bs = .error r) →
    r = (s.setMem r.mem).setEnc { s.enc with op := r.enc.op, outLen := r.enc.outLen, err := r.enc.err, status := r.enc.status } ∧
    (Memory.wf s.mem = true → Memory.wf r.mem = true ∧ ∀ a, s.enc.jobOut.holds a = false → r.mem.read a = s.mem.read a) := by
  induction bs with
  | nil =>
    intro s r h
    simp only [encPutAll, Except.ok.injEq, reduceCtorEq, or_false] at h
    subst h
    exact ⟨rfl, fun h => ⟨h, fun _ _ => rfl⟩⟩
  | cons b bs ih =>
    intro s r h
    simp only [encPutAll] at h
    unfold encPut at h
    split at h
    · rename_i s' hs'
      split at hs'
      · simp at hs'
      · rename_i hlt
        simp only [Except.ok.injEq] at hs'
        subst hs'
        obtain ⟨h1, h2⟩ := ih _ r h
        refine ⟨?_, fun hw => ?_⟩
        · rw [h1]; rfl
        · have hw' := Memory.wf_write (s.enc.jobOut.addr s.enc.op.toNat) b hw
          obtain ⟨h3, h4⟩ := h2 hw'
          refine ⟨h3, fun a ha => ?_⟩
          rw [h4 a ha]
          simp only [State.setEnc_mem, State.setMem_mem]
          rw [Mem.read_write hw, if_neg]
          rintro rfl
          rw [Buf.holds_false_iff] at ha
          simp only [Buf.addr] at ha
          omega
    · rename_i s' hs'
      split at hs'
      · simp only [Except.error.injEq] at hs'
        subst hs'
        simp only [reduceCtorEq, Except.error.injEq, false_or] at h
        subst h
        exact ⟨rfl, fun h => ⟨h, fun _ _ => rfl⟩⟩
      · simp at hs'

/-! ### The turns of ADL and ENC -/

/-- The end of an UPDATE touches neither the operands nor their latched copy. -/
theorem AdlUnit.settle_frame (u : AdlUnit) : u.settle.input = u.input ∧ u.settle.job = u.job := by
  unfold AdlUnit.settle; split <;> exact ⟨rfl, rfl⟩

/-- The end of a stream touches neither the operands nor their latched copies. -/
theorem DecUnit.settle_frame (u : DecUnit) : u.settle.input = u.input ∧ u.settle.output = u.output ∧
    u.settle.jobIn = u.jobIn ∧ u.settle.jobOut = u.jobOut := by
  unfold DecUnit.settle; split <;> exact ⟨rfl, rfl, rfl, rfl⟩

/-- The end of an UPDATE (R134). -/
theorem AdlUnit.settle_cases (u : AdlUnit) : (u.job.len.toNat ≤ u.idx.toNat ∧ u.settle = u.finish) ∨
    (u.idx.toNat < u.job.len.toNat ∧ u.settle = u) := by
  unfold AdlUnit.settle
  split
  · exact .inl ⟨‹_›, rfl⟩
  · exact .inr ⟨by omega, rfl⟩

/-- ADL's turn changes ADL alone, and in it neither the operands nor their latched copy. -/
theorem adlTurn_frame (s : State) : adlTurn s = s.setAdl (adlTurn s).adl ∧ (adlTurn s).adl.input = s.adl.input ∧
    (adlTurn s).adl.job = s.adl.job := by
  unfold adlTurn
  split
  · split
    · exact ⟨rfl, (AdlUnit.settle_frame _).1, (AdlUnit.settle_frame _).2⟩
    · exact ⟨rfl, (AdlUnit.settle_frame _).1, (AdlUnit.settle_frame _).2⟩
  · exact ⟨rfl, rfl, rfl⟩

/-! ### The candidate table -/

theorem htSet_wf (h w q : Nat) {ht : Cells 32} (hw : ht.wf = true) : (htSet ht h w q).wf = true := Cells.wf_write _ _ hw

/-- Read after write in the table. -/
theorem htAt_htSet {ht : Cells 32} (hw : ht.wf = true) (h h' q : Nat) {w w' : Nat} (hlt : w < 4) (hlt' : w' < 4) :
    htAt (htSet ht h w q) h' w' = if h' = h ∧ w' = w then q % 2 ^ 32 else htAt ht h' w' := by
  simp only [htAt, htSet, Cells.read_write hw, wayKey, Config.waySlots]
  by_cases e : h' = h ∧ w' = w
  · rw [if_pos e, if_pos (by obtain ⟨rfl, rfl⟩ := e; rfl)]
    simp
  · rw [if_neg e, if_neg]
    intro e'
    apply e
    omega

/-- The shift of R163: way `w` of the bucket holds what way `w - 1` held, for w from 1 to the given one. -/
theorem htAt_shiftWays (h h' : Nat) : ∀ (n : Nat) {ht : Cells 32}, ht.wf = true → n < 4 → ∀ {w : Nat}, w < 4 →
    htAt (shiftWays ht h n) h' w = if h' = h ∧ 1 ≤ w ∧ w ≤ n then htAt ht h (w - 1) else htAt ht h' w
  | 0, _, _, _, _, _ => by rw [if_neg (by omega)]; rfl
  | n + 1, ht, hw, hn, w, hlt => by
    rw [shiftWays, htAt_shiftWays h h' n (htSet_wf _ _ _ hw) (by omega) hlt, htAt_htSet hw _ _ _ hn hlt,
      htAt_htSet hw _ _ _ hn (by omega)]
    have l : htAt ht h n < 2 ^ 32 := BitVec.isLt _
    split_ifs <;> first | omega | rfl | skip
    have : w - 1 = n := by omega
    rw [this]
    omega

theorem shiftWays_wf (h : Nat) : ∀ (w : Nat) {ht : Cells 32}, ht.wf = true → (shiftWays ht h w).wf = true
  | 0, _, hw => hw
  | w + 1, _, hw => shiftWays_wf h w (Cells.wf_write _ _ hw)

theorem htInsert_wf (level h q : Nat) {ht : Cells 32} (hw : ht.wf = true) : (htInsert level ht h q).wf = true :=
  Cells.wf_write _ _ (shiftWays_wf h _ hw)

/-- In-match insertion enters, ascending, exactly the positions of the range with three bytes left (R166). -/
theorem insertCovered_eq_foldl (rd : Nat → Byte) (level n : Nat) : ∀ (k q : Nat) (ht : Cells 32),
    insertCovered rd level n ht q k = ((List.range' q k).filter (fun q => q + 3 ≤ n)).foldl
      (fun t q => htInsert level t (hashAt rd q) q) ht
  | 0, _, _ => rfl
  | k + 1, q, ht => by
    rw [insertCovered, insertCovered_eq_foldl rd level n k, List.range'_succ]
    by_cases h : q + 3 ≤ n <;> simp [h]

theorem insertCovered_wf (rd : Nat → Byte) (level n : Nat) : ∀ (k q : Nat) {ht : Cells 32}, ht.wf = true →
    (insertCovered rd level n ht q k).wf = true
  | 0, _, _, hw => hw
  | k + 1, q, ht, hw => by
    rw [insertCovered]
    apply insertCovered_wf
    split
    · exact htInsert_wf _ _ _ hw
    · exact hw

/-- ENC's turn changes ENC and bytes of its output buffer alone, and keeps both canonical forms. -/
theorem encTurn_frame (s : State) :
    encTurn s = (s.setMem (encTurn s).mem).setEnc (encTurn s).enc ∧
    (encTurn s).enc.input = s.enc.input ∧ (encTurn s).enc.output = s.enc.output ∧ (encTurn s).enc.level = s.enc.level ∧
    (encTurn s).enc.jobIn = s.enc.jobIn ∧ (encTurn s).enc.jobOut = s.enc.jobOut ∧ (encTurn s).enc.jobLevel = s.enc.jobLevel ∧
    (s.enc.ht.wf = true → (encTurn s).enc.ht.wf = true) ∧
    (Memory.wf s.mem = true → Memory.wf (encTurn s).mem = true ∧
      ∀ a, s.enc.jobOut.holds a = false → (encTurn s).mem.read a = s.mem.read a) := by
  unfold encTurn
  split
  · split
    · unfold encPosition
      simp only
      split
      · exact ⟨rfl, rfl, rfl, rfl, rfl, rfl, rfl, fun h => htInsert_wf _ _ _ h, fun h => ⟨h, fun _ _ => rfl⟩⟩
      · split
        · rename_i r hr
          obtain ⟨h1, h2⟩ := encPutAll_frame _ _ r (.inr hr)
          refine ⟨?_, ?_, ?_, ?_, ?_, ?_, ?_, ?_, h2⟩
          · rw [h1]; rfl
          all_goals try rw [h1]
          all_goals try rfl
          exact fun h => htInsert_wf _ _ _ h
        · rename_i r hr
          obtain ⟨h1, h2⟩ := encPutAll_frame _ _ r (.inl hr)
          refine ⟨?_, ?_, ?_, ?_, ?_, ?_, ?_, ?_, h2⟩
          · rw [h1]; rfl
          all_goals simp only [State.setEnc_enc]
          all_goals try rw [h1]
          all_goals try rfl
          intro h
          split
          · exact insertCovered_wf _ _ _ _ _ (htInsert_wf _ _ _ h)
          · exact htInsert_wf _ _ _ h
    · unfold encFlush
      split
      · rename_i r hr
        obtain ⟨h1, h2⟩ := encPutAll_frame _ _ r (.inr hr)
        refine ⟨?_, ?_, ?_, ?_, ?_, ?_, ?_, ?_, h2⟩
        · rw [h1]; rfl
        all_goals try rw [h1]
        all_goals first | rfl | exact fun h => h
      · rename_i r hr
        obtain ⟨h1, h2⟩ := encPutAll_frame _ _ r (.inl hr)
        refine ⟨?_, ?_, ?_, ?_, ?_, ?_, ?_, ?_, h2⟩
        · rw [h1]; rfl
        all_goals simp only [State.setEnc_enc, EncUnit.finish]
        all_goals try rw [h1]
        all_goals first | rfl | exact fun h => h
  · exact ⟨rfl, rfl, rfl, rfl, rfl, rfl, rfl, fun h => h, fun h => ⟨h, fun _ _ => rfl⟩⟩

/-! ### Tokens -/

/-- What a token can do: nothing outside a running decompression, the fault `Corrupt` with nothing written, or its output and the moved
cursors. -/
theorem decLiteral_cases (tlen : Nat) (data : List Byte) (s : State) :
    (s.busy .dec = false ∧ decLiteral tlen data s = s) ∨
    (s.busy .dec = true ∧
      (s.dec.jobIn.len.toNat < s.dec.ip.toNat + tlen ∨ s.dec.jobOut.len.toNat < s.dec.op.toNat + data.length) ∧
      decLiteral tlen data s = s.raise .dec .corrupt) ∨
    (s.busy .dec = true ∧ s.dec.ip.toNat + tlen ≤ s.dec.jobIn.len.toNat ∧
      s.dec.op.toNat + data.length ≤ s.dec.jobOut.len.toNat ∧
      decLiteral tlen data s =
        s.decRetire (s.mem.writeBytes (s.dec.jobOut.addr s.dec.op.toNat) data) tlen data.length) := by
  unfold decLiteral
  cases hb : s.busy .dec
  · simp
  · simp only [if_true]
    split
    · right; left; simp_all
    · split
      · right; left; simp_all
      · right; right; refine ⟨trivial, by omega, by omega, rfl⟩

theorem decMatch_cases (tlen dist len : Nat) (s : State) :
    (s.busy .dec = false ∧ decMatch tlen dist len s = s) ∨
    (s.busy .dec = true ∧
      (s.dec.jobIn.len.toNat < s.dec.ip.toNat + tlen ∨ s.dec.op.toNat < dist ∨ s.dec.jobOut.len.toNat < s.dec.op.toNat + len) ∧
      decMatch tlen dist len s = s.raise .dec .corrupt) ∨
    (s.busy .dec = true ∧ s.dec.ip.toNat + tlen ≤ s.dec.jobIn.len.toNat ∧ dist ≤ s.dec.op.toNat ∧
      s.dec.op.toNat + len ≤ s.dec.jobOut.len.toNat ∧
      decMatch tlen dist len s = s.decRetire
        (s.mem.copyForward (s.dec.jobOut.addr (s.dec.op.toNat - dist)) (s.dec.jobOut.addr s.dec.op.toNat) len) tlen len) := by
  unfold decMatch
  cases hb : s.busy .dec
  · simp
  · simp only [if_true]
    split
    · right; left; simp_all
    · split
      · right; left; simp_all
      · split
        · right; left; simp_all
        · right; right; refine ⟨trivial, by omega, by omega, by omega, rfl⟩

/-- DEC after a token: the cursors moved, and the end of the stream (R212). -/
theorem DecUnit.settle_advance (u : DecUnit) (tlen len : Nat)
    (h1 : u.ip.toNat + tlen ≤ u.jobIn.len.toNat) (h2 : u.op.toNat + len ≤ u.jobOut.len.toNat) :
    (u.advance tlen len).settle.ip.toNat = u.ip.toNat + tlen ∧ (u.advance tlen len).settle.op.toNat = u.op.toNat + len ∧
    (u.advance tlen len).settle = { u with
      ip := (u.advance tlen len).settle.ip, op := (u.advance tlen len).settle.op
      status := if u.ip.toNat + tlen = u.jobIn.len.toNat then .done else u.status
      err := if u.ip.toNat + tlen = u.jobIn.len.toNat then .none else u.err
      outLen := if u.ip.toNat + tlen = u.jobIn.len.toNat then (u.advance tlen len).settle.op else u.outLen } := by
  have l1 := u.jobIn.len.isLt
  have l2 := u.jobOut.len.isLt
  have e1 : (BitVec.ofNat 32 (u.ip.toNat + tlen)).toNat = u.ip.toNat + tlen := by
    rw [BitVec.toNat_ofNat, Nat.mod_eq_of_lt (by omega)]
  have e2 : (BitVec.ofNat 32 (u.op.toNat + len)).toNat = u.op.toNat + len := by
    rw [BitVec.toNat_ofNat, Nat.mod_eq_of_lt (by omega)]
  by_cases hend : u.ip.toNat + tlen = u.jobIn.len.toNat
  · have : (u.advance tlen len).settle = (u.advance tlen len).finish := by
      unfold DecUnit.settle; rw [if_pos (by simp only [DecUnit.advance, e1]; omega)]
    rw [this]
    refine ⟨by simpa only [DecUnit.finish, DecUnit.advance] using e1, by simpa only [DecUnit.finish, DecUnit.advance] using e2, ?_⟩
    rw [if_pos hend, if_pos hend, if_pos hend]
    rfl
  · have : (u.advance tlen len).settle = u.advance tlen len := by
      unfold DecUnit.settle; rw [if_neg (by simp only [DecUnit.advance, e1]; omega)]
    rw [this]
    simp only [DecUnit.advance, e1, e2, hend, if_false, and_self]

/-- The state a token leaves whose output is in `m`: the cursors moved, and `DONE` exactly when every byte of IN has been used (R212). -/
theorem State.decRetire_fields {s : State} (m : Mem) {tlen len : Nat} (hb : s.busy .dec = true)
    (h1 : s.dec.ip.toNat + tlen ≤ s.dec.jobIn.len.toNat) (h2 : s.dec.op.toNat + len ≤ s.dec.jobOut.len.toNat)
    {t : State} (ht : t = s.decRetire m tlen len) :
    t.mem = m ∧ t.dec.ip.toNat = s.dec.ip.toNat + tlen ∧ t.dec.op.toNat = s.dec.op.toNat + len ∧
    (if t.dec.ip = s.dec.jobIn.len then t.dec.status = .done ∧ t.dec.err = .none ∧ t.dec.outLen = t.dec.op
      else t.dec.status = .busy ∧ t.dec.err = s.dec.err ∧ t.dec.outLen = s.dec.outLen) ∧
    t = { s with mem := t.mem, dec := { s.dec with
      ip := t.dec.ip, op := t.dec.op, status := t.dec.status, err := t.dec.err, outLen := t.dec.outLen } } := by
  subst ht
  obtain ⟨e1, e2, e3⟩ := DecUnit.settle_advance s.dec tlen len h1 h2
  have hend : (s.dec.advance tlen len).settle.ip = s.dec.jobIn.len ↔ s.dec.ip.toNat + tlen = s.dec.jobIn.len.toNat := by
    rw [← BitVec.toNat_inj, e1]
  have e4 := congrArg DecUnit.status e3
  have e5 := congrArg DecUnit.err e3
  have e6 := congrArg DecUnit.outLen e3
  simp only at e4 e5 e6
  refine ⟨rfl, e1, e2, ?_, ?_⟩
  · rw [State.busy_dec] at hb
    split <;> rename_i h
    · rw [if_pos (hend.mp h)] at e4 e5 e6
      exact ⟨e4, e5, e6⟩
    · rw [if_neg fun x => h (hend.mpr x)] at e4 e5 e6
      exact ⟨e4.trans hb, e5, e6⟩
  · show s.decRetire m tlen len = _
    simp only [State.decRetire, State.setDec, State.setMem]
    congr 1
    rw [e4, e5, e6]
    exact e3

/-- Any token executed: only DEC and memory change, DEC's operands and their latched copies do not, and no byte outside the output
buffer is written. -/
theorem execToken_frame (i : Instr) (hi : i.isToken = true) (s : State) : ∃ t, exec i s = .next t ∧
    t = (s.setMem t.mem).setDec t.dec ∧ t.dec.input = s.dec.input ∧ t.dec.output = s.dec.output ∧
    t.dec.jobIn = s.dec.jobIn ∧ t.dec.jobOut = s.dec.jobOut ∧
    (Memory.wf s.mem = true → Memory.wf t.mem = true ∧ ∀ a, s.dec.jobOut.holds a = false → t.mem.read a = s.mem.read a) := by
  have retire : ∀ (m : Mem) (tlen len : Nat),
      (Memory.wf s.mem = true → Memory.wf m = true ∧ ∀ a, s.dec.jobOut.holds a = false → m.read a = s.mem.read a) →
      s.decRetire m tlen len = (s.setMem (s.decRetire m tlen len).mem).setDec (s.decRetire m tlen len).dec ∧
      (s.decRetire m tlen len).dec.input = s.dec.input ∧ (s.decRetire m tlen len).dec.output = s.dec.output ∧
      (s.decRetire m tlen len).dec.jobIn = s.dec.jobIn ∧ (s.decRetire m tlen len).dec.jobOut = s.dec.jobOut ∧
      (Memory.wf s.mem = true → Memory.wf (s.decRetire m tlen len).mem = true ∧
        ∀ a, s.dec.jobOut.holds a = false → (s.decRetire m tlen len).mem.read a = s.mem.read a) := by
    intro m tlen len hm
    obtain ⟨h1, h2, h3, h4⟩ := DecUnit.settle_frame (s.dec.advance tlen len)
    exact ⟨rfl, h1, h2, h3, h4, hm⟩
  have lit : ∀ tlen data, ∃ t, (Host.Outcome.next (decLiteral tlen data s) : Host.Outcome State Fault Refusal) = .next t ∧
      t = (s.setMem t.mem).setDec t.dec ∧ t.dec.input = s.dec.input ∧ t.dec.output = s.dec.output ∧
      t.dec.jobIn = s.dec.jobIn ∧ t.dec.jobOut = s.dec.jobOut ∧
      (Memory.wf s.mem = true → Memory.wf t.mem = true ∧ ∀ a, s.dec.jobOut.holds a = false → t.mem.read a = s.mem.read a) := by
    intro tlen data
    refine ⟨_, rfl, ?_⟩
    obtain ⟨_, h⟩ | ⟨_, _, h⟩ | ⟨_, h1, h2, h⟩ := decLiteral_cases tlen data s
    · rw [h]; exact ⟨rfl, rfl, rfl, rfl, rfl, fun h => ⟨h, fun _ _ => rfl⟩⟩
    · rw [h]; exact ⟨rfl, rfl, rfl, rfl, rfl, fun h => ⟨h, fun _ _ => rfl⟩⟩
    · rw [h]
      refine retire _ _ _ fun hw => ⟨Memory.wf_writeBytes _ _ hw, fun a ha => ?_⟩
      rw [Mem.read_writeBytes _ _ _ hw, if_neg]
      rw [Buf.holds_false_iff] at ha
      simp only [Buf.addr]; omega
  have mat : ∀ tlen d l, ∃ t, (Host.Outcome.next (decMatch tlen d l s) : Host.Outcome State Fault Refusal) = .next t ∧
      t = (s.setMem t.mem).setDec t.dec ∧ t.dec.input = s.dec.input ∧ t.dec.output = s.dec.output ∧
      t.dec.jobIn = s.dec.jobIn ∧ t.dec.jobOut = s.dec.jobOut ∧
      (Memory.wf s.mem = true → Memory.wf t.mem = true ∧ ∀ a, s.dec.jobOut.holds a = false → t.mem.read a = s.mem.read a) := by
    intro tlen d l
    refine ⟨_, rfl, ?_⟩
    obtain ⟨_, h⟩ | ⟨_, _, h⟩ | ⟨_, h1, h2, h3, h⟩ := decMatch_cases tlen d l s
    · rw [h]; exact ⟨rfl, rfl, rfl, rfl, rfl, fun h => ⟨h, fun _ _ => rfl⟩⟩
    · rw [h]; exact ⟨rfl, rfl, rfl, rfl, rfl, fun h => ⟨h, fun _ _ => rfl⟩⟩
    · rw [h]
      refine retire _ _ _ fun hw => ⟨Memory.wf_copyForward _ _ _ hw, fun a ha => ?_⟩
      rw [Mem.read_copyForward_frame _ _ _ _ hw]
      rw [Buf.holds_false_iff] at ha
      simp only [Buf.addr]; omega
  cases i <;> simp only [Instr.isToken, reduceCtorEq] at hi
  · exact lit _ _
  · exact mat _ _ _
  · exact mat _ _ _
  · exact mat _ _ _
  · exact mat _ _ _

/-! ### The inversion of a step -/

/-- DEC's turn: nothing when it is not running, the end of the stream, `Corrupt` on a truncated token, or the decoded token. -/
theorem decTurn_cases {s t : State} (h : decTurn s = .next t) :
    (s.busy .dec = false ∧ t = s) ∨
    (s.busy .dec = true ∧ s.dec.jobIn.len.toNat ≤ s.dec.ip.toNat ∧ t = s.setDec s.dec.finish) ∨
    (s.busy .dec = true ∧ s.dec.ip.toNat < s.dec.jobIn.len.toNat ∧ t = s.raise .dec .corrupt) ∨
    (s.busy .dec = true ∧ s.dec.ip.toNat < s.dec.jobIn.len.toNat ∧
      ∃ i rest, decodeToken s.decStream = .ok (i, rest) ∧ i.isToken = true ∧ exec i s = .next t) := by
  unfold decTurn at h
  cases hb : s.busy .dec <;> simp only [hb, if_true, if_false, Bool.false_eq_true] at h
  · left; cases h; exact ⟨rfl, rfl⟩
  · split at h
    · rename_i hlt
      simp only [decode] at h
      cases hd : decodeToken s.decStream with
      | error e => simp only [hd] at h; cases h; exact .inr (.inr (.inl ⟨rfl, hlt, rfl⟩))
      | ok q =>
        obtain ⟨i, rest⟩ := q
        simp only [hd] at h
        exact .inr (.inr (.inr ⟨rfl, hlt, i, rest, rfl, isToken_of_decodeToken hd, h⟩))
    · rename_i hge
      cases h
      refine .inr (.inl ⟨rfl, by omega, ?_⟩)
      rw [DecUnit.settle, if_pos (by omega)]

/-- A host action: a command, a plain access, a memory access or reset. -/
theorem runAction_cases {a : HostAction} {s t : State} (h : runAction a s = .next t) :
    (∃ acc i, a = .access acc ∧ decodeAccess acc = some i ∧ exec i s = .next t) ∨
    (∃ acc, a = .access acc ∧ decodeAccess acc = none ∧ t = s.plainAccess acc) ∨
    (∃ addr b, a = .memWrite addr b ∧ s.ownedBufs.any (·.holds addr) = false ∧ t = s.setMem (s.mem.write addr b)) ∨
    (∃ addr, a = .memRead addr ∧ t = s.setHostData (s.mem.read addr).toNat) ∨
    (a = .reset ∧ t = blockReset s) := by
  cases a with
  | access acc =>
    simp only [runAction, decode] at h
    cases hd : decodeAccess acc with
    | none => simp only [hd] at h; cases h; exact .inr (.inl ⟨acc, rfl, hd, rfl⟩)
    | some i => simp only [hd] at h; exact .inl ⟨acc, i, rfl, hd, h⟩
  | memWrite addr b =>
    simp only [runAction, hostMemWrite] at h
    split_ifs at h with _ _ h3
    cases h
    exact .inr (.inr (.inl ⟨addr, b, rfl, by simpa using h3, rfl⟩))
  | memRead addr =>
    simp only [runAction, hostMemRead] at h
    split_ifs at h
    cases h
    exact .inr (.inr (.inr (.inl ⟨addr, rfl, rfl⟩)))
  | reset => cases h; exact .inr (.inr (.inr (.inr ⟨rfl, rfl⟩)))

/-- A step is the turn of one agent (R20). -/
theorem step_cases {s t : State} (h : step s = .next t) :
    (s.mover = .adl ∧ t = adlTurn s.popTurn) ∨ (s.mover = .enc ∧ t = encTurn s.popTurn) ∨
    (s.mover = .dec ∧ decTurn s.popTurn = .next t) ∨
    (s.mover = .host ∧ s.hostQueue = [] ∧ t = s.popTurn) ∨
    (s.mover = .host ∧ ∃ a rest, s.hostQueue = a :: rest ∧ runAction a (s.popTurn.setHostQueue rest) = .next t) := by
  unfold step at h
  cases hm : s.mover <;> simp only [hm] at h
  · unfold hostTurn at h
    simp only [State.popTurn_hostQueue] at h
    cases hq : s.hostQueue with
    | nil => simp only [hq] at h; cases h; simp
    | cons a rest => simp only [hq] at h; right; right; right; right; exact ⟨rfl, a, rest, rfl, h⟩
  · cases h; simp
  · cases h; simp
  · right; right; left; exact ⟨rfl, h⟩

/-! ### The outcomes of the host commands -/

theorem execAdlInit_cases (s : State) :
    (s.busy .adl = true ∧ exec .adlInit s = .next s) ∨
    (s.busy .adl = false ∧ exec .adlInit s = .next (s.setAdl s.adl.init)) := by
  show _ ∧ execAdlInit s = _ ∨ _ ∧ execAdlInit s = _
  unfold execAdlInit
  cases s.busy .adl <;> simp

theorem execAdlUpdate_cases (s : State) :
    (s.busy .adl = true ∧ exec .adlUpdate s = .next s) ∨
    (s.busy .adl = false ∧ (∃ r, s.launchRefusal .adl [s.adl.input] [] = some r ∧ exec .adlUpdate s = .refused r)) ∨
    (s.busy .adl = false ∧ s.launchRefusal .adl [s.adl.input] [] = none ∧
      exec .adlUpdate s = .next (s.setAdl s.adl.start)) := by
  show _ ∧ execAdlUpdate s = _ ∨ _ ∧ (∃ r, _ ∧ execAdlUpdate s = _) ∨ _ ∧ _ ∧ execAdlUpdate s = _
  unfold execAdlUpdate
  cases s.busy .adl <;> cases s.launchRefusal .adl [s.adl.input] [] <;> simp

theorem execEncCompress_cases (s : State) :
    (s.busy .enc = true ∧ exec .encCompress s = .next s) ∨
    (s.busy .enc = false ∧ (∃ e, encPrecheck s.enc.level.toNat s.enc.input.len.toNat s.enc.output.len.toNat = some e ∧
      exec .encCompress s = .next (s.raise .enc e))) ∨
    (s.busy .enc = false ∧ encPrecheck s.enc.level.toNat s.enc.input.len.toNat s.enc.output.len.toNat = none ∧
      (∃ r, s.launchRefusal .enc [s.enc.input] [s.enc.output] = some r ∧ exec .encCompress s = .refused r)) ∨
    (s.busy .enc = false ∧ encPrecheck s.enc.level.toNat s.enc.input.len.toNat s.enc.output.len.toNat = none ∧
      s.launchRefusal .enc [s.enc.input] [s.enc.output] = none ∧ exec .encCompress s = .next (s.setEnc s.enc.start)) := by
  show _ ∧ execEncCompress s = _ ∨ _ ∧ (∃ e, _ ∧ execEncCompress s = _) ∨ _ ∧ _ ∧ (∃ r, _ ∧ execEncCompress s = _) ∨
    _ ∧ _ ∧ _ ∧ execEncCompress s = _
  unfold execEncCompress
  cases s.busy .enc <;> cases encPrecheck s.enc.level.toNat s.enc.input.len.toNat s.enc.output.len.toNat <;>
    cases s.launchRefusal .enc [s.enc.input] [s.enc.output] <;> simp

theorem execDecDecompress_cases (s : State) :
    (s.busy .dec = true ∧ exec .decDecompress s = .next s) ∨
    (s.busy .dec = false ∧ s.dec.input.len.toNat = 0 ∧
      exec .decDecompress s = .next ((s.setDec s.dec.start).raise .dec .corrupt)) ∨
    (s.busy .dec = false ∧ s.dec.input.len.toNat ≠ 0 ∧
      (∃ r, s.launchRefusal .dec [s.dec.input] [s.dec.output] = some r ∧ exec .decDecompress s = .refused r)) ∨
    (s.busy .dec = false ∧ s.dec.input.len.toNat ≠ 0 ∧ s.launchRefusal .dec [s.dec.input] [s.dec.output] = none ∧
      exec .decDecompress s = .next (s.setDec s.dec.start)) := by
  show _ ∧ execDecDecompress s = _ ∨ _ ∧ _ ∧ execDecDecompress s = _ ∨ _ ∧ _ ∧ (∃ r, _ ∧ execDecDecompress s = _) ∨
    _ ∧ _ ∧ _ ∧ execDecDecompress s = _
  unfold execDecDecompress
  by_cases h0 : s.dec.input.len.toNat = 0 <;> cases s.busy .dec <;>
    cases s.launchRefusal .dec [s.dec.input] [s.dec.output] <;> simp [h0]

/-- A host command touches no memory. -/
theorem execCommand_mem {i : Instr} (hi : i.isToken = false) {s t : State} (h : exec i s = .next t) : t.mem = s.mem := by
  cases i <;> simp only [Instr.isToken, reduceCtorEq] at hi
  · obtain ⟨_, e⟩ | ⟨_, e⟩ := execAdlInit_cases s <;> rw [e] at h <;> cases h <;> rfl
  · obtain ⟨_, e⟩ | ⟨_, r, _, e⟩ | ⟨_, _, e⟩ := execAdlUpdate_cases s <;> rw [e] at h <;> cases h <;> rfl
  · simp only [exec, execAdlLoad] at h; split at h <;> cases h; rfl
  · simp only [exec, execAdlRead, State.readReg] at h; cases h; split <;> rfl
  · obtain ⟨_, e⟩ | ⟨_, r, _, e⟩ | ⟨_, _, r, _, e⟩ | ⟨_, _, _, e⟩ := execEncCompress_cases s <;> rw [e] at h <;> cases h <;> rfl
  · obtain ⟨_, e⟩ | ⟨_, _, e⟩ | ⟨_, _, r, _, e⟩ | ⟨_, _, _, e⟩ := execDecDecompress_cases s <;> rw [e] at h <;> cases h <;> rfl

end Sys2Proof.Machine
end

