-- ==== Sys2Proof/Laws/Run.lean ====
section
/-! SUPPORT. What a step can do to each unit, said once, and the first steps of a run of the host's core. -/

namespace Sys2Proof.Machine

/-! ### Runs -/

/-- No step: the state as it is. -/
theorem core_run_zero (s : State) : Sys2Proof.core.run 0 s = .next s := by simp only [Host.Core.run]

/-- A step, then the rest of the run. -/
theorem core_run_succ (k : Nat) {s t : State} (h : step s = .next t) : Sys2Proof.core.run (k + 1) s = Sys2Proof.core.run k t := by
  have h' : Sys2Proof.core.step s = .next t := h
  simp only [Host.Core.run, h']

/-- With no order of the agents given, taking a turn off it is no change. -/
theorem State.popTurn_of_nil {s : State} (h : s.turns = []) : s.popTurn = s := by
  unfold State.popTurn State.setTurns
  rw [h]
  cases s
  cases h
  rfl

/-! ### Plain accesses -/

/-- A plain access changes no more of a unit than its operands. -/
theorem State.plainAccess_adl (s : State) (acc : Access) :
    (s.plainAccess acc).adl = { s.adl with input := (s.plainAccess acc).adl.input } := by
  cases acc with
  | read u r => simp only [State.plainAccess, State.readReg]; split <;> rfl
  | write u r v => cases u <;> cases r <;> rfl

theorem State.plainAccess_enc (s : State) (acc : Access) : (s.plainAccess acc).enc = { s.enc with
    input := (s.plainAccess acc).enc.input, output := (s.plainAccess acc).enc.output
    level := (s.plainAccess acc).enc.level } := by
  cases acc with
  | read u r => simp only [State.plainAccess, State.readReg]; split <;> rfl
  | write u r v => cases u <;> cases r <;> rfl

theorem State.plainAccess_dec (s : State) (acc : Access) : (s.plainAccess acc).dec = { s.dec with
    input := (s.plainAccess acc).dec.input, output := (s.plainAccess acc).dec.output } := by
  cases acc with
  | read u r => simp only [State.plainAccess, State.readReg]; split <;> rfl
  | write u r v => cases u <;> cases r <;> rfl

/-- A plain access touches neither memory nor the platform. -/
theorem State.plainAccess_mem (s : State) (acc : Access) :
    (s.plainAccess acc).mem = s.mem ∧ (s.plainAccess acc).platform = s.platform := by
  cases acc with
  | read u r => simp only [State.plainAccess, State.readReg]; split <;> exact ⟨rfl, rfl⟩
  | write u r v => cases u <;> cases r <;> exact ⟨rfl, rfl⟩

/-! ### A host command and the units it is not for -/

theorem execCommand_others {i : Instr} (hi : i.isToken = false) {s t : State} (h : exec i s = .next t) :
    (i = .encCompress ∨ t.enc = s.enc) ∧ (i = .decDecompress ∨ t.dec = s.dec) ∧
    ((i = .adlInit ∨ i = .adlUpdate ∨ ∃ v, i = .adlLoad v) ∨ t.adl = s.adl) ∧ t.platform = s.platform := by
  cases i <;> simp only [Instr.isToken, reduceCtorEq] at hi
  · obtain ⟨_, e⟩ | ⟨_, e⟩ := execAdlInit_cases s <;> rw [e] at h <;> cases h <;> simp
  · obtain ⟨_, e⟩ | ⟨_, r, _, e⟩ | ⟨_, _, e⟩ := execAdlUpdate_cases s <;> rw [e] at h <;> cases h <;> simp
  · simp only [exec, execAdlLoad] at h; split at h <;> cases h; simp
  · simp only [exec, execAdlRead, State.readReg] at h; cases h; split <;> simp
  · obtain ⟨_, e⟩ | ⟨_, r, _, e⟩ | ⟨_, _, r, _, e⟩ | ⟨_, _, _, e⟩ := execEncCompress_cases s <;> rw [e] at h <;> cases h <;>
      simp [State.raise]
  · obtain ⟨_, e⟩ | ⟨_, _, e⟩ | ⟨_, _, r, _, e⟩ | ⟨_, _, _, e⟩ := execDecDecompress_cases s <;> rw [e] at h <;> cases h <;>
      simp [State.raise]

/-- A token and the units it is not for. -/
theorem execToken_others {i : Instr} (hi : i.isToken = true) {s t : State} (h : exec i s = .next t) :
    t.adl = s.adl ∧ t.enc = s.enc ∧ t.platform = s.platform := by
  obtain ⟨t', h1, h2, _⟩ := execToken_frame i hi s
  rw [h1] at h
  cases h
  rw [h2]
  exact ⟨rfl, rfl, rfl⟩

/-- DEC's turn and the units that are not DEC. -/
theorem decTurn_others {s t : State} (h : decTurn s = .next t) : t.adl = s.adl ∧ t.enc = s.enc ∧ t.platform = s.platform := by
  obtain ⟨_, rfl⟩ | ⟨_, _, rfl⟩ | ⟨_, _, rfl⟩ | ⟨_, _, i, rest, _, hi, he⟩ := decTurn_cases h
  · exact ⟨rfl, rfl, rfl⟩
  · exact ⟨rfl, rfl, rfl⟩
  · exact ⟨rfl, rfl, rfl⟩
  · exact execToken_others hi he

/-! ### What a step can do to a unit -/

/-- ADL: nothing, its own turn, an operand written, reset, or one of its commands while it is not BUSY. -/
theorem step_adl_cases {s t : State} (h : step s = .next t) :
    t.adl = s.adl ∨ (s.mover = .adl ∧ t = adlTurn s.popTurn) ∨
    (s.mover = .host ∧ ∃ i, t.adl = { s.adl with input := i }) ∨
    (s.mover = .host ∧ t.adl = AdlUnit.reset ∧ ∃ q, s.hostQueue = .reset :: q) ∨
    (s.mover = .host ∧ s.busy .adl = false ∧ ∃ a q, s.hostQueue = a :: q ∧
      ((a = .access (.write .adl .cmd 2) ∧ t.adl = s.adl.init) ∨ (a = .access (.write .adl .cmd 1) ∧ t.adl = s.adl.start) ∨
        ∃ v, a = .access (.write .adl .reg8 v) ∧ t.adl = s.adl.loadSum (BitVec.ofNat 32 v))) := by
  obtain ⟨hm, rfl⟩ | ⟨hm, rfl⟩ | ⟨hm, h⟩ | ⟨hm, _, rfl⟩ | ⟨hm, a, rest, hq, h⟩ := step_cases h
  · exact .inr (.inl ⟨hm, rfl⟩)
  · left; rw [(encTurn_frame _).1]; rfl
  · exact .inl (decTurn_others h).1
  · exact .inl rfl
  · obtain ⟨acc, i, rfl, hd, he⟩ | ⟨acc, rfl, hd, rfl⟩ | ⟨addr, b, rfl, _, rfl⟩ | ⟨addr, rfl, rfl⟩ | ⟨rfl, rfl⟩ := runAction_cases h
    · obtain ⟨rfl, rfl⟩ | ⟨rfl, rfl⟩ | ⟨rfl, rfl⟩ | ⟨_, rfl⟩ | ⟨v, rfl, rfl⟩ | ⟨_, rfl⟩ := decodeAccess_cases hd
      · obtain ⟨_, e⟩ | ⟨_, r, _, e⟩ | ⟨hb, _, e⟩ := execAdlUpdate_cases (s.popTurn.setHostQueue rest) <;> rw [e] at he <;> cases he
        · exact .inl rfl
        · exact .inr (.inr (.inr (.inr ⟨hm, by simpa using hb, _, rest, hq, .inr (.inl ⟨rfl, rfl⟩)⟩)))
      · obtain ⟨_, e⟩ | ⟨hb, e⟩ := execAdlInit_cases (s.popTurn.setHostQueue rest) <;> rw [e] at he <;> cases he
        · exact .inl rfl
        · exact .inr (.inr (.inr (.inr ⟨hm, by simpa using hb, _, rest, hq, .inl ⟨rfl, rfl⟩⟩)))
      · obtain ⟨_, _, h | h, _⟩ := execCommand_others rfl he
        · simp at h
        · exact .inl h
      · obtain ⟨_, _, h | h, _⟩ := execCommand_others rfl he
        · simp at h
        · exact .inl h
      · simp only [exec, execAdlLoad] at he
        split at he <;> rename_i hb <;> cases he
        exact .inr (.inr (.inr (.inr ⟨hm, by simpa using hb, _, rest, hq, .inr (.inr ⟨v, rfl, rfl⟩)⟩)))
      · obtain ⟨_, _, h | h, _⟩ := execCommand_others rfl he
        · simp at h
        · exact .inl h
    · exact .inr (.inr (.inl ⟨hm, _, State.plainAccess_adl _ _⟩))
    · exact .inl rfl
    · exact .inl rfl
    · exact .inr (.inr (.inr (.inl ⟨hm, rfl, rest, hq⟩)))

/-- ENC: nothing, its own turn, an operand written, reset, or START while it is not BUSY. -/
theorem step_enc_cases {s t : State} (h : step s = .next t) :
    t.enc = s.enc ∨ (s.mover = .enc ∧ t = encTurn s.popTurn) ∨
    (s.mover = .host ∧ ∃ i o l, t.enc = { s.enc with input := i, output := o, level := l }) ∨
    (s.mover = .host ∧ t.enc = EncUnit.reset ∧ ∃ q, s.hostQueue = .reset :: q) ∨
    (s.mover = .host ∧ s.busy .enc = false ∧ ∃ q, s.hostQueue = .access (.write .enc .cmd 1) :: q ∧
      ((∃ e, encPrecheck s.enc.level.toNat s.enc.input.len.toNat s.enc.output.len.toNat = some e ∧ t.enc = s.enc.raise e) ∨
        (encPrecheck s.enc.level.toNat s.enc.input.len.toNat s.enc.output.len.toNat = none ∧ t.enc = s.enc.start))) := by
  obtain ⟨hm, rfl⟩ | ⟨hm, rfl⟩ | ⟨hm, h⟩ | ⟨hm, _, rfl⟩ | ⟨hm, a, rest, hq, h⟩ := step_cases h
  · left; rw [(adlTurn_frame _).1]; rfl
  · exact .inr (.inl ⟨hm, rfl⟩)
  · exact .inl (decTurn_others h).2.1
  · exact .inl rfl
  · obtain ⟨acc, i, rfl, hd, he⟩ | ⟨acc, rfl, hd, rfl⟩ | ⟨addr, b, rfl, _, rfl⟩ | ⟨addr, rfl, rfl⟩ | ⟨rfl, rfl⟩ := runAction_cases h
    · by_cases hi : i = .encCompress
      · subst hi
        obtain ⟨_, h⟩ | ⟨_, h⟩ | ⟨rfl, _⟩ | ⟨_, h⟩ | ⟨_, _, h⟩ | ⟨_, h⟩ := decodeAccess_cases hd <;> try cases h
        obtain ⟨_, e⟩ | ⟨hb, r, hr, e⟩ | ⟨_, _, r, _, e⟩ | ⟨hb, hp, _, e⟩ := execEncCompress_cases (s.popTurn.setHostQueue rest) <;>
          rw [e] at he <;> cases he
        · exact .inl rfl
        · exact .inr (.inr (.inr (.inr ⟨hm, by simpa using hb, rest, hq, .inl ⟨r, hr, rfl⟩⟩)))
        · exact .inr (.inr (.inr (.inr ⟨hm, by simpa using hb, rest, hq, .inr ⟨hp, rfl⟩⟩)))
      · refine .inl ?_
        have hk : i.isToken = false := by
          obtain ⟨_, rfl⟩ | ⟨_, rfl⟩ | ⟨_, rfl⟩ | ⟨_, rfl⟩ | ⟨_, _, rfl⟩ | ⟨_, rfl⟩ := decodeAccess_cases hd <;> rfl
        exact (execCommand_others hk he).1.resolve_left hi
    · exact .inr (.inr (.inl ⟨hm, _, _, _, State.plainAccess_enc _ _⟩))
    · exact .inl rfl
    · exact .inl rfl
    · exact .inr (.inr (.inr (.inl ⟨hm, rfl, rest, hq⟩)))

/-- DEC: nothing, its own turn, an operand written, reset, or START while it is not BUSY. -/
theorem step_dec_cases {s t : State} (h : step s = .next t) :
    t.dec = s.dec ∨ (s.mover = .dec ∧ decTurn s.popTurn = .next t) ∨
    (s.mover = .host ∧ ∃ i o, t.dec = { s.dec with input := i, output := o }) ∨
    (s.mover = .host ∧ t.dec = DecUnit.reset ∧ ∃ q, s.hostQueue = .reset :: q) ∨
    (s.mover = .host ∧ s.busy .dec = false ∧ ∃ q, s.hostQueue = .access (.write .dec .cmd 1) :: q ∧
      ((s.dec.input.len.toNat = 0 ∧ t.dec = s.dec.start.raise .corrupt) ∨
        (s.dec.input.len.toNat ≠ 0 ∧ t.dec = s.dec.start))) := by
  obtain ⟨hm, rfl⟩ | ⟨hm, rfl⟩ | ⟨hm, h⟩ | ⟨hm, _, rfl⟩ | ⟨hm, a, rest, hq, h⟩ := step_cases h
  · left; rw [(adlTurn_frame _).1]; rfl
  · left; rw [(encTurn_frame _).1]; rfl
  · exact .inr (.inl ⟨hm, h⟩)
  · exact .inl rfl
  · obtain ⟨acc, i, rfl, hd, he⟩ | ⟨acc, rfl, hd, rfl⟩ | ⟨addr, b, rfl, _, rfl⟩ | ⟨addr, rfl, rfl⟩ | ⟨rfl, rfl⟩ := runAction_cases h
    · by_cases hi : i = .decDecompress
      · subst hi
        obtain ⟨_, h⟩ | ⟨_, h⟩ | ⟨_, h⟩ | ⟨rfl, _⟩ | ⟨_, _, h⟩ | ⟨_, h⟩ := decodeAccess_cases hd <;> try cases h
        obtain ⟨_, e⟩ | ⟨hb, h0, e⟩ | ⟨_, _, r, _, e⟩ | ⟨hb, h0, _, e⟩ := execDecDecompress_cases (s.popTurn.setHostQueue rest) <;>
          rw [e] at he <;> cases he
        · exact .inl rfl
        · exact .inr (.inr (.inr (.inr ⟨hm, by simpa using hb, rest, hq, .inl ⟨h0, rfl⟩⟩)))
        · exact .inr (.inr (.inr (.inr ⟨hm, by simpa using hb, rest, hq, .inr ⟨h0, rfl⟩⟩)))
      · refine .inl ?_
        have hk : i.isToken = false := by
          obtain ⟨_, rfl⟩ | ⟨_, rfl⟩ | ⟨_, rfl⟩ | ⟨_, rfl⟩ | ⟨_, _, rfl⟩ | ⟨_, rfl⟩ := decodeAccess_cases hd <;> rfl
        exact (execCommand_others hk he).2.1.resolve_left hi
    · exact .inr (.inr (.inl ⟨hm, _, _, State.plainAccess_dec _ _⟩))
    · exact .inl rfl
    · exact .inl rfl
    · exact .inr (.inr (.inr (.inl ⟨hm, rfl, rest, hq⟩)))

end Sys2Proof.Machine
end

