-- ==== Sys2Proof/Tests/Slice0.lean ====
section
/-! SUPPORT. Tests of one decoding or one step each, with expected values from spec/95_test_vectors.md and the examples of the rules, and
for every obligation with hypotheses a state and operands that meet them. -/

namespace Sys2Proof.Tests

open Sys2Proof Sys2Proof.Machine

/-! ### Helpers -/

/-- The outcome is a next state of which `p` holds. -/
def passes (o : Host.Outcome State Fault Refusal) (p : State → Bool) : Bool :=
  match o with
  | .next t => p t
  | .fault _ => false
  | .refused _ => false

/-- The outcome is the given refusal. -/
def refuses (o : Host.Outcome State Fault Refusal) (r : Refusal) : Bool :=
  match o with
  | .next _ => false
  | .fault _ => false
  | .refused q => decide (q = r)

/-- The bytes of an operation's result, if it ended in `Done`. -/
def doneBytes (r : Except ErrCode (List Byte)) : Option (List Byte) :=
  match r with
  | .ok y => some y
  | .error _ => none

/-- DEC about to execute the first token of `stream`, with `op` bytes output of which the first are `out`; IN at 0, OUT at 1000. -/
def decAt (stream out : List Byte) (op cap : Nat) : State :=
  { State.reset with
    mem := Mem.writeBytes (Mem.writeBytes [] 0 stream) 1000 out
    dec := { DecUnit.reset with
      status := .busy, op := BitVec.ofNat 32 op
      jobIn := ⟨0, BitVec.ofNat 32 stream.length⟩, jobOut := ⟨1000, BitVec.ofNat 32 cap⟩ } }

/-- "abcabcabcabcabcabc", the input of E1. -/
def inE1 : List Byte :=
  [0x61#8, 0x62#8, 0x63#8, 0x61#8, 0x62#8, 0x63#8, 0x61#8, 0x62#8, 0x63#8,
   0x61#8, 0x62#8, 0x63#8, 0x61#8, 0x62#8, 0x63#8, 0x61#8, 0x62#8, 0x63#8]

/-- The table of E1 at p = 3, level 1: position 1 in bucket 0x0E6D, position 2 in bucket 0x0F2E, and position 0, which is not listed. -/
def htE1 : Cells 32 := [(0x0E6D * 4, 1#32), (0x0F2E * 4, 2#32)]

/-- ENC at position `p` of an input, nothing emitted yet; IN at 0, OUT at 1000 with 66 bytes. -/
def encAt (level p : Nat) (x : List Byte) (ht : Cells 32) : State :=
  { State.reset with
    mem := Mem.writeBytes [] 0 x
    enc := { EncUnit.reset with
      status := .busy, ip := BitVec.ofNat 32 p, ht := ht
      jobIn := ⟨0, BitVec.ofNat 32 x.length⟩, jobOut := ⟨1000, 66#32⟩, jobLevel := BitVec.ofNat 32 level } }

/-- ENC with its operands written and no operation running. -/
def encReady (level len cap : Nat) : State :=
  { State.reset with
    mem := Mem.writeBytes [] 0 inE1
    enc := { EncUnit.reset with
      level := BitVec.ofNat 32 level, input := ⟨0, BitVec.ofNat 32 len⟩, output := ⟨1000, BitVec.ofNat 32 cap⟩ } }

/-- DEC with its operands written and no operation running. -/
def decReady (stream : List Byte) (cap : Nat) : State :=
  { State.reset with
    mem := Mem.writeBytes [] 0 stream
    dec := { DecUnit.reset with
      input := ⟨0, BitVec.ofNat 32 stream.length⟩, output := ⟨1000, BitVec.ofNat 32 cap⟩ } }

/-- ADL with the byte 'h' left to read. -/
def adlAt : State :=
  { State.reset with
    mem := [(0, 0x68#8)]
    adl := { AdlUnit.reset with status := .busy, job := ⟨0, 1#32⟩ } }

/-! ### WellFormed refuses an ill-formed term for each of its checks -/

theorem test_wf_run_empty : (Instr.lit []).wf = false := by decide
theorem test_wf_run_long : (Instr.lit (List.replicate 33 0#8)).wf = false := by decide
theorem test_wf_short_len : (Instr.matchSn 1 9).wf = false ∧ (Instr.matchSf 8192 2).wf = false := by decide
theorem test_wf_long_len : (Instr.matchLn 1 8).wf = false ∧ (Instr.matchLf 8192 8).wf = false := by decide
theorem test_wf_near : (Instr.matchSn 8192 3).wf = false ∧ (Instr.matchLn 0 9).wf = false := by decide
theorem test_wf_far : (Instr.matchSf 8191 3).wf = false ∧ (Instr.matchLf 73728 9).wf = false := by decide

/-! ### Decoding, words written out from R93 to R97 and R110 -/

theorem test_decode_lit : decode (.token [0b00000010#8, 0x61#8, 0x62#8, 0x63#8, 0xAA#8]) =
    .ok (.lit [0x61#8, 0x62#8, 0x63#8], [0xAA#8]) := rfl
theorem test_decode_matchSn : decode (.token [0b00111111#8, 0b11111110#8]) = .ok (.matchSn 8191 3, []) := rfl
theorem test_decode_matchSf : decode (.token [0b11011111#8, 0xFF#8, 0xFF#8, 0xFF#8]) = .ok (.matchSf 73727 8, []) := rfl
theorem test_decode_matchLn : decode (.token [0b11100000#8, 0xFF#8, 0xFF#8, 0x00#8, 0x02#8]) = .ok (.matchLn 3 519, []) := rfl
theorem test_decode_matchLf : decode (.token [0xFF#8, 0xFF#8, 0x00#8, 0xFF#8, 0x00#8, 0x00#8]) = .ok (.matchLf 8192 264, []) := rfl
theorem test_decode_near_d0_ff : decode (.token [0xE0#8, 0x00#8, 0xFF#8]) = .ok (.matchLn 256 9, []) := rfl
theorem test_decode_adlInit : decode (.access (.write .adl .cmd 2)) = .ok (.adlInit, []) := rfl
theorem test_decode_adlUpdate : decode (.access (.write .adl .cmd 1)) = .ok (.adlUpdate, []) := rfl
theorem test_decode_adlLoad : decode (.access (.write .adl .reg8 0xFFFFFFFF)) = .ok (.adlLoad 0xFFFFFFFF#32, []) := rfl
theorem test_decode_adlRead : decode (.access (.read .adl .reg8)) = .ok (.adlRead, []) := rfl
theorem test_decode_encCompress : decode (.access (.write .enc .cmd 1)) = .ok (.encCompress, []) := rfl
theorem test_decode_decDecompress : decode (.access (.write .dec .cmd 1)) = .ok (.decDecompress, []) := rfl

/-- Each way of being truncated, and an access that is no command, by its name (section 2.5, R30). -/
theorem test_decode_errors :
    decode (.token []) = .error .noByte ∧ decode (.token [0x02#8, 0x61#8, 0x62#8]) = .error .literalTruncated ∧
    decode (.token [0xE0#8, 0xFF#8, 0xFF#8]) = .error .extensionTruncated ∧
    decode (.token [0xE0#8, 0x05#8]) = .error .distanceTruncated ∧
    decode (.token [0x3F#8, 0xFF#8, 0x00#8]) = .error .farTruncated ∧
    decode (.access (.write .enc .cmd 2)) = .error .plainAccess := ⟨rfl, rfl, rfl, rfl, rfl, rfl⟩

/-- The encoder against the table of section 2.2. -/
theorem test_encode :
    encodeToken (.matchSf 8448 6) = [0x9F#8, 0xFF#8, 0x01#8, 0x00#8] ∧
    encodeToken (.matchLn 300 20) = [0xE1#8, 0x0B#8, 0x2B#8] ∧
    encodeToken (.matchLf 8192 9) = [0xFF#8, 0x00#8, 0xFF#8, 0x00#8, 0x00#8] := by decide

/-- The words of spec/opcode_table.json. -/
theorem test_decodeTableWord :
    decodeTableWord 8 0x00 = some (.lit [0#8]) ∧ decodeTableWord 16 0x2000 = some (.matchSn 1 3) ∧
    decodeTableWord 16 0x3FFF = some (.matchSf 8192 3) ∧ decodeTableWord 8 0xE0 = some (.matchLn 1 9) ∧
    decodeTableWord 32 2 = some .adlInit ∧ decodeTableWord 32 1 = some .adlUpdate ∧ decodeTableWord 32 0 = some .adlRead := by
  decide

/-- A table word placed for the next step is the instruction that runs. -/
theorem test_withFetchWord_command :
    passes (step (State.reset.withFetchWord 32 2)) (fun t => t.adl.status = .done ∧ t.adl.sum = 1#32) = true := by decide
theorem test_withFetchWord_token :
    passes (step (State.reset.withFetchWord 8 0)) (fun t => t.dec.status = .fault ∧ t.dec.err = .corrupt) = true := by decide

/-! ### Tokens: one step of DEC each -/

/-- P1, token 1. -/
theorem test_lit : passes (step (decAt [0x02#8, 0x61#8, 0x62#8, 0x63#8, 0xA0#8, 0x02#8] [] 0 10))
    (fun t => t.dec.ip = 4#32 ∧ t.dec.op = 3#32 ∧ t.dec.status = .busy ∧
      t.mem.slice t.dec.jobOut 0 4 = [0x61#8, 0x62#8, 0x63#8, 0x00#8]) = true := by decide

/-- D1 with cap 2: nothing written. -/
theorem test_lit_capacity : passes (step (decAt [0x02#8, 0x61#8, 0x62#8, 0x63#8] [] 0 2))
    (fun t => t.dec.status = .fault ∧ t.dec.err = .corrupt ∧ t.mem.at t.dec.jobOut 0 = 0#8) = true := by decide

/-- P1, token 2: an overlapping copy. -/
theorem test_matchSn : passes (step (decAt [0xA0#8, 0x02#8] [0x61#8, 0x62#8, 0x63#8] 3 10))
    (fun t => t.dec.outLen = 10#32 ∧ t.dec.status = .done ∧ t.mem.slice t.dec.jobOut 3 10 =
      [0x61#8, 0x62#8, 0x63#8, 0x61#8, 0x62#8, 0x63#8, 0x61#8]) = true := by decide

/-- Cause (e) of R262: dist 2 with one byte output. -/
theorem test_matchSn_distance : passes (step (decAt [0x20#8, 0x01#8] [0x61#8] 1 100))
    (fun t => t.dec.status = .fault ∧ t.dec.outLen = 0#32) = true := by decide

/-- P3, the far token: OP 8193, distance 8193. -/
theorem test_matchSf : passes (step (decAt [0x7F#8, 0xFF#8, 0x00#8, 0x01#8] [0x57#8, 0x58#8, 0x59#8, 0x5A#8, 0x61#8] 8193 8198))
    (fun t => t.dec.outLen = 8198#32 ∧ t.mem.slice t.dec.jobOut 8193 8198 = [0x57#8, 0x58#8, 0x59#8, 0x5A#8, 0x61#8]) = true := by
  decide

/-- P3 with `7F FF 00 02`: distance 8194 above OP 8193. -/
theorem test_matchSf_distance : passes (step (decAt [0x7F#8, 0xFF#8, 0x00#8, 0x02#8] [0x57#8] 8193 9000))
    (fun t => t.dec.status = .fault ∧ t.dec.err = .corrupt) = true := by decide

/-- P2: 20 copies of the last byte. -/
theorem test_matchLn : passes (step (decAt [0xE0#8, 0x0B#8, 0x00#8] [0x61#8] 1 21))
    (fun t => t.dec.outLen = 21#32 ∧ t.mem.slice t.dec.jobOut 0 21 = List.replicate 21 0x61#8) = true := by decide

/-- P2 with cap 20: nothing past OUT[0]. -/
theorem test_matchLn_capacity : passes (step (decAt [0xE0#8, 0x0B#8, 0x00#8] [0x61#8] 1 20))
    (fun t => t.dec.status = .fault ∧ t.mem.at t.dec.jobOut 1 = 0#8) = true := by decide

/-- `FF 00 FF 00 00` is len 9, dist 8192 (R211). -/
theorem test_matchLf : passes (step (decAt [0xFF#8, 0x00#8, 0xFF#8, 0x00#8, 0x00#8] [0x57#8, 0x58#8] 8192 9000))
    (fun t => t.dec.outLen = 8201#32 ∧ t.mem.slice t.dec.jobOut 8192 8195 = [0x57#8, 0x58#8, 0x00#8]) = true := by decide

/-- A `MATCH.LF` whose far extension is cut off. -/
theorem test_matchLf_truncated : passes (step (decAt [0xFF#8, 0x00#8, 0xFF#8, 0x00#8] [] 8192 9000))
    (fun t => t.dec.status = .fault ∧ t.dec.err = .corrupt) = true := by decide

/-! ### ADL -/

theorem test_adlInit : passes (exec .adlInit { State.reset with adl := { AdlUnit.reset with s1 := 7#16, s2 := 9#16 } })
    (fun t => t.adl.sum = 0x00000001#32 ∧ t.adl.status = .done) = true := by decide

/-- The byte 'h' from lanes (1, 0) (section 2.1). -/
theorem test_adl_byte : passes (step adlAt) (fun t => t.adl.s1 = 105#16 ∧ t.adl.s2 = 105#16 ∧ t.adl.status = .done) = true := by
  decide

/-- Zero bytes leave a lane of 65535 as it is (section 2.1). -/
theorem test_adlUpdate_empty :
    passes (exec .adlUpdate { State.reset with adl := { AdlUnit.reset with s1 := 0xFFFF#16, s2 := 0xFFFF#16 } })
      (fun t => t.adl.sum = 0xFFFFFFFF#32 ∧ t.adl.status = .done) = true := by decide

theorem test_adlLoad : passes (exec (.adlLoad 0x0271013A#32) State.reset)
    (fun t => t.adl.s1 = 0x013A#16 ∧ t.adl.s2 = 0x0271#16 ∧ t.adl.status = .idle) = true := by decide

theorem test_adlLoad_busy : refuses (exec (.adlLoad 0#32) adlAt) .sumWriteWhileBusy = true := by decide

theorem test_adlRead : passes (exec .adlRead State.reset) (fun t => t.hostData = 1) = true := by decide

/-- `update(1, "hello")`, and the modulus corner `0x0000FFF0` with the byte 1 (section 2.1). -/
theorem test_adlerUpdate : adlerUpdate 1#32 [0x68#8, 0x65#8, 0x6C#8, 0x6C#8, 0x6F#8] = 0x062C0215#32 ∧
    adlerUpdate 0x0000FFF0#32 [0x01#8] = 0#32 := by decide

/-! ### ENC -/

/-- E1 at p = 3, level 1: both tokens are put and the match covers the rest of the input. -/
theorem test_enc_match : passes (step (encAt 1 3 inE1 htE1))
    (fun t => t.enc.ip = 18#32 ∧ t.enc.anchor = 18#32 ∧ t.enc.op = 7#32 ∧ htAt t.enc.ht 0x0D4F 0 = 3 ∧
      htAt t.enc.ht 0x0E6D 0 = 1 ∧
      t.mem.slice t.enc.jobOut 0 7 = [0x02#8, 0x61#8, 0x62#8, 0x63#8, 0xE0#8, 0x06#8, 0x02#8]) = true := by decide

/-- The same at level 2: the covered positions 4 to 15 are entered (E1). -/
theorem test_enc_match_level2 : passes (step (encAt 2 3 inE1 htE1))
    (fun t => (List.range 4).map (htAt t.enc.ht 0x0D4F) = [15, 12, 9, 6] ∧
      (List.range 4).map (htAt t.enc.ht 0x0E6D) = [13, 10, 7, 4]) = true := by decide

/-- The order of the checks (R151): level 3 and n = 5; n = 15 and cap = 0. -/
theorem test_encCompress_faults :
    passes (exec .encCompress (encReady 3 5 0)) (fun t => t.enc.err = .unsupportedLevel ∧ t.enc.status = .fault) = true ∧
    passes (exec .encCompress (encReady 2 15 0)) (fun t => t.enc.err = .inputTooSmall) = true := by decide

theorem test_encCompress_starts : passes (exec .encCompress (encReady 1 18 66))
    (fun t => t.enc.status = .busy ∧ t.enc.jobLevel = 1#32 ∧ t.enc.jobIn.len = 18#32) = true := by decide

/-- E1 as a function. -/
theorem test_compress : doneBytes (compress 2 inE1 66) = some [0x02#8, 0x61#8, 0x62#8, 0x63#8, 0xE0#8, 0x06#8, 0x02#8] := by
  decide

/-! ### DEC -/

theorem test_decDecompress_empty : passes (exec .decDecompress State.reset)
    (fun t => t.dec.status = .fault ∧ t.dec.err = .corrupt) = true := by decide

theorem test_decDecompress_starts : passes (exec .decDecompress (decReady [0x00#8, 0x61#8] 1))
    (fun t => t.dec.status = .busy ∧ t.dec.ip = 0#32 ∧ t.dec.jobOut.len = 1#32) = true := by decide

/-- D1 as a function, with cap 10 and cap 9. -/
theorem test_decompress :
    doneBytes (decompress [0x02#8, 0x61#8, 0x62#8, 0x63#8, 0xA0#8, 0x02#8] 10) =
      some [0x61#8, 0x62#8, 0x63#8, 0x61#8, 0x62#8, 0x63#8, 0x61#8, 0x62#8, 0x63#8, 0x61#8] ∧
    doneBytes (decompress [0x02#8, 0x61#8, 0x62#8, 0x63#8, 0xA0#8, 0x02#8] 9) = none := by decide

/-! ### Witnesses: for every obligation with hypotheses, states and operands that meet them, clause by clause, at the edges -/

/-- DecodeOfEncodeIsTheInstruction: both clauses, every form at the ends of its ranges. -/
theorem witness_decodeOfEncode :
    (∀ i ∈ [Instr.lit [0#8], .lit (List.replicate 32 0#8), .matchSn 1 3, .matchSn 8191 8, .matchSf 8192 3, .matchSf 73727 8,
      .matchLn 1 9, .matchLn 8191 264, .matchLf 8192 9, .matchLf 73727 264], i.wf = true ∧ i.isToken = true) ∧
    (∀ i ∈ [Instr.adlInit, .adlUpdate, .adlLoad 0#32, .adlRead, .encCompress, .decDecompress],
      i.wf = true ∧ i.isToken = false) := by decide

/-- DecodedBytesAreTheEncoding, DecodingConsumesTheTokenLength: lengths 263 and 264, where the extension grows. -/
theorem witness_decoded :
    decode (.token (0x1F#8 :: List.replicate 33 7#8)) = .ok (.lit (List.replicate 32 7#8), [7#8]) ∧
    decode (.token [0x20#8, 0x00#8, 7#8]) = .ok (.matchSn 1 3, [7#8]) ∧
    decode (.token [0x3F#8, 0xFF#8, 0x00#8, 0x00#8]) = .ok (.matchSf 8192 3, []) ∧
    decode (.token [0xE0#8, 0xFE#8, 0x00#8]) = .ok (.matchLn 1 263, []) ∧
    decode (.token [0xE0#8, 0xFF#8, 0x00#8, 0x00#8]) = .ok (.matchLn 1 264, []) ∧
    decode (.token [0xFF#8, 0xFE#8, 0xFF#8, 0xFF#8, 0xFF#8]) = .ok (.matchLf 73727 263, []) :=
  ⟨rfl, rfl, rfl, rfl, rfl, rfl⟩

/-- ControlByteSelectsTheFormat: each range at both ends; with `L5 = 31`, near and far. -/
theorem witness_controlByte :
    decode (.token [0x00#8, 7#8]) = .ok (.lit [7#8], []) ∧
    decode (.token [0xDF#8, 0xFE#8]) = .ok (.matchSn 8191 8, []) ∧
    decode (.token [0xDF#8, 0xFF#8, 0x00#8, 0x00#8]) = .ok (.matchSf 8192 8, []) ∧
    decode (.token [0xE0#8, 0x00#8, 0xFF#8]) = .ok (.matchLn 256 9, []) ∧
    decode (.token [0xFF#8, 0x00#8, 0xFE#8]) = .ok (.matchLn 8191 9, []) ∧
    decode (.token [0xFF#8, 0x00#8, 0xFF#8, 0x00#8, 0x00#8]) = .ok (.matchLf 8192 9, []) := ⟨rfl, rfl, rfl, rfl, rfl, rfl⟩

/-- AssemblerPicksTheFormat: refused operands, and the four formats where they meet. -/
theorem witness_assembler :
    assembleMatch 0 3 = none ∧ assembleMatch 73728 3 = none ∧ assembleMatch 1 2 = none ∧
    assembleMatch 8191 8 = some (.matchSn 8191 8) ∧ assembleMatch 8192 8 = some (.matchSf 8192 8) ∧
    assembleMatch 8191 9 = some (.matchLn 8191 9) ∧ assembleMatch 8192 9 = some (.matchLf 8192 9) ∧
    assembleMatch 73727 3 = some (.matchSf 73727 3) := by decide

/-- DecompressAcceptsExactlyWellFormedStreams, FirstTokenIsLiteral: the shortest stream, and both sides for it. -/
theorem witness_decompress :
    decompress [0x00#8, 0x61#8] 1 = .ok [0x61#8] ∧ [0x00#8, 0x61#8] = [Instr.lit [0x61#8]].flatMap encodeToken ∧
    runTokens 1 [] [Instr.lit [0x61#8]] = .ok [0x61#8] := ⟨rfl, rfl, rfl⟩

/-- RunPseudoInstructionRepeatsTheByte: its least n, and the capacity it needs. -/
theorem witness_run : (4 ≤ 4 ∧ 4 ≤ 4) ∧ assembleRun 7#8 4 = some [.lit [7#8], .matchSn 1 3] := by decide

/-- StepRunsTheDecodedInstruction, clause 1 and 2. -/
theorem witness_step_token :
    (decAt [0x00#8, 0x61#8] [] 0 1).mover = .dec ∧ (decAt [0x00#8, 0x61#8] [] 0 1).busy .dec = true ∧
    (decAt [0x00#8, 0x61#8] [] 0 1).dec.ip.toNat < (decAt [0x00#8, 0x61#8] [] 0 1).dec.jobIn.len.toNat ∧
    decode (.token (decAt [0x00#8, 0x61#8] [] 0 1).decStream) = .ok (.lit [0x61#8], []) ∧
    (decAt [0x00#8] [] 0 1).mover = .dec ∧ (decAt [0x00#8] [] 0 1).busy .dec = true ∧
    (decAt [0x00#8] [] 0 1).dec.ip.toNat < (decAt [0x00#8] [] 0 1).dec.jobIn.len.toNat ∧
    decode (.token (decAt [0x00#8] [] 0 1).decStream) = .error .literalTruncated :=
  ⟨rfl, rfl, by decide, rfl, rfl, rfl, by decide, rfl⟩

/-- The reset state with pending host actions. -/
def hostAt (queue : List HostAction) : State := { State.reset with hostQueue := queue }

/-- StepRunsTheDecodedInstruction, clauses 3 and 4 (the turns of ADL and ENC: `witness_turn_adl`, `witness_turn_enc`). -/
theorem witness_step_host :
    (hostAt [.access (.write .adl .cmd 2)]).mover = .host ∧
    decode (.access (.write .adl .cmd 2)) = .ok (.adlInit, []) ∧
    (∀ a ∈ [HostAction.reset, .memWrite 0 7#8, .memRead 0, .access (.write .enc .reg8 1)],
      (hostAt [a]).mover = .host ∧ (hostAt [a]).hostQueue = a :: []) := ⟨rfl, rfl, by decide⟩

/-- IdleAgentsChangeNothing. -/
theorem witness_idle :
    (∀ a ∈ [Agent.adl, .enc, .dec, .host], ({ State.reset with turns := [a] } : State).mover = a) ∧
    (∀ u, State.reset.busy u = false) ∧ State.reset.hostQueue = [] ∧ State.reset.mover = .host :=
  ⟨by decide, by intro u; cases u <;> rfl, rfl, rfl⟩

/-- UnitsDoNotTouchEachOther, UnitsWriteOnlyTheirOutputBuffer, EveryTurnAdvances: a turn of ADL. -/
theorem witness_turn_adl : ∃ t, step adlAt = .next t ∧ adlAt.mover = .adl ∧ adlAt.busy .adl = true ∧
    Memory.wf adlAt.mem = true ∧ adlAt.adl.Sound ∧ adlAt.enc.Sound ∧ adlAt.dec.Sound :=
  ⟨_, rfl, rfl, rfl, by decide, by unfold AdlUnit.Sound; decide, by unfold EncUnit.Sound EncUnit.Running; decide,
    by unfold DecUnit.Sound; decide⟩

/-- A turn of ENC; address 999 is outside its output buffer and address 1000 inside. -/
theorem witness_turn_enc : ∃ t, step (encAt 1 3 inE1 htE1) = .next t ∧ (encAt 1 3 inE1 htE1).mover = .enc ∧
    (encAt 1 3 inE1 htE1).busy .enc = true ∧ Memory.wf (encAt 1 3 inE1 htE1).mem = true ∧
    (encAt 1 3 inE1 htE1).enc.jobOut.holds 999 = false ∧ (encAt 1 3 inE1 htE1).enc.jobOut.holds 1066 = false ∧
    (encAt 1 3 inE1 htE1).adl.Sound ∧ (encAt 1 3 inE1 htE1).enc.Sound ∧ (encAt 1 3 inE1 htE1).dec.Sound :=
  ⟨_, rfl, rfl, rfl, by decide, by decide, by decide, by unfold AdlUnit.Sound; decide,
    by unfold EncUnit.Sound EncUnit.Running; decide, by unfold DecUnit.Sound; decide⟩

/-- A turn of DEC, P1 before its first token; addresses 999 and 1010 are just outside its output buffer. -/
theorem witness_turn_dec : ∃ s t : State, s = decAt [0x02#8, 0x61#8, 0x62#8, 0x63#8, 0xA0#8, 0x02#8] [] 0 10 ∧
    step s = .next t ∧ s.mover = .dec ∧ s.busy .dec = true ∧ Memory.wf s.mem = true ∧
    s.dec.jobOut.holds 999 = false ∧ s.dec.jobOut.holds 1010 = false ∧ s.adl.Sound ∧ s.enc.Sound ∧ s.dec.Sound :=
  ⟨_, _, rfl, rfl, rfl, rfl, by decide, by decide, by decide, by unfold AdlUnit.Sound; decide,
    by unfold EncUnit.Sound EncUnit.Running; decide, by unfold DecUnit.Sound; decide⟩

/-- AdlInitSetsOne, AdlLoadStoresBothLanes, AdlReadReturnsTheSum, AdlUpdateStarts: busy, and not busy with backed operands of zero
bytes and of one byte, no running operation writing them. -/
theorem witness_adl_commands :
    State.reset.busy .adl = false ∧ adlAt.busy .adl = true ∧
    backedBy State.reset.platform State.reset.adl.input = true ∧ State.reset.outBufs.any State.reset.adl.input.meets = false ∧
    backedBy Platform.default ⟨2 ^ 32 - 1, 1#32⟩ = true ∧ backedBy Platform.default ⟨2 ^ 32, 1#32⟩ = false := by decide

/-- ADL about to be started over the two bytes at 0. -/
def adlReady : State :=
  { State.reset with mem := [(0, 0x68#8), (1, 0x65#8)], adl := { AdlUnit.reset with input := ⟨0, 2#32⟩ } }

/-- AdlTurnTakesOneByte: the last byte, and the first of two beside a running decompression. -/
theorem witness_adlTurn :
    adlAt.busy .adl = true ∧ adlAt.adl.idx.toNat + 1 = adlAt.adl.job.len.toNat ∧
    (∃ s, s = { decAt [0x00#8, 0x61#8] [] 0 1 with adl := { AdlUnit.reset with status := .busy, job := ⟨0, 2#32⟩ } } ∧
      s.busy .adl = true ∧ s.busy .dec = true ∧ s.adl.idx.toNat + 1 < s.adl.job.len.toNat) :=
  ⟨rfl, rfl, ⟨_, rfl, rfl, rfl, by decide⟩⟩

/-- AdlUpdateRunsToTheFold. -/
theorem witness_adlRuns : adlReady.Quiet ∧ backedBy adlReady.platform adlReady.adl.input = true :=
  ⟨by unfold State.Quiet; decide, by decide⟩

/-- AdlClosedForm. -/
theorem witness_closedForm : [0x68#8] ≠ ([] : List Byte) := by decide

/-- RequiredCapacityIsExact: the least n no capacity reaches, and the n before it. -/
theorem witness_reqCap : 4090445043 ≤ 4090445043 ∧ reqCap 4090445042 < 2 ^ 32 ∧ 2 ^ 32 ≤ reqCap 4090445043 := by decide

/-- EncPreconditionFaults: each branch at its edge. -/
theorem witness_encFaults :
    (encReady 0 18 66).busy .enc = false ∧ ((encReady 0 18 66).enc.level ≠ 1#32 ∧ (encReady 0 18 66).enc.level ≠ 2#32) ∧
    ((encReady 3 18 66).enc.level ≠ 1#32 ∧ (encReady 3 18 66).enc.level ≠ 2#32) ∧
    (encReady 1 15 66).enc.input.len.toNat < 16 ∧ ¬ (encReady 1 16 65).enc.input.len.toNat < 16 ∧
    (encReady 2 16 65).enc.output.len.toNat < reqCap (encReady 2 16 65).enc.input.len.toNat ∧
    ¬ (encReady 2 16 66).enc.output.len.toNat < reqCap (encReady 2 16 66).enc.input.len.toNat := by decide

/-- EncCompressStarts and EncRunsToCompress, and ENC busy. -/
theorem witness_encStarts :
    (encReady 1 18 66).busy .enc = false ∧ (encReady 1 18 66).enc.level = 1#32 ∧ (encReady 2 16 66).enc.level = 2#32 ∧
    16 ≤ (encReady 2 16 66).enc.input.len.toNat ∧
    reqCap (encReady 1 18 66).enc.input.len.toNat ≤ (encReady 1 18 66).enc.output.len.toNat ∧
    backedBy (encReady 1 18 66).platform (encReady 1 18 66).enc.input = true ∧
    backedBy (encReady 1 18 66).platform (encReady 1 18 66).enc.output = true ∧
    (encReady 1 18 66).enc.input.meets (encReady 1 18 66).enc.output = false ∧
    (encReady 1 18 66).outBufs.any (encReady 1 18 66).enc.input.meets = false ∧
    (encReady 1 18 66).ownedBufs.any (encReady 1 18 66).enc.output.meets = false ∧
    Memory.wf (encReady 1 18 66).mem = true ∧ (encAt 1 3 inE1 htE1).busy .enc = true := by decide

theorem witness_encRuns : (encReady 1 18 66).Quiet := by unfold State.Quiet; decide

/-- MatchLenIsTheLongestAgreement and SearchTakesTheLongestThenTheLowestWay: both cases of each occur (E1 at p = 3 and p = 0). -/
theorem witness_search :
    matchLen (byteAt inE1) 0 3 15 = 15 ∧ matchLen (byteAt inE1) 0 1 17 = 0 ∧
    search (byteAt inE1) 1 18 htE1 0x0D4F 3 = (15, 3) ∧ search (byteAt inE1) 1 18 [] 0x0D4F 0 = (0, 0) := by decide

/-- InsertShiftsTheBucket, at the largest position. -/
theorem witness_insert : Cells.wf htE1 = true ∧ 4294967295 < 2 ^ 32 ∧ 2 + 1 < (if 2 = 1 then 1 else 4) ∧ (if 1 = 1 then 1 else 4) ≤ 1 := by decide

/-- EncPositionTurn: with a match (E1 at p = 3) and without (p = 0), and at the last position with 3 bytes left. -/
theorem witness_encPosition :
    (encAt 1 3 inE1 htE1).enc.Sound ∧ (encAt 1 0 inE1 []).enc.Sound ∧ (encAt 1 15 inE1 []).enc.Sound ∧
    (encAt 1 15 inE1 []).enc.ip.toNat + 3 ≤ (encAt 1 15 inE1 []).enc.jobIn.len.toNat ∧
    (search (encAt 1 3 inE1 htE1).encIn 1 18 htE1 (hashAt (encAt 1 3 inE1 htE1).encIn 3) 3).1 = 15 ∧
    (search (encAt 1 0 inE1 []).encIn 1 18 [] (hashAt (encAt 1 0 inE1 []).encIn 0) 0).1 = 0 :=
  ⟨by unfold EncUnit.Sound EncUnit.Running; decide, by unfold EncUnit.Sound EncUnit.Running; decide,
    by unfold EncUnit.Sound EncUnit.Running; decide, by decide, by decide, by decide⟩

/-- EncTailFlush: two bytes left, and none. -/
theorem witness_encTail :
    (encAt 1 16 inE1 []).enc.Sound ∧ (encAt 1 16 inE1 []).busy .enc = true ∧
    (encAt 1 16 inE1 []).enc.jobIn.len.toNat < (encAt 1 16 inE1 []).enc.ip.toNat + 3 ∧
    (encAt 1 18 inE1 []).enc.Sound ∧
    (encAt 1 18 inE1 []).enc.jobIn.len.toNat < (encAt 1 18 inE1 []).enc.ip.toNat + 3 :=
  ⟨by unfold EncUnit.Sound EncUnit.Running; decide, rfl, by decide, by unfold EncUnit.Sound EncUnit.Running; decide,
    by decide⟩

/-- EmitMatchPutsTheToken: the ends of both ranges, near with 3 and far with 5. -/
theorem witness_emitMatch :
    emitMatch 1 3 = [0x20#8, 0x00#8] ∧ emitMatch 8191 3 = [0x3F#8, 0xFE#8] ∧
    emitMatch 8192 5 = [0x7F#8, 0xFF#8, 0x00#8, 0x00#8] ∧ emitMatch 73727 5 = [0x7F#8, 0xFF#8, 0xFF#8, 0xFF#8] := by decide

/-- CompressedLengthIsBounded, CompressedBlockStartsWithLiteral, DecompressOfCompressIsTheInput: the least input. -/
theorem witness_compress :
    16 ≤ (List.replicate 16 0x61#8 : List Byte).length ∧ reqCap (List.replicate 16 0x61#8 : List Byte).length ≤ 66 ∧
    (compress 1 (List.replicate 16 0x61#8) 66).toOption = some [0x00#8, 0x61#8, 0xE0#8, 0x06#8, 0x00#8] := by decide

/-- LitOutputsItsBytes: a run of 1 that ends the stream and fills OUT, and a run of 32 that does neither. -/
theorem witness_lit :
    (∃ s, s = decAt [0x00#8, 0x61#8] [] 0 1 ∧ Memory.wf s.mem = true ∧ s.busy .dec = true ∧
      s.dec.ip.toNat + 1 + 1 = s.dec.jobIn.len.toNat ∧ s.dec.op.toNat + 1 = s.dec.jobOut.len.toNat) ∧
    (∃ s, s = decAt (0x1F#8 :: List.replicate 34 7#8) [] 0 33 ∧ Memory.wf s.mem = true ∧ s.busy .dec = true ∧
      s.dec.ip.toNat + 1 + 32 < s.dec.jobIn.len.toNat ∧ s.dec.op.toNat + 32 < s.dec.jobOut.len.toNat) :=
  ⟨⟨_, rfl, by decide, rfl, by decide, by decide⟩, ⟨_, rfl, by decide, rfl, by decide, by decide⟩⟩

/-- MatchRepeatsTheLastBytes: the four forms, each with its distance at OP and its length up to the capacity. -/
theorem witness_match :
    (∀ c ∈ [([0x3F#8, 0xFE#8], Instr.matchSn 8191 3, 8191, 3), ([0x3F#8, 0xFF#8, 0x00#8, 0x00#8], .matchSf 8192 3, 8192, 3),
        ([0xE0#8, 0x00#8, 0x00#8], .matchLn 1 9, 1, 9), ([0xFF#8, 0x00#8, 0xFF#8, 0x00#8, 0x00#8], .matchLf 8192 9, 8192, 9)],
      let s := decAt c.1 [0x57#8] c.2.2.1 (c.2.2.1 + c.2.2.2)
      Memory.wf s.mem = true ∧ s.busy .dec = true ∧ c.2.1.wf = true ∧
        s.dec.ip.toNat + c.2.1.tlen ≤ s.dec.jobIn.len.toNat ∧ c.2.2.1 ≤ s.dec.op.toNat ∧
        s.dec.op.toNat + c.2.2.2 ≤ s.dec.jobOut.len.toNat) := by decide

/-- IllFormedTokensAreCorrupt: each cause, one past its bound. -/
theorem witness_illFormed :
    (decAt [0x20#8] [0x57#8] 1 100).dec.jobIn.len.toNat < (decAt [0x20#8] [0x57#8] 1 100).dec.ip.toNat + (Instr.matchSn 1 3).tlen ∧
    (decAt [0x20#8, 0x00#8] [0x57#8] 1 3).dec.jobOut.len.toNat <
      (decAt [0x20#8, 0x00#8] [0x57#8] 1 3).dec.op.toNat + outputBytes (.matchSn 1 3) ∧
    (decAt [0x20#8, 0x01#8] [0x57#8] 1 100).dec.op.toNat < 2 ∧ (decAt [0x20#8, 0x01#8] [0x57#8] 1 100).busy .dec = true := by
  decide

/-- TokenFrame: a token that outputs, one that faults, and one outside a decompression, all next states. -/
theorem witness_tokenFrame :
    (∃ t, exec (.matchSn 1 3) (decAt [0x20#8, 0x00#8] [0x57#8] 1 4) = .next t ∧ t.dec.status = .done) ∧
    (∃ t, exec (.matchSn 2 3) (decAt [0x20#8, 0x01#8] [0x57#8] 1 4) = .next t ∧ t.dec.status = .fault) ∧
    (∃ t, exec (.lit [7#8]) State.reset = .next t) ∧ State.reset.busy .dec = false ∧
    Memory.wf (decAt [0x20#8, 0x00#8] [0x57#8] 1 4).mem = true :=
  ⟨⟨_, rfl, by decide⟩, ⟨_, rfl, by decide⟩, ⟨_, rfl⟩, rfl, by decide⟩

/-- HostCommandFrame: every command answers a next state. -/
theorem witness_hostCommands :
    (∃ t, exec .adlInit State.reset = .next t) ∧ (∃ t, exec .adlUpdate State.reset = .next t) ∧
    (∃ t, exec (.adlLoad 7#32) State.reset = .next t) ∧ (∃ t, exec .adlRead State.reset = .next t) ∧
    (∃ t, exec .encCompress (encReady 1 18 66) = .next t ∧ t.enc.status = .busy) ∧
    (∃ t, exec .decDecompress (decReady [0x00#8, 0x61#8] 1) = .next t ∧ t.dec.status = .busy) :=
  ⟨⟨_, rfl⟩, ⟨_, rfl⟩, ⟨_, rfl⟩, ⟨_, rfl⟩, ⟨_, rfl, by decide⟩, ⟨_, rfl, by decide⟩⟩

/-- DecDecompressStarts, DecRunsToDecompress: an empty input, one of two bytes with an output buffer right behind it, and DEC busy. -/
theorem witness_decStarts :
    State.reset.busy .dec = false ∧ State.reset.dec.input.len = 0#32 ∧
    (∃ s, s = decReady [0x00#8, 0x61#8] 1 ∧ s.busy .dec = false ∧ s.dec.input.len ≠ 0#32 ∧
      backedBy s.platform s.dec.input = true ∧ backedBy s.platform s.dec.output = true ∧
      s.dec.input.meets s.dec.output = false ∧ s.outBufs.any s.dec.input.meets = false ∧
      s.ownedBufs.any s.dec.output.meets = false ∧ Memory.wf s.mem = true ∧ s.Quiet) ∧
    Buf.meets ⟨0, 2#32⟩ ⟨2, 1#32⟩ = false ∧ Buf.meets ⟨0, 2#32⟩ ⟨1, 1#32⟩ = true ∧
    (decAt [0x00#8, 0x61#8] [] 0 1).busy .dec = true :=
  ⟨rfl, rfl, ⟨_, rfl, rfl, by decide, by decide, by decide, by decide, by decide, by decide, by decide,
    by unfold State.Quiet; decide⟩, by decide, by decide, rfl⟩

/-- DecRunsToDecompress: both results occur. -/
theorem witness_decRuns : decompress [0x00#8, 0x61#8] 1 = .ok [0x61#8] ∧ decompress [0x00#8, 0x61#8] 0 = .error .corrupt :=
  ⟨rfl, rfl⟩

/-- CommandRegisterValues, RegisterReads, OperandWriteChangesOnlyTheRegister, AbsentAndReadOnlyRegisters: each unit busy and not. -/
theorem witness_registers :
    (∀ u ∈ [UnitId.adl, .enc, .dec], State.reset.busy u = false) ∧ adlAt.busy .adl = true ∧
    (encAt 1 3 inE1 htE1).busy .enc = true ∧ (decAt [] [] 0 1).busy .dec = true ∧
    (3 ≠ 1 ∧ (3 ≠ 2 ∨ UnitId.adl ≠ .adl)) ∧ (2 ≠ 1 ∧ (2 ≠ 2 ∨ UnitId.enc ≠ .adl)) := by decide

/-- RegisterReads, its second clause on BUSY units: an operand register, `STATUS`, and the numbers ADL and DEC do not have. -/
theorem witness_registerReads_busy :
    adlAt.busy .adl = true ∧ (decAt [] [] 0 1).busy .dec = true ∧
    (∀ c ∈ [(UnitId.adl, RegNo.inLen), (.adl, .status), (.adl, .outLen), (.dec, .reg8), (.enc, .reg8)],
      c.2 ≠ .err ∧ (c.1 = .adl ∨ c.2 ≠ .outLen) ∧ (c.1 ≠ .adl ∨ c.2 ≠ .reg8)) := by decide

/-- A host write of `2 ^ 32 + 5` to an operand register keeps its low bits (log entry 12). -/
theorem test_operand_write : passes (runAction (.access (.write .dec .outCap (2 ^ 32 + 5))) State.reset)
    (fun t => t.dec.output.len = 5#32 ∧ t.dec.output.base = 0) = true := by decide

/-- `ERR` and `OUT_LEN` of a unit in `FAULT` and of one in `DONE` (R33, R36, R261). -/
theorem test_read_results :
    passes (runAction (.access (.read .dec .err)) { State.reset with dec := DecUnit.reset.raise .corrupt })
      (fun t => t.hostData = 4) = true ∧
    passes (runAction (.access (.read .enc .outLen)) { State.reset with enc := EncUnit.finish { EncUnit.reset with op := 7#32 } })
      (fun t => t.hostData = 7) = true := by decide

/-- ResultsPersist: the host writes an operand register of a unit that is not busy. -/
theorem witness_persist :
    (∃ t, step (hostAt [.access (.write .enc .reg8 1)]) = .next t) ∧
    (hostAt [.access (.write .enc .reg8 1)]).mover = .host ∧ (hostAt [.access (.write .enc .reg8 1)]).busy .enc = false ∧
    HostAction.access (.write .enc .reg8 1) ≠ .reset ∧
    (∀ v, HostAction.access (.write .enc .reg8 1) ≠ .access (.write .enc .cmd v)) :=
  ⟨⟨_, rfl⟩, rfl, rfl, by decide, by intro v h; cases h⟩

/-- HostMemoryAccess: the last address of the space, and, of a running decompression, the first and last bytes of OUT and the byte
after it. -/
theorem witness_hostMemory :
    2 ^ 32 - 1 < 2 ^ State.reset.platform.addrBits ∧ isDevice State.reset.platform (2 ^ 32 - 1) = false ∧
    (decAt [0x00#8, 0x61#8] [] 0 5).ownedBufs.any (·.holds 1) = true ∧
    (decAt [0x00#8, 0x61#8] [] 0 5).ownedBufs.any (·.holds 2) = false ∧
    (decAt [0x00#8, 0x61#8] [] 0 5).outBufs.any (·.holds 1000) = true ∧
    (decAt [0x00#8, 0x61#8] [] 0 5).outBufs.any (·.holds 1004) = true ∧
    (decAt [0x00#8, 0x61#8] [] 0 5).outBufs.any (·.holds 1005) = false ∧
    (decAt [0x00#8, 0x61#8] [] 0 5).outBufs.any (·.holds 1) = false ∧
    Memory.wf (decAt [0x00#8, 0x61#8] [] 0 5).mem = true := by decide

/-- A running decompression of the bytes at 0, output at 1000, with the other units' operands written. -/
def launchAt (encIn encOut adlIn : Buf) : State :=
  { decAt [0x00#8, 0x61#8] [] 0 5 with
    enc := { EncUnit.reset with level := 1#32, input := encIn, output := encOut }
    adl := { AdlUnit.reset with input := adlIn } }

/-- LaunchRefusals, the clauses of ADL and ENC: unbacked by one byte, sharing one byte with each other, with the running output. -/
theorem witness_launch :
    backedBy Platform.default ⟨2 ^ 32 - 15, 16#32⟩ = false ∧
    refuses (exec .adlUpdate (launchAt ⟨0, 0#32⟩ ⟨0, 0#32⟩ ⟨2 ^ 32, 1#32⟩)) (.launchUnbacked .adl) = true ∧
    refuses (exec .adlUpdate (launchAt ⟨0, 0#32⟩ ⟨0, 0#32⟩ ⟨1004, 1#32⟩)) (.launchConflict .adl) = true ∧
    refuses (exec .encCompress (launchAt ⟨2 ^ 32 - 15, 16#32⟩ ⟨2000, 66#32⟩ ⟨0, 0#32⟩)) (.launchUnbacked .enc) = true ∧
    refuses (exec .encCompress (launchAt ⟨2065, 16#32⟩ ⟨2000, 66#32⟩ ⟨0, 0#32⟩)) (.launchOverlap .enc) = true ∧
    refuses (exec .encCompress (launchAt ⟨989, 16#32⟩ ⟨2000, 66#32⟩ ⟨0, 0#32⟩)) (.launchConflict .enc) = true := by decide

/-- LaunchRefusals, the clauses of DEC, beside a running checksum of the byte at 0. -/
theorem witness_launch_dec :
    (∀ c ∈ [((⟨2 ^ 32 - 1, 2#32⟩ : Buf), (⟨1000, 1#32⟩ : Buf), Refusal.launchUnbacked .dec),
        (⟨999, 2#32⟩, ⟨1000, 1#32⟩, .launchOverlap .dec), (⟨1000, 2#32⟩, ⟨0, 1#32⟩, .launchConflict .dec)],
      refuses (exec .decDecompress { adlAt with dec := { DecUnit.reset with input := c.1, output := c.2.1 } }) c.2.2 = true) := by
  decide

/-- ResetEvent: during a decompression, a byte of OUT and a byte that is kept. -/
theorem witness_reset :
    Memory.wf (decAt [0x00#8, 0x61#8] [] 0 5).mem = true ∧ (decAt [0x00#8, 0x61#8] [] 0 5).outBufs.any (·.holds 0) = false ∧
    (decAt [0x00#8, 0x61#8] [] 0 5).outBufs.any (·.holds 1000) = true := by decide

/-- The invariants: a state with a running encoder beside a running decoder that meets all of them and steps to a next state. -/
theorem witness_invariants : ∃ s t : State,
    s = { encAt 1 3 inE1 htE1 with
      dec := { DecUnit.reset with status := .busy, jobIn := ⟨100, 2#32⟩, jobOut := ⟨2000, 5#32⟩ } } ∧
    step s = .next t ∧ s.Canonical ∧ s.adl.Sound ∧ s.enc.Sound ∧ s.dec.Sound ∧ s.Apart :=
  ⟨_, _, rfl, rfl, by unfold State.Canonical; decide, by unfold AdlUnit.Sound; decide,
    by unfold EncUnit.Sound EncUnit.Running; decide, by unfold DecUnit.Sound; decide, by unfold State.Apart; decide⟩

end Sys2Proof.Tests
end

section
/-! PROOFS. The required output capacity of ENC (00_scope.md R7). -/

namespace Sys2Proof.Proofs

open Sys2Proof Sys2Proof.Machine

/-- R7 with the number of R6 in place. -/
theorem reqCap_eq (n : Nat) : reqCap n = max 66 (n + (n + 19) / 20) := rfl

/-- `n + (n + 19) div 20` is the least integer at or above `21 n / 20`, with the division cleared. -/
theorem ceil_twentieth_bounds (n : Nat) :
    21 * n ≤ 20 * (n + (n + 19) / 20) ∧ 20 * (n + (n + 19) / 20) < 21 * n + 20 := by
  omega

/-- From R7's threshold on, `REQ(n)` does not fit in the 32 bits of `ENC_OUT_CAP`. -/
theorem two_pow_32_le_reqCap {n : Nat} (h : 4090445043 ≤ n) : 2 ^ 32 ≤ reqCap n := by
  have hceil : 2 ^ 32 ≤ n + (n + 19) / 20 := by omega
  exact hceil.trans (Nat.le_max_right _ _)

/-- Past the checks of the level and of the input length, a capacity below `REQ(n)` is the fault of R151. -/
theorem encPrecheck_outputTooSmall {level n cap : Nat} (hlevel : level = 1 ∨ level = 2) (hn : 16 ≤ n)
    (hcap : cap < reqCap n) : encPrecheck level n cap = some .outputTooSmall := by
  have hlegal : ¬ (level ≠ 1 ∧ level ≠ 2) := by omega
  have hlong : ¬ n < Config.minInput := Nat.not_lt.mpr hn
  rw [encPrecheck, if_neg hlegal, if_neg hlong, if_pos hcap]

/-- Settles O23: the ceiling's two bounds, the six examples by evaluation, and beyond the threshold the fault of the check
because every 32-bit capacity is below `REQ(n)`. -/
theorem requiredCapacityIsExact : Obligations.RequiredCapacityIsExact := by
  refine ⟨fun n => ⟨reqCap_eq n, ceil_twentieth_bounds n⟩, by decide, by decide, by decide, by decide, by decide,
    by decide, fun n hn => ⟨two_pow_32_le_reqCap hn, fun level cap hlevel => ?_⟩⟩
  have hcap : cap.toNat < reqCap n := cap.isLt.trans_le (two_pow_32_le_reqCap hn)
  exact encPrecheck_outputTooSmall hlevel (by omega) hcap

end Sys2Proof.Proofs
end


section
/-! PROOFS. ENC's search, emission and candidate table: what a match is, what emission costs (41_encoder.md R157 to R169), and that a
table holds only positions below a bound. -/

namespace Sys2Proof.Proofs

open Sys2Proof Sys2Proof.Machine

/-! ### Search -/

/-- What `SEARCH` may answer as a match `(length, distance)` at position `p` of `n` bytes (R157, R162). -/
def IsMatch (level n p : Nat) (m : Nat × Nat) : Prop :=
  1 ≤ m.2 ∧ m.2 ≤ Config.maxDist level ∧ minLen m.2 ≤ m.1 ∧ m.1 ≤ n - p

theorem matchLen_le (rd : Nat → Byte) : ∀ lim c p, matchLen rd c p lim ≤ lim
  | 0, _, _ => Nat.le_refl 0
  | lim + 1, c, p => by
    have ih := matchLen_le rd lim (c + 1) (p + 1)
    unfold matchLen
    split <;> omega

theorem three_le_minLen (d : Nat) : 3 ≤ minLen d := by
  rw [minLen_eq]
  split <;> omega

/-- A candidate is taken only if it is a match. -/
theorem tryWay_isMatch (rd : Nat → Byte) {level n p : Nat} {best : Nat × Nat}
    (h : best = (0, 0) ∨ IsMatch level n p best) (c : Nat) :
    tryWay rd level n p best c = (0, 0) ∨ IsMatch level n p (tryWay rd level n p best c) := by
  have hlim := (matchLen_le rd (matchLim level n p) c p).trans (matchLim_le level n p)
  simp only [tryWay]
  split
  next htaken =>
    obtain ⟨hd, hmax, hmin, _⟩ := htaken
    exact .inr ⟨hd, hmax, hmin, hlim⟩
  next => exact h

theorem search_isMatch (rd : Nat → Byte) (level n : Nat) (ht : Cells 32) (h p : Nat) :
    search rd level n ht h p = (0, 0) ∨ IsMatch level n p (search rd level n ht h p) :=
  List.foldlRecOn (motive := fun best => best = (0, 0) ∨ IsMatch level n p best) _ _ (.inl rfl)
    fun _ hbest c _ => tryWay_isMatch rd hbest c

/-! ### Emission -/

theorem emitLitsFuel_length : ∀ (fuel : Nat) (span : List Byte), span.length ≤ fuel →
    (emitLitsFuel fuel span).length = span.length + (span.length + 31) / 32
  | 0, span, h => by
    obtain rfl := List.length_eq_zero_iff.mp (Nat.le_zero.mp h)
    rfl
  | _ + 1, [], _ => rfl
  | fuel + 1, b :: bs, h => by
    have ih := emitLitsFuel_length fuel ((b :: bs).drop (min Config.litMax (b :: bs).length))
    simp only [Config.litMax, List.length_drop, List.length_cons] at ih h
    simp only [emitLitsFuel, Config.litMax, List.length_cons, List.length_append, List.length_take]
    rw [ih (by omega)]
    omega

/-- The cost of `EMIT_LITS` (R168). -/
theorem emitLits_length (span : List Byte) : (emitLits span).length = span.length + (span.length + 31) / 32 :=
  emitLitsFuel_length _ _ (Nat.le_refl _)

/-- A back-reference is shorter than the input it covers (R162, R169). -/
theorem emitMatch_length_lt {d l : Nat} (h : minLen d ≤ l) : (emitMatch d l).length + 1 ≤ l := by
  have hlong : (if l ≤ 8 then l - 2 else 7) = 7 ↔ 9 ≤ l := by split <;> omega
  rw [minLen_eq] at h
  rw [emitMatch_eq, emitExt_eq]
  simp only [hlong]
  split_ifs at h ⊢ <;> simp only [List.length_cons, List.length_append, List.length_nil, encodeExt_length] <;> omega

/-! ### The candidate table -/

/-- Every position listed in the table is below `b`. -/
def TableBelow (b : Nat) (ht : Cells 32) : Prop := ∀ c ∈ ht, c.2.toNat < b

theorem tableBelow_mono {b b' : Nat} (hb : b ≤ b') {ht : Cells 32} (h : TableBelow b ht) : TableBelow b' ht :=
  fun c hc => (h c hc).trans_le hb

theorem htAt_lt {b : Nat} (hb : 0 < b) {ht : Cells 32} (hbelow : TableBelow b ht) (h w : Nat) : htAt ht h w < b := by
  obtain hzero | hlisted := Cells.read_mem (k := wayKey h w) (c := ht)
  · rwa [htAt, hzero]
  · exact hbelow _ hlisted

theorem tableBelow_htSet {b q : Nat} (hq : q < b) {ht : Cells 32} (hbelow : TableBelow b ht) (h w : Nat) :
    TableBelow b (htSet ht h w q) := by
  intro c hc
  obtain hold | rfl := Cells.mem_write hc
  · exact hbelow c hold
  · rw [BitVec.toNat_ofNat]
    exact (Nat.mod_le _ _).trans_lt hq

theorem tableBelow_shiftWays {b : Nat} (hb : 0 < b) (h : Nat) : ∀ (w : Nat) {ht : Cells 32}, TableBelow b ht →
    TableBelow b (shiftWays ht h w)
  | 0, _, hbelow => hbelow
  | w + 1, _, hbelow => tableBelow_shiftWays hb h w (tableBelow_htSet (htAt_lt hb hbelow h w) hbelow h (w + 1))

theorem tableBelow_htInsert {b q : Nat} (hq : q < b) (level h : Nat) {ht : Cells 32} (hbelow : TableBelow b ht) :
    TableBelow b (htInsert level ht h q) :=
  tableBelow_htSet hq (tableBelow_shiftWays (Nat.zero_lt_of_lt hq) h _ hbelow) h 0

/-- In-match insertion enters only positions of its range (R166). -/
theorem tableBelow_insertCovered (rd : Nat → Byte) (level n : Nat) {b : Nat} : ∀ (k q : Nat) {ht : Cells 32}, q + k ≤ b →
    TableBelow b ht → TableBelow b (insertCovered rd level n ht q k)
  | 0, _, _, _, hbelow => hbelow
  | k + 1, q, ht, hk, hbelow => by
    refine tableBelow_insertCovered rd level n k (q + 1) (by omega) ?_
    split
    · exact tableBelow_htInsert (by omega) level _ hbelow
    · exact hbelow

end Sys2Proof.Proofs
end

section
/-! PROOFS. ENC stays sound (10_state.md R23, R33, R36; 41_encoder.md R155 to R175): its turns written out, and the output bound that
makes `Corrupt` unreachable. -/

namespace Sys2Proof.Proofs

open Sys2Proof Sys2Proof.Machine

/-- A number at most a word is kept whole by a word. -/
theorem toNat_ofNat_of_le {x : Nat} {b : Word} (h : x ≤ b.toNat) : (BitVec.ofNat 32 x).toNat = x := by
  rw [BitVec.toNat_ofNat, Nat.mod_eq_of_lt (h.trans_lt b.isLt)]

/-! ### ENC's turn, written out -/

/-- What the search finds at `ENC_IP` (R157). -/
def foundMatch (s : State) : Nat × Nat :=
  search s.encIn s.enc.jobLevel.toNat s.enc.jobIn.len.toNat s.enc.ht (hashAt s.encIn s.enc.ip.toNat) s.enc.ip.toNat

/-- The table with `ENC_IP` entered (R163). -/
def enteredTable (s : State) : Cells 32 :=
  htInsert s.enc.jobLevel.toNat s.enc.ht (hashAt s.encIn s.enc.ip.toNat) s.enc.ip.toNat

/-- The table a match at `ENC_IP` leaves: at level 2 with the covered positions entered too (R166). -/
def coveredTable (s : State) : Cells 32 :=
  if s.enc.jobLevel.toNat = 2 then
    insertCovered s.encIn s.enc.jobLevel.toNat s.enc.jobIn.len.toNat (enteredTable s) (s.enc.ip.toNat + 1)
      ((foundMatch s).1 - 1)
  else enteredTable s

/-- What a match at `ENC_IP` puts: the pending literals and the back-reference (R165). -/
def matchBytes (s : State) : List Byte :=
  emitLits (s.mem.slice s.enc.jobIn s.enc.anchor.toNat s.enc.ip.toNat) ++ emitMatch (foundMatch s).2 (foundMatch s).1

/-- What the tail flush puts (R167). -/
def flushBytes (s : State) : List Byte :=
  emitLits (s.mem.slice s.enc.jobIn s.enc.anchor.toNat s.enc.jobIn.len.toNat)

/-- A position without a match (R164). -/
theorem encPosition_of_no_match {s : State} (h : (foundMatch s).1 = 0) : encPosition s =
    s.setEnc { s.enc with ht := enteredTable s, ip := BitVec.ofNat 32 (s.enc.ip.toNat + 1) } :=
  if_pos h

/-- A position with a match whose bytes fit (R165, R166). -/
theorem encPosition_of_match {s : State} (h : (foundMatch s).1 ≠ 0)
    (hfit : s.enc.op.toNat + (matchBytes s).length ≤ s.enc.jobOut.len.toNat) : encPosition s =
    (s.setMem (s.mem.writeBytes (s.enc.jobOut.addr s.enc.op.toNat) (matchBytes s))).setEnc { s.enc with
      ht := coveredTable s
      ip := BitVec.ofNat 32 (s.enc.ip.toNat + (foundMatch s).1)
      anchor := BitVec.ofNat 32 (s.enc.ip.toNat + (foundMatch s).1)
      op := BitVec.ofNat 32 (s.enc.op.toNat + (matchBytes s).length) } := by
  have hput := encPutAll_ok (matchBytes s) (s.setEnc { s.enc with ht := enteredTable s }) hfit
  unfold matchBytes enteredTable foundMatch at hput
  unfold foundMatch at h
  simp only [encPosition, if_neg h, hput]
  rfl

/-- The tail flush whose bytes fit (R167, R171). -/
theorem encFlush_of_fit {s : State} (hfit : s.enc.op.toNat + (flushBytes s).length ≤ s.enc.jobOut.len.toNat) :
    encFlush s = (s.setMem (s.mem.writeBytes (s.enc.jobOut.addr s.enc.op.toNat) (flushBytes s))).setEnc
      { s.enc with op := BitVec.ofNat 32 (s.enc.op.toNat + (flushBytes s).length) }.finish := by
  have hput := encPutAll_ok (flushBytes s) s hfit
  unfold flushBytes at hput
  simp only [encFlush, hput]
  rfl

/-! ### The output bound (R175) -/

/-- The lengths of a match: at least 3 bytes covered, all of them left in the input, and a shorter token put. -/
theorem foundMatch_bounds {s : State} (h : (foundMatch s).1 ≠ 0) : 3 ≤ (foundMatch s).1 ∧
    (foundMatch s).1 ≤ s.enc.jobIn.len.toNat - s.enc.ip.toNat ∧
    (emitMatch (foundMatch s).2 (foundMatch s).1).length + 1 ≤ (foundMatch s).1 := by
  obtain hnone | ⟨_, _, hmin, hlim⟩ := search_isMatch s.encIn s.enc.jobLevel.toNat s.enc.jobIn.len.toNat s.enc.ht
    (hashAt s.encIn s.enc.ip.toNat) s.enc.ip.toNat
  · exact absurd (congrArg Prod.fst hnone) h
  · exact ⟨(three_le_minLen _).trans hmin, hlim, emitMatch_length_lt hmin⟩

/-- The bytes a match puts keep the output within 33 bytes for 32 of input. -/
theorem matchBytes_bound {s : State} (hrun : s.enc.Running) (h : (foundMatch s).1 ≠ 0) :
    32 * (s.enc.op.toNat + (matchBytes s).length) ≤ 33 * (s.enc.ip.toNat + (foundMatch s).1) := by
  obtain ⟨_, hanchor, _, _, hop, _⟩ := hrun
  obtain ⟨_, _, htoken⟩ := foundMatch_bounds h
  have hlen : (matchBytes s).length = (s.enc.ip.toNat - s.enc.anchor.toNat) +
      (s.enc.ip.toNat - s.enc.anchor.toNat + 31) / 32 + (emitMatch (foundMatch s).2 (foundMatch s).1).length := by
    rw [matchBytes, List.length_append, emitLits_length, Mem.slice_length]
  omega

/-- Output within 33 bytes for 32 of input fits in the capacity the checks of R151 asked for. -/
theorem fits_of_bound {u : EncUnit} (hrun : u.Running) {x : Nat} (h : 32 * x ≤ 33 * u.jobIn.len.toNat + 31) :
    x ≤ u.jobOut.len.toNat := by
  obtain ⟨hchecks, _⟩ := hrun
  obtain ⟨_, _, hcap⟩ := (encPrecheck_none _ _ _).mp hchecks
  have hreq := bound_le_reqCap u.jobIn.len.toNat
  omega

theorem matchBytes_fit {s : State} (hrun : s.enc.Running) (h : (foundMatch s).1 ≠ 0)
    (hpos : s.enc.ip.toNat + 3 ≤ s.enc.jobIn.len.toNat) :
    s.enc.op.toNat + (matchBytes s).length ≤ s.enc.jobOut.len.toNat := by
  have hbound := matchBytes_bound hrun h
  obtain ⟨_, hleft, _⟩ := foundMatch_bounds h
  exact fits_of_bound hrun (by omega)

theorem flushBytes_fit {s : State} (hrun : s.enc.Running) :
    s.enc.op.toNat + (flushBytes s).length ≤ s.enc.jobOut.len.toNat := by
  have hlen : (flushBytes s).length = (s.enc.jobIn.len.toNat - s.enc.anchor.toNat) +
      (s.enc.jobIn.len.toNat - s.enc.anchor.toNat + 31) / 32 := by
    rw [flushBytes, emitLits_length, Mem.slice_length]
  refine fits_of_bound hrun ?_
  obtain ⟨_, hanchor, hip, _, hop, _⟩ := hrun
  omega

/-! ### Running is kept -/

/-- The table with `ENC_IP` entered holds positions up to it. -/
theorem tableBelow_enteredTable {s : State} (hrun : s.enc.Running) : TableBelow (s.enc.ip.toNat + 1) (enteredTable s) := by
  obtain ⟨_, _, _, _, _, hbelow⟩ := hrun
  exact tableBelow_htInsert (Nat.lt_succ_self _) _ _ (tableBelow_mono (Nat.le_succ _) hbelow)

theorem tableBelow_coveredTable {s : State} (hrun : s.enc.Running) (h : (foundMatch s).1 ≠ 0) :
    TableBelow (s.enc.ip.toNat + (foundMatch s).1) (coveredTable s) := by
  have hentered : TableBelow (s.enc.ip.toNat + (foundMatch s).1) (enteredTable s) :=
    tableBelow_mono (by omega) (tableBelow_enteredTable hrun)
  unfold coveredTable
  split
  · exact tableBelow_insertCovered _ _ _ _ _ (by omega) hentered
  · exact hentered

theorem running_of_no_match {s : State} (hrun : s.enc.Running) (hpos : s.enc.ip.toNat + 3 ≤ s.enc.jobIn.len.toNat) :
    EncUnit.Running { s.enc with ht := enteredTable s, ip := BitVec.ofNat 32 (s.enc.ip.toNat + 1) } := by
  have hbelow := tableBelow_enteredTable hrun
  obtain ⟨hchecks, hanchor, _, hcap, hop, _⟩ := hrun
  have hip : (BitVec.ofNat 32 (s.enc.ip.toNat + 1)).toNat = s.enc.ip.toNat + 1 :=
    toNat_ofNat_of_le (b := s.enc.jobIn.len) (by omega)
  simp only [EncUnit.Running, hip]
  exact ⟨hchecks, by omega, by omega, hcap, hop, hbelow⟩

theorem running_of_match {s : State} (hrun : s.enc.Running) (h : (foundMatch s).1 ≠ 0)
    (hpos : s.enc.ip.toNat + 3 ≤ s.enc.jobIn.len.toNat) :
    EncUnit.Running { s.enc with
      ht := coveredTable s
      ip := BitVec.ofNat 32 (s.enc.ip.toNat + (foundMatch s).1)
      anchor := BitVec.ofNat 32 (s.enc.ip.toNat + (foundMatch s).1)
      op := BitVec.ofNat 32 (s.enc.op.toNat + (matchBytes s).length) } := by
  have hbelow := tableBelow_coveredTable hrun h
  have hbound := matchBytes_bound hrun h
  have hfit := matchBytes_fit hrun h hpos
  obtain ⟨_, hleft, _⟩ := foundMatch_bounds h
  obtain ⟨hchecks, _⟩ := hrun
  have hip : (BitVec.ofNat 32 (s.enc.ip.toNat + (foundMatch s).1)).toNat = s.enc.ip.toNat + (foundMatch s).1 :=
    toNat_ofNat_of_le (b := s.enc.jobIn.len) (by omega)
  have hop := toNat_ofNat_of_le hfit
  simp only [EncUnit.Running, hip, hop]
  exact ⟨hchecks, Nat.le_refl _, by omega, hfit, hbound, hbelow⟩

/-! ### Sound is kept -/

/-- What soundness says of a unit that is BUSY. -/
theorem encSound_iff_of_busy {u : EncUnit} (hbusy : u.status = .busy) :
    u.Sound ↔ u.err = .none ∧ u.outLen = 0#32 ∧ u.Running := by
  simp +contextual [EncUnit.Sound, hbusy]

theorem encSound_of_running {u : EncUnit} (hbusy : u.status = .busy) (herr : u.err = .none) (hout : u.outLen = 0#32)
    (hrun : u.Running) : u.Sound :=
  (encSound_iff_of_busy hbusy).mpr ⟨herr, hout, hrun⟩

theorem err_ne_corrupt_of_encSound {u : EncUnit} (hsound : u.Sound) : u.err ≠ .corrupt := by
  obtain ⟨_, hcorrupt, _⟩ := hsound
  exact hcorrupt

theorem encFinish_sound (u : EncUnit) : u.finish.Sound := by
  simp [EncUnit.Sound, EncUnit.finish]

/-- Any error but `Corrupt` leaves ENC sound (R264). -/
theorem encRaise_sound (u : EncUnit) {e : ErrCode} (hnone : e ≠ .none) (hcorrupt : e ≠ .corrupt) : (u.raise e).Sound := by
  simp [EncUnit.Sound, EncUnit.raise, hnone, hcorrupt]

theorem encReset_sound : EncUnit.reset.Sound := by
  simp [EncUnit.Sound, EncUnit.reset]

/-- The checks of R151 report neither success nor `Corrupt` as their error. -/
theorem encPrecheck_error {level n cap : Nat} {e : ErrCode} (h : encPrecheck level n cap = some e) :
    e ≠ .none ∧ e ≠ .corrupt := by
  unfold encPrecheck at h
  split_ifs at h <;> cases h <;> simp

/-- START with the checks passed: the cursors at 0 and the table empty (R154). -/
theorem encStart_sound {u : EncUnit} (h : encPrecheck u.level.toNat u.input.len.toNat u.output.len.toNat = none) :
    u.start.Sound :=
  encSound_of_running rfl rfl rfl
    ⟨h, Nat.le_refl 0, Nat.zero_le _, Nat.zero_le _, Nat.le_refl 0, fun _ hc => nomatch hc⟩

theorem encPosition_sound {s : State} (hbusy : s.enc.status = .busy) (hsound : s.enc.Sound)
    (hpos : s.enc.ip.toNat + 3 ≤ s.enc.jobIn.len.toNat) : (encPosition s).enc.Sound := by
  obtain ⟨herr, hout, hrun⟩ := (encSound_iff_of_busy hbusy).mp hsound
  by_cases h : (foundMatch s).1 = 0
  · rw [encPosition_of_no_match h]
    exact encSound_of_running hbusy herr hout (running_of_no_match hrun hpos)
  · rw [encPosition_of_match h (matchBytes_fit hrun h hpos)]
    exact encSound_of_running hbusy herr hout (running_of_match hrun h hpos)

theorem encFlush_sound {s : State} (hrun : s.enc.Running) : (encFlush s).enc.Sound := by
  rw [encFlush_of_fit (flushBytes_fit hrun)]
  exact encFinish_sound _

theorem encTurn_sound {s : State} (hsound : s.enc.Sound) : (encTurn s).enc.Sound := by
  unfold encTurn
  split
  next hbusy =>
    rw [State.busy_enc] at hbusy
    obtain ⟨_, _, hrun⟩ := (encSound_iff_of_busy hbusy).mp hsound
    split
    next hpos => exact encPosition_sound hbusy hsound hpos
    next => exact encFlush_sound hrun
  next => exact hsound

theorem step_keeps_encSound {s t : State} (hsound : s.enc.Sound) (h : step s = .next t) : t.enc.Sound := by
  obtain hsame | ⟨_, rfl⟩ | ⟨_, _, _, _, hoperand⟩ | ⟨_, hreset, _⟩ | ⟨_, _, _, _, ⟨e, he, hraise⟩ | ⟨hchecks, hstart⟩⟩ :=
    step_enc_cases h
  · rwa [hsame]
  · exact encTurn_sound (s := s.popTurn) hsound
  · rw [hoperand]
    exact hsound
  · rw [hreset]
    exact encReset_sound
  · obtain ⟨hnone, hcorrupt⟩ := encPrecheck_error he
    rw [hraise]
    exact encRaise_sound s.enc hnone hcorrupt
  · rw [hstart]
    exact encStart_sound hchecks

/-- Settles O56: every step keeps ENC sound, and a sound ENC has not reported `Corrupt`. -/
theorem encStaysSoundAndNeverCorrupt : Obligations.EncStaysSoundAndNeverCorrupt := by
  intro s t hsound h
  have hkept := step_keeps_encSound hsound h
  exact ⟨hkept, err_ne_corrupt_of_encSound hkept⟩

end Sys2Proof.Proofs
end

section
/-! PROOFS. The frames of a step (10_state.md R20, R24, R40 to R42; 20_memory.md R60; 42_decoder.md R214): whose turn changes which unit,
which bytes of memory a unit's turn writes, and the canonical form of memory and of the candidate table. -/

namespace Sys2Proof.Proofs

open Sys2Proof Sys2Proof.Machine

/-! ### Whose turn it is -/

theorem step_of_mover_adl {s t : State} (hm : s.mover = .adl) (h : step s = .next t) : t = adlTurn s.popTurn := by
  simp only [step, hm, Host.Outcome.next.injEq] at h
  exact h.symm

theorem step_of_mover_enc {s t : State} (hm : s.mover = .enc) (h : step s = .next t) : t = encTurn s.popTurn := by
  simp only [step, hm, Host.Outcome.next.injEq] at h
  exact h.symm

theorem step_of_mover_dec {s t : State} (hm : s.mover = .dec) (h : step s = .next t) : decTurn s.popTurn = .next t := by
  simpa only [step, hm] using h

theorem adlTurn_others (s : State) : (adlTurn s).enc = s.enc ∧ (adlTurn s).dec = s.dec ∧ (adlTurn s).mem = s.mem ∧
    (adlTurn s).platform = s.platform := by
  rw [(adlTurn_frame s).1]
  exact ⟨rfl, rfl, rfl, rfl⟩

theorem encTurn_others (s : State) : (encTurn s).adl = s.adl ∧ (encTurn s).dec = s.dec ∧
    (encTurn s).platform = s.platform := by
  rw [(encTurn_frame s).1]
  exact ⟨rfl, rfl, rfl⟩

/-- Settles O12: the turn that the mover's step is leaves the other two units. -/
theorem unitsDoNotTouchEachOther : Obligations.UnitsDoNotTouchEachOther := by
  refine fun s t h => ⟨fun hm => ?_, fun hm => ?_, fun hm => ?_⟩
  · obtain ⟨henc, hdec, _⟩ := adlTurn_others s.popTurn
    rw [step_of_mover_adl hm h]
    exact ⟨henc, hdec⟩
  · obtain ⟨hadl, hdec, _⟩ := encTurn_others s.popTurn
    rw [step_of_mover_enc hm h]
    exact ⟨hadl, hdec⟩
  · obtain ⟨hadl, henc, _⟩ := decTurn_others (step_of_mover_dec hm h)
    exact ⟨hadl, henc⟩

/-! ### Memory under a unit's turn -/

/-- ENC's turn keeps memory canonical and writes only its output buffer. -/
theorem encTurn_mem {s : State} (hw : Memory.wf s.mem = true) : Memory.wf (encTurn s).mem = true ∧
    ∀ a, s.enc.jobOut.holds a = false → (encTurn s).mem.read a = s.mem.read a := by
  obtain ⟨_, _, _, _, _, _, _, _, hmem⟩ := encTurn_frame s
  exact hmem hw

/-- A token keeps memory canonical and writes only DEC's output buffer. -/
theorem execToken_mem {i : Instr} (hi : i.isToken = true) {s t : State} (hw : Memory.wf s.mem = true)
    (h : exec i s = .next t) : Memory.wf t.mem = true ∧
    ∀ a, s.dec.jobOut.holds a = false → t.mem.read a = s.mem.read a := by
  obtain ⟨t', hexec, _, _, _, _, _, hmem⟩ := execToken_frame i hi s
  obtain rfl : t' = t := by simpa only [hexec, Host.Outcome.next.injEq] using h
  exact hmem hw

/-- DEC's turn keeps memory canonical and writes only its output buffer. -/
theorem decTurn_mem {s t : State} (hw : Memory.wf s.mem = true) (h : decTurn s = .next t) : Memory.wf t.mem = true ∧
    ∀ a, s.dec.jobOut.holds a = false → t.mem.read a = s.mem.read a := by
  obtain ⟨_, rfl⟩ | ⟨_, _, rfl⟩ | ⟨_, _, rfl⟩ | ⟨_, _, i, _, _, hi, hexec⟩ := decTurn_cases h
  · exact ⟨hw, fun _ _ => rfl⟩
  · exact ⟨hw, fun _ _ => rfl⟩
  · exact ⟨hw, fun _ _ => rfl⟩
  · exact execToken_mem hi hw hexec

/-- Settles O13: the memory frame of the mover's turn. -/
theorem unitsWriteOnlyTheirOutputBuffer : Obligations.UnitsWriteOnlyTheirOutputBuffer := by
  refine fun s t hw h => ⟨fun hm => ?_, fun hm => ?_, fun hm => ?_⟩
  · obtain ⟨_, _, hmem, _⟩ := adlTurn_others s.popTurn
    rw [step_of_mover_adl hm h, hmem, State.popTurn_mem]
  · rw [step_of_mover_enc hm h]
    exact (encTurn_mem (s := s.popTurn) hw).2
  · exact (decTurn_mem (s := s.popTurn) hw (step_of_mover_dec hm h)).2

/-! ### The host's action -/

/-- What an access decodes to is a host command. -/
theorem isToken_of_decodeAccess {a : Access} {i : Instr} (h : decodeAccess a = some i) : i.isToken = false := by
  obtain ⟨_, rfl⟩ | ⟨_, rfl⟩ | ⟨_, rfl⟩ | ⟨_, rfl⟩ | ⟨_, _, rfl⟩ | ⟨_, rfl⟩ := decodeAccess_cases h <;> rfl

/-- An action of the host keeps memory canonical and the platform's parameters as they are. -/
theorem runAction_keeps_memWf_platform {a : HostAction} {s t : State} (hw : Memory.wf s.mem = true)
    (h : runAction a s = .next t) : Memory.wf t.mem = true ∧ t.platform = s.platform := by
  obtain ⟨acc, i, _, hdecode, hexec⟩ | ⟨acc, _, _, rfl⟩ | ⟨addr, b, _, _, rfl⟩ | ⟨addr, _, rfl⟩ | ⟨_, rfl⟩ := runAction_cases h
  · have hi := isToken_of_decodeAccess hdecode
    obtain ⟨_, _, _, hplatform⟩ := execCommand_others hi hexec
    rw [execCommand_mem hi hexec]
    exact ⟨hw, hplatform⟩
  · obtain ⟨hmem, hplatform⟩ := State.plainAccess_mem s acc
    rw [hmem]
    exact ⟨hw, hplatform⟩
  · exact ⟨Memory.wf_write addr b hw, rfl⟩
  · exact ⟨hw, rfl⟩
  · exact ⟨Memory.wf_scrambleBufs s.freeCount s.outBufs hw, rfl⟩

/-! ### The canonical form -/

theorem step_keeps_memWf_platform {s t : State} (hw : Memory.wf s.mem = true) (h : step s = .next t) :
    Memory.wf t.mem = true ∧ t.platform = s.platform := by
  obtain ⟨_, rfl⟩ | ⟨_, rfl⟩ | ⟨_, hturn⟩ | ⟨_, _, rfl⟩ | ⟨_, a, rest, _, haction⟩ := step_cases h
  · obtain ⟨_, _, hmem, hplatform⟩ := adlTurn_others s.popTurn
    rw [hmem]
    exact ⟨hw, hplatform⟩
  · obtain ⟨_, _, hplatform⟩ := encTurn_others s.popTurn
    exact ⟨(encTurn_mem (s := s.popTurn) hw).1, hplatform⟩
  · obtain ⟨_, _, hplatform⟩ := decTurn_others hturn
    exact ⟨(decTurn_mem (s := s.popTurn) hw hturn).1, hplatform⟩
  · exact ⟨hw, rfl⟩
  · exact runAction_keeps_memWf_platform (s := s.popTurn.setHostQueue rest) hw haction

/-- The table is written by ENC's turn alone, and cleared by START and reset. -/
theorem step_keeps_tableWf {s t : State} (hw : s.enc.ht.wf = true) (h : step s = .next t) : t.enc.ht.wf = true := by
  obtain hsame | ⟨_, rfl⟩ | ⟨_, _, _, _, hoperand⟩ | ⟨_, hreset, _⟩ | ⟨_, _, _, _, ⟨_, _, hraise⟩ | ⟨_, hstart⟩⟩ :=
    step_enc_cases h
  · rwa [hsame]
  · obtain ⟨_, _, _, _, _, _, _, htable, _⟩ := encTurn_frame s.popTurn
    exact htable hw
  · rwa [hoperand]
  · rw [hreset]
    rfl
  · rwa [hraise]
  · rw [hstart]
    rfl

/-- Settles O54: memory by whose turn it is, the table by what a step can do to ENC. -/
theorem canonicalFormIsKept : Obligations.CanonicalFormIsKept := by
  intro s t ⟨hmem, htable⟩ h
  obtain ⟨hmem', hplatform⟩ := step_keeps_memWf_platform hmem h
  exact ⟨⟨hmem', step_keeps_tableWf htable h⟩, hplatform⟩

end Sys2Proof.Proofs
end

section
/-! PROOFS. ADL and DEC stay sound (10_state.md R25, R31, R33, R36; 40_checksum.md R134; 42_decoder.md R202 to R213). -/

namespace Sys2Proof.Proofs

open Sys2Proof Sys2Proof.Machine

/-! ### ADL -/

/-- The end of the loop of R134: either it is reached, or a byte is left. -/
theorem adlSettle_sound {u : AdlUnit} (hstatus : u.status ≠ .fault) (herr : u.err = .none) : u.settle.Sound := by
  obtain ⟨_, hend⟩ | ⟨hleft, hrunning⟩ := AdlUnit.settle_cases u
  · rw [hend]
    exact ⟨by simp [AdlUnit.finish], herr, by simp [AdlUnit.finish]⟩
  · rw [hrunning]
    exact ⟨hstatus, herr, fun _ => hleft⟩

theorem adlInit_sound (u : AdlUnit) : u.init.Sound := by
  simp [AdlUnit.Sound, AdlUnit.init]

theorem adlReset_sound : AdlUnit.reset.Sound := by
  simp [AdlUnit.Sound, AdlUnit.reset]

theorem adlStart_sound (u : AdlUnit) : u.start.Sound :=
  adlSettle_sound (by simp) rfl

theorem adlTurn_sound {s : State} (hsound : s.adl.Sound) : (adlTurn s).adl.Sound := by
  have ⟨hstatus, herr, _⟩ := hsound
  unfold adlTurn
  split
  · split
    · exact adlSettle_sound hstatus herr
    · exact adlSettle_sound hstatus herr
  · exact hsound

/-- Settles O55, by what a step can do to ADL. -/
theorem adlStaysSound : Obligations.AdlStaysSound := by
  intro s t hsound h
  obtain hsame | ⟨_, rfl⟩ | ⟨_, _, hoperand⟩ | ⟨_, hreset, _⟩ |
    ⟨_, _, _, _, _, ⟨_, hinit⟩ | ⟨_, hstart⟩ | ⟨_, _, hload⟩⟩ := step_adl_cases h
  · rwa [hsame]
  · exact adlTurn_sound (s := s.popTurn) hsound
  · rw [hoperand]
    exact hsound
  · rw [hreset]
    exact adlReset_sound
  · rw [hinit]
    exact adlInit_sound s.adl
  · rw [hstart]
    exact adlStart_sound s.adl
  · rw [hload]
    exact hsound

/-! ### DEC -/

theorem decFinish_sound (u : DecUnit) : u.finish.Sound := by
  simp [DecUnit.Sound, DecUnit.finish]

/-- `Corrupt` leaves DEC sound (R262, R264). -/
theorem decRaise_sound (u : DecUnit) : (u.raise .corrupt).Sound := by
  simp [DecUnit.Sound, DecUnit.raise]

theorem decReset_sound : DecUnit.reset.Sound := by
  simp [DecUnit.Sound, DecUnit.reset]

/-- What soundness says of a unit that is BUSY. -/
theorem decSound_iff_of_busy {u : DecUnit} (hbusy : u.status = .busy) : u.Sound ↔
    u.err = .none ∧ u.outLen = 0#32 ∧ u.ip.toNat < u.jobIn.len.toNat ∧ u.op.toNat ≤ u.jobOut.len.toNat := by
  simp +contextual [DecUnit.Sound, hbusy]

theorem decStart_sound {u : DecUnit} (h : u.input.len.toNat ≠ 0) : u.start.Sound :=
  (decSound_iff_of_busy rfl).mpr ⟨rfl, rfl, Nat.pos_of_ne_zero h, Nat.zero_le _⟩

/-- The end of the loop of R202: either it is reached, or a byte is left. -/
theorem decSettle_sound {u : DecUnit} (hbusy : u.status = .busy) (herr : u.err = .none) (hout : u.outLen = 0#32)
    (hop : u.op.toNat ≤ u.jobOut.len.toNat) : u.settle.Sound := by
  unfold DecUnit.settle
  split
  next => exact decFinish_sound u
  next hleft => exact (decSound_iff_of_busy hbusy).mpr ⟨herr, hout, Nat.lt_of_not_le hleft, hop⟩

/-- What a token of `tlen` bytes that outputs `len` bytes can make of a running decompression: `Corrupt`, or its output with the cursors
moved inside the buffers (R203 to R213). -/
def TokenResult (s : State) (tlen len : Nat) (t : State) : Prop :=
  t = s.raise .dec .corrupt ∨
  ∃ m, s.dec.ip.toNat + tlen ≤ s.dec.jobIn.len.toNat ∧ s.dec.op.toNat + len ≤ s.dec.jobOut.len.toNat ∧
    t = s.decRetire m tlen len

theorem decLiteral_result (tlen : Nat) (data : List Byte) {s : State} (hbusy : s.busy .dec = true) :
    TokenResult s tlen data.length (decLiteral tlen data s) := by
  obtain ⟨hidle, _⟩ | ⟨_, _, hraise⟩ | ⟨_, hin, hfit, hretire⟩ := decLiteral_cases tlen data s
  · simp [hbusy] at hidle
  · exact .inl hraise
  · exact .inr ⟨_, hin, hfit, hretire⟩

theorem decMatch_result (tlen dist len : Nat) {s : State} (hbusy : s.busy .dec = true) :
    TokenResult s tlen len (decMatch tlen dist len s) := by
  obtain ⟨hidle, _⟩ | ⟨_, _, hraise⟩ | ⟨_, hin, _, hfit, hretire⟩ := decMatch_cases tlen dist len s
  · simp [hbusy] at hidle
  · exact .inl hraise
  · exact .inr ⟨_, hin, hfit, hretire⟩

/-- Every token executed ends in one of its results. -/
theorem execToken_result {i : Instr} (hi : i.isToken = true) {s : State} (hbusy : s.busy .dec = true) :
    ∃ t, exec i s = .next t ∧ TokenResult s i.tlen (outputBytes i) t := by
  cases i with
  | lit data => exact ⟨_, rfl, decLiteral_result _ data hbusy⟩
  | matchSn dist len => exact ⟨_, rfl, decMatch_result _ dist len hbusy⟩
  | matchSf dist len => exact ⟨_, rfl, decMatch_result _ dist len hbusy⟩
  | matchLn dist len => exact ⟨_, rfl, decMatch_result _ dist len hbusy⟩
  | matchLf dist len => exact ⟨_, rfl, decMatch_result _ dist len hbusy⟩
  | adlInit | adlUpdate | adlLoad | adlRead | encCompress | decDecompress => cases hi

theorem tokenResult_sound {s t : State} {tlen len : Nat} (hbusy : s.dec.status = .busy) (hsound : s.dec.Sound)
    (h : TokenResult s tlen len t) : t.dec.Sound := by
  obtain rfl | ⟨m, _, hfit, rfl⟩ := h
  · exact decRaise_sound s.dec
  · obtain ⟨herr, hout, _⟩ := (decSound_iff_of_busy hbusy).mp hsound
    have hop := toNat_ofNat_of_le hfit
    exact decSettle_sound (u := s.dec.advance tlen len) hbusy herr hout (hop.trans_le hfit)

theorem decTurn_sound {s t : State} (hsound : s.dec.Sound) (h : decTurn s = .next t) : t.dec.Sound := by
  obtain ⟨_, rfl⟩ | ⟨_, _, rfl⟩ | ⟨_, _, rfl⟩ | ⟨hbusy, _, i, _, _, hi, hexec⟩ := decTurn_cases h
  · exact hsound
  · exact decFinish_sound s.dec
  · exact decRaise_sound s.dec
  · obtain ⟨t', hnext, hresult⟩ := execToken_result hi hbusy
    obtain rfl : t' = t := by simpa only [hnext, Host.Outcome.next.injEq] using hexec
    exact tokenResult_sound ((State.busy_dec s).mp hbusy) hsound hresult

/-- Settles O57, by what a step can do to DEC. -/
theorem decStaysSound : Obligations.DecStaysSound := by
  intro s t hsound h
  obtain hsame | ⟨_, hturn⟩ | ⟨_, _, _, hoperand⟩ | ⟨_, hreset, _⟩ | ⟨_, _, _, _, ⟨_, hraise⟩ | ⟨hinput, hstart⟩⟩ :=
    step_dec_cases h
  · rwa [hsame]
  · exact decTurn_sound (s := s.popTurn) hsound hturn
  · rw [hoperand]
    exact hsound
  · rw [hreset]
    exact decReset_sound
  · rw [hraise]
    exact decRaise_sound s.dec.start
  · rw [hstart]
    exact decStart_sound hinput

end Sys2Proof.Proofs
end

section
/-! PROOFS. The host's registers (10_state.md R29 to R39; 70_reset_and_hazards.md R299) and the state after reset (R47, R291). -/

namespace Sys2Proof.Proofs

open Sys2Proof Sys2Proof.Machine

/-! ### Accesses -/

/-- An access that is a command runs it. -/
theorem runAction_of_command {a : Access} {i : Instr} (h : decodeAccess a = some i) (s : State) :
    runAction (.access a) s = exec i s := by
  simp only [runAction, decode, h]

/-- An access that is no command is a plain one. -/
theorem runAction_of_plain {a : Access} (h : decodeAccess a = none) (s : State) :
    runAction (.access a) s = .next (s.plainAccess a) := by
  simp only [runAction, decode, h]

/-- Every read of a register is `readReg`, that of `ADL_SUM` by way of its command (R135). -/
theorem runAction_read (s : State) (u : UnitId) (r : RegNo) : runAction (.access (.read u r)) s = .next (s.readReg u r) := by
  cases u <;> cases r <;> rfl

/-- A read whose value R299 does not leave open. -/
theorem readReg_of_defined {s : State} {u : UnitId} {r : RegNo} (h : s.busy u = true → volatileReg u r = false) :
    s.readReg u r = s.setHostData (s.reg u r) := by
  cases hb : s.busy u
  · simp [State.readReg, hb]
  · simp [State.readReg, h hb]

/-- A read changes what the host holds and the count of free values alone. -/
theorem readReg_frame (s : State) (u : UnitId) (r : RegNo) :
    { s.readReg u r with hostData := s.hostData, freeCount := s.freeCount } = s := by
  unfold State.readReg
  split <;> rfl

/-! ### CMD -/

/-- The START instruction of a unit (R30). -/
def startOf : UnitId → Instr
  | .adl => .adlUpdate
  | .enc => .encCompress
  | .dec => .decDecompress

theorem decodeAccess_start (u : UnitId) : decodeAccess (.write u .cmd 1) = some (startOf u) := by
  cases u <;> rfl

theorem decodeAccess_cmd_none {u : UnitId} {v : Nat} (h1 : v ≠ 1) (h2 : v ≠ 2 ∨ u ≠ .adl) :
    decodeAccess (.write u .cmd v) = none := by
  cases u <;> simp_all [decodeAccess]

theorem writeReg_cmd (s : State) (u : UnitId) (v : Nat) : s.writeReg u .cmd v = s := by
  cases u <;> rfl

/-- START of a BUSY unit is ignored (R30, R299). -/
theorem execStart_of_busy {s : State} {u : UnitId} (h : s.busy u = true) : exec (startOf u) s = .next s := by
  cases u <;> simp [startOf, exec, execAdlUpdate, execEncCompress, execDecDecompress, h]

theorem execAdlInit_of_busy {s : State} (h : s.busy .adl = true) : exec .adlInit s = .next s := by
  simp [exec, execAdlInit, h]

/-- A `CMD` value that is no command has no effect (R30). -/
theorem runAction_cmd_ignored {u : UnitId} {v : Nat} (h1 : v ≠ 1) (h2 : v ≠ 2 ∨ u ≠ .adl) (s : State) :
    runAction (.access (.write u .cmd v)) s = .next s := by
  rw [runAction_of_plain (decodeAccess_cmd_none h1 h2), State.plainAccess, writeReg_cmd]

theorem runAction_cmd_of_busy {s : State} {u : UnitId} (h : s.busy u = true) (v : Nat) :
    runAction (.access (.write u .cmd v)) s = .next s := by
  by_cases h1 : v = 1
  · subst h1
    rw [runAction_of_command (decodeAccess_start u), execStart_of_busy h]
  by_cases h2 : v = 2 ∧ u = .adl
  · obtain ⟨rfl, rfl⟩ := h2
    rw [runAction_of_command rfl, execAdlInit_of_busy h]
  · exact runAction_cmd_ignored h1 (Decidable.not_and_iff_or_not.mp h2) s

/-- Settles O45, value by value of `CMD`. -/
theorem commandRegisterValues : Obligations.CommandRegisterValues := by
  refine fun s u v => ⟨?_, ?_, fun h1 h2 => runAction_cmd_ignored h1 h2 s, fun h => runAction_cmd_of_busy h v, ?_⟩
  · rintro rfl
    rw [runAction_of_command (decodeAccess_start u)]
    cases u <;> rfl
  · rintro rfl rfl
    exact runAction_of_command rfl s
  · have hdefined : volatileReg u .cmd = false := by cases u <;> rfl
    rw [runAction_read, readReg_of_defined fun _ => hdefined]
    cases u <;> rfl

/-! ### Reads -/

/-- The reads R299 leaves open are those of `ERR`, of `OUT_LEN` but for ADL, and of `ADL_SUM`. -/
theorem volatileReg_eq_false_iff (u : UnitId) (r : RegNo) :
    volatileReg u r = false ↔ r ≠ .err ∧ (u = .adl ∨ r ≠ .outLen) ∧ (u ≠ .adl ∨ r ≠ .reg8) := by
  cases u <;> cases r <;> decide

theorem readReg_hostData {s : State} {u : UnitId} {r : RegNo} (h : s.busy u = true → volatileReg u r = false) :
    (s.readReg u r).hostData = s.reg u r := by
  rw [readReg_of_defined h, State.setHostData_hostData]

theorem readReg_hostData_of_not_busy {s : State} {u : UnitId} (h : s.busy u = false) (r : RegNo) :
    (s.readReg u r).hostData = s.reg u r :=
  readReg_hostData fun hb => absurd hb (by simp [h])

/-- Only `ERR`, `OUT_LEN` and number 8 can be open in any unit (R299). -/
theorem volatileReg_eq_false {r : RegNo} (h : r ≠ .err ∧ r ≠ .outLen ∧ r ≠ .reg8) (u : UnitId) : volatileReg u r = false := by
  obtain ⟨herr, hout, hsum⟩ := h
  exact (volatileReg_eq_false_iff u r).mpr ⟨herr, .inr hout, .inr hsum⟩

/-- `ADL_SUM` as a number (R22). -/
theorem reg_adl_sum (s : State) : s.reg .adl .reg8 = s.adl.s2.toNat * 65536 + s.adl.s1.toNat :=
  lanes_toNat s.adl.s2 s.adl.s1

/-- Settles O46: every read is `readReg`, and the value of each register is written out unit by unit. -/
theorem registerReads : Obligations.RegisterReads := by
  intro s u r
  refine ⟨_, runAction_read s u r, fun h => readReg_of_defined fun hb => (volatileReg_eq_false_iff u r).mpr (h hb),
    readReg_frame s u r, ?status, ?err, ?cmd, ?inBase, ?inLen, ?outBase, ?outCap, ?outLen, ?reg8⟩
  case status =>
    rintro rfl
    rw [readReg_of_defined fun _ => volatileReg_eq_false (by decide) u]
    exact ⟨rfl, by cases u <;> rfl⟩
  case cmd | inBase | inLen | outBase | outCap =>
    rintro rfl
    rw [readReg_hostData fun _ => volatileReg_eq_false (by decide) u]
    cases u <;> rfl
  case err | outLen =>
    rintro rfl hb
    rw [readReg_hostData_of_not_busy hb]
    cases u <;> rfl
  case reg8 =>
    rintro rfl
    refine ⟨?_, ?_, ?_⟩
    · rintro rfl hb
      rw [readReg_hostData_of_not_busy hb, reg_adl_sum]
    · rintro rfl
      exact readReg_hostData fun _ => rfl
    · rintro rfl
      exact readReg_hostData fun _ => rfl

/-! ### Writes -/

/-- The operand registers each unit has (R32, R35). -/
def IsOperand (u : UnitId) (r : RegNo) : Prop :=
  r = .inBase ∨ r = .inLen ∨ (u ≠ .adl ∧ (r = .outBase ∨ r = .outCap)) ∨ (u = .enc ∧ r = .reg8)

/-- A write to any register but `CMD` and `ADL_SUM` is a plain one (R110). -/
theorem runAction_write {u : UnitId} {r : RegNo} (hcmd : r ≠ .cmd) (hsum : u = .adl → r ≠ .reg8) (s : State) (v : Nat) :
    runAction (.access (.write u r v)) s = .next (s.writeReg u r v) := by
  have hplain : decodeAccess (.write u r v) = none := by
    cases u <;> cases r <;> simp [decodeAccess] at hcmd hsum ⊢
  rw [runAction_of_plain hplain, State.plainAccess]

theorem writeReg_of_not_operand {u : UnitId} {r : RegNo} (h : ¬ IsOperand u r) (s : State) (v : Nat) :
    s.writeReg u r v = s := by
  cases u <;> cases r <;> simp [IsOperand] at h <;> rfl

/-- An operand register holds the written value cut to its width (log entry 12). -/
theorem writeReg_reg_same {u : UnitId} {r : RegNo} (h : IsOperand u r) (s : State) (v : Nat) :
    (s.writeReg u r v).reg u r = v % 2 ^ (if r = .inBase ∨ r = .outBase then s.platform.addrBits else 32) := by
  cases u <;> cases r <;>
    simp [IsOperand] at h <;>
    simp [State.writeReg, State.reg, AdlUnit.reg, EncUnit.reg, DecUnit.reg, keepBase]

/-- A write leaves every register of the other units. -/
theorem writeReg_reg_of_unit_ne {u u' : UnitId} (h : u' ≠ u) (s : State) (r r' : RegNo) (v : Nat) :
    (s.writeReg u r v).reg u' r' = s.reg u' r' := by
  cases u <;> cases u' <;> simp at h <;> cases r <;> rfl

/-- A write leaves every other register of its unit. -/
theorem writeReg_reg_of_number_ne {r r' : RegNo} (h : r' ≠ r) (s : State) (u : UnitId) (v : Nat) :
    (s.writeReg u r v).reg u r' = s.reg u r' := by
  cases u <;> cases r <;> cases r' <;> simp at h <;> rfl

/-- A write changes operand registers alone: no running operation, latched operand, table, cursor or byte of memory (R299). -/
theorem writeReg_frame (s : State) (u : UnitId) (r : RegNo) (v : Nat) :
    { s.writeReg u r v with
      adl := { (s.writeReg u r v).adl with input := s.adl.input }
      enc := { (s.writeReg u r v).enc with input := s.enc.input, output := s.enc.output, level := s.enc.level }
      dec := { (s.writeReg u r v).dec with input := s.dec.input, output := s.dec.output } } = s := by
  cases u <;> cases r <;> rfl

/-- Settles O47: the write is `writeReg`, with its value, its frame in the registers and its frame in the state. -/
theorem operandWriteChangesOnlyTheRegister : Obligations.OperandWriteChangesOnlyTheRegister := by
  intro s u r v (h : IsOperand u r)
  have hcmd : r ≠ .cmd := by rintro rfl; simp [IsOperand] at h
  have hsum : u = .adl → r ≠ .reg8 := by rintro rfl rfl; simp [IsOperand] at h
  refine ⟨_, runAction_write hcmd hsum s v, writeReg_reg_same h s v, fun u' r' hne => ?_, writeReg_frame s u r v⟩
  by_cases hu : u' = u
  · subst hu
    exact writeReg_reg_of_number_ne (fun hr => hne (congrArg (Prod.mk u') hr)) s u' v
  · exact writeReg_reg_of_unit_ne hu s r r' v

/-- A number the unit lacks reads 0 and takes no write (R32). -/
theorem absentRegister {u : UnitId} {r : RegNo}
    (h : (u = .adl ∧ (r = .outBase ∨ r = .outCap ∨ r = .outLen)) ∨ (u = .dec ∧ r = .reg8)) (s : State) (v : Nat) :
    runAction (.access (.read u r)) s = .next { s with hostData := 0 } ∧
    runAction (.access (.write u r v)) s = .next s := by
  obtain ⟨rfl, rfl | rfl | rfl⟩ | ⟨rfl, rfl⟩ := h
  all_goals
    refine ⟨?_, ?_⟩
    · rw [runAction_read, readReg_of_defined fun _ => rfl]
      rfl
    · rw [runAction_write (by decide) (by decide), writeReg_of_not_operand (by simp [IsOperand])]

theorem runAction_write_readOnly {r : RegNo} (h : r = .status ∨ r = .err ∨ r = .outLen) (s : State) (u : UnitId) (v : Nat) :
    runAction (.access (.write u r v)) s = .next s := by
  obtain rfl | rfl | rfl := h
  all_goals rw [runAction_write (by decide) (by simp), writeReg_of_not_operand (by simp [IsOperand])]

/-- Settles O48: the numbers a unit lacks, then the read-only registers. -/
theorem absentAndReadOnlyRegisters : Obligations.AbsentAndReadOnlyRegisters :=
  fun s u _ v => ⟨fun h => absentRegister h s v, fun h => runAction_write_readOnly h s u v⟩

/-! ### Reset -/

/-- Settles O52: the reset state and the three first STARTs by evaluation (no buffer of ADL's START needs backing, its input being
empty). -/
theorem resetValuesAndFirstStart : Obligations.ResetValuesAndFirstStart := by
  refine ⟨rfl, fun u => ?_, rfl, rfl, rfl, rfl, rfl, rfl, ⟨_, rfl, rfl, rfl⟩, ⟨_, rfl, rfl, rfl⟩, ⟨_, rfl, rfl, rfl⟩⟩
  cases u <;> exact ⟨rfl, rfl, rfl, rfl, rfl⟩

/-- With no unit running nothing is said of buffers (R73, R76). -/
theorem apart_of_not_busy {s : State} (h : ∀ u, s.busy u = false) : s.Apart := by
  simp [State.Apart, h]

theorem reset_busy (u : UnitId) : State.reset.busy u = false := by
  cases u <;> rfl

/-- Settles O59: each unit's reset values are sound, memory and the table are empty, and no unit runs. -/
theorem resetIsSound : Obligations.ResetIsSound :=
  ⟨⟨rfl, rfl⟩, adlReset_sound, encReset_sound, decReset_sound, apart_of_not_busy reset_busy,
    reset_busy .adl, reset_busy .enc, reset_busy .dec, rfl⟩

end Sys2Proof.Proofs
end

section
/-! PROOFS. Launches and running operations (20_memory.md R73, R76; 60_exceptions.md R271): when a START is refused, and that a START
let through keeps running operations apart. -/

namespace Sys2Proof.Proofs

open Sys2Proof Sys2Proof.Machine

/-! ### Why a launch is refused -/

theorem launchRefusal_of_unbacked {s : State} {reads writes : List Buf} (u : UnitId)
    (h : (reads ++ writes).all (backedBy s.platform) = false) :
    s.launchRefusal u reads writes = some (.launchUnbacked u) := by
  simp only [State.launchRefusal, h, Bool.not_false, if_true]

theorem launchRefusal_of_overlap {s : State} {reads writes : List Buf} (u : UnitId)
    (hbacked : (reads ++ writes).all (backedBy s.platform) = true)
    (h : reads.any (fun r => writes.any r.meets) = true) :
    s.launchRefusal u reads writes = some (.launchOverlap u) := by
  simp only [State.launchRefusal, hbacked, h, Bool.not_true, Bool.false_eq_true, if_false, if_true]

theorem launchRefusal_of_conflict {s : State} {reads writes : List Buf} (u : UnitId)
    (hbacked : (reads ++ writes).all (backedBy s.platform) = true)
    (hapart : reads.any (fun r => writes.any r.meets) = false)
    (h : (reads.any (fun r => s.outBufs.any r.meets) || writes.any (fun w => s.ownedBufs.any w.meets)) = true) :
    s.launchRefusal u reads writes = some (.launchConflict u) := by
  simp only [State.launchRefusal, hbacked, hapart, h, Bool.not_true, Bool.false_eq_true, if_false, if_true]

/-- The three refusals of an operation that reads one buffer and writes one (R73, R76, R271). -/
theorem launchRefusal_inOut (s : State) (u : UnitId) (i o : Buf) :
    ((backedBy s.platform i && backedBy s.platform o) = false →
      s.launchRefusal u [i] [o] = some (.launchUnbacked u)) ∧
    ((backedBy s.platform i && backedBy s.platform o) = true → i.meets o = true →
      s.launchRefusal u [i] [o] = some (.launchOverlap u)) ∧
    ((backedBy s.platform i && backedBy s.platform o) = true → i.meets o = false →
      (s.outBufs.any i.meets || s.ownedBufs.any o.meets) = true →
      s.launchRefusal u [i] [o] = some (.launchConflict u)) := by
  have hall : ([i] ++ [o]).all (backedBy s.platform) = (backedBy s.platform i && backedBy s.platform o) := by simp
  have hmeets : [i].any (fun r => [o].any r.meets) = i.meets o := by simp
  have hshared : ([i].any (fun r => s.outBufs.any r.meets) || [o].any (fun w => s.ownedBufs.any w.meets)) =
      (s.outBufs.any i.meets || s.ownedBufs.any o.meets) := by simp
  rw [← hall, ← hmeets, ← hshared]
  exact ⟨launchRefusal_of_unbacked u, launchRefusal_of_overlap u, launchRefusal_of_conflict u⟩

theorem execAdlUpdate_refused {s : State} {r : Refusal} (hidle : s.busy .adl = false)
    (h : s.launchRefusal .adl [s.adl.input] [] = some r) : exec .adlUpdate s = .refused r := by
  simp [exec, execAdlUpdate, hidle, h]

theorem execDecDecompress_refused {s : State} {r : Refusal} (hidle : s.busy .dec = false) (hinput : s.dec.input.len ≠ 0#32)
    (h : s.launchRefusal .dec [s.dec.input] [s.dec.output] = some r) : exec .decDecompress s = .refused r := by
  have hlen : s.dec.input.len.toNat ≠ 0 := fun hzero => hinput (BitVec.eq_of_toNat_eq hzero)
  simp [exec, execDecDecompress, hidle, hlen, h]

theorem execEncCompress_refused {s : State} {r : Refusal} (hidle : s.busy .enc = false)
    (hchecks : encPrecheck s.enc.level.toNat s.enc.input.len.toNat s.enc.output.len.toNat = none)
    (h : s.launchRefusal .enc [s.enc.input] [s.enc.output] = some r) : exec .encCompress s = .refused r := by
  simp [exec, execEncCompress, hidle, hchecks, h]

/-- Settles O51: a START past its unit's own checks is refused for the reason the launch is. -/
theorem launchRefusals : Obligations.LaunchRefusals := by
  refine fun s => ⟨fun hidle => ⟨fun hunbacked => ?_, fun hbacked hshared => ?_⟩, fun hidle hinput => ?_,
    fun hidle hchecks => ?_⟩
  · exact execAdlUpdate_refused hidle (launchRefusal_of_unbacked .adl (by simpa using hunbacked))
  · exact execAdlUpdate_refused hidle
      (launchRefusal_of_conflict .adl (by simpa using hbacked) (by simp) (by simpa using hshared))
  · obtain ⟨hunbacked, hoverlap, hconflict⟩ := launchRefusal_inOut s .dec s.dec.input s.dec.output
    exact ⟨fun h => execDecDecompress_refused hidle hinput (hunbacked h),
      fun hbacked h => execDecDecompress_refused hidle hinput (hoverlap hbacked h),
      fun hbacked hapart h => execDecDecompress_refused hidle hinput (hconflict hbacked hapart h)⟩
  · obtain ⟨hunbacked, hoverlap, hconflict⟩ := launchRefusal_inOut s .enc s.enc.input s.enc.output
    exact ⟨fun h => execEncCompress_refused hidle hchecks (hunbacked h),
      fun hbacked h => execEncCompress_refused hidle hchecks (hoverlap hbacked h),
      fun hbacked hapart h => execEncCompress_refused hidle hchecks (hconflict hbacked hapart h)⟩

/-! ### A new operation beside the running ones -/

/-- A launch let through reads no byte a running operation writes, writes none it reads or writes, and has IN and OUT apart. -/
theorem launch_buffers_apart {s : State} {u : UnitId} {i o : Buf} (h : s.launchRefusal u [i] [o] = none) :
    i.meets o = false ∧ s.outBufs.any i.meets = false ∧ s.ownedBufs.any o.meets = false := by
  obtain ⟨_, hoverlap, hread, hwrite⟩ := (State.launchRefusal_none s u [i] [o]).mp h
  exact ⟨by simpa using hoverlap, by simpa using hread, by simpa using hwrite⟩

/-- ADL replaced by a unit that, if it runs, reads no byte a running operation writes. -/
theorem apart_setAdl {s : State} {v : AdlUnit} (hapart : s.Apart)
    (hread : v.status = .busy → s.outBufs.any v.job.meets = false) : (s.setAdl v).Apart := by
  obtain ⟨henc, hdec, _, _, hencDec⟩ := hapart
  have hrunning (hb : (s.setAdl v).busy .adl = true) := State.outBufs_any (hread ((State.busy_adl _).mp hb))
  exact ⟨henc, hdec, fun hb => (hrunning hb).1, fun hb => (hrunning hb).2, hencDec⟩

/-- ENC replaced by a unit that, if it runs, has buffers apart from each other and from the running operations. -/
theorem apart_setEnc {s : State} {v : EncUnit} (hapart : s.Apart)
    (hnew : v.status = .busy → v.jobIn.meets v.jobOut = false ∧ s.outBufs.any v.jobIn.meets = false ∧
      s.ownedBufs.any v.jobOut.meets = false) : (s.setEnc v).Apart := by
  obtain ⟨_, hdec, _, hadlDec, _⟩ := hapart
  have hrunning (hb : (s.setEnc v).busy .enc = true) := hnew ((State.busy_enc _).mp hb)
  refine ⟨fun hb => (hrunning hb).1, hdec, fun hadl hb => ?_, hadlDec, fun hb hdec => ?_⟩
  · obtain ⟨_, _, hwrite⟩ := hrunning hb
    obtain ⟨hjob, _⟩ := State.ownedBufs_any hwrite
    exact (Buf.meets_comm _ _).trans (hjob hadl)
  · obtain ⟨_, hread, hwrite⟩ := hrunning hb
    obtain ⟨_, hout⟩ := State.outBufs_any hread
    obtain ⟨_, _, hjobs⟩ := State.ownedBufs_any hwrite
    obtain ⟨hin', hout'⟩ := hjobs hdec
    exact ⟨hout hdec, (Buf.meets_comm _ _).trans hin', hout'⟩

/-- DEC replaced by a unit that, if it runs, has buffers apart from each other and from the running operations. -/
theorem apart_setDec {s : State} {v : DecUnit} (hapart : s.Apart)
    (hnew : v.status = .busy → v.jobIn.meets v.jobOut = false ∧ s.outBufs.any v.jobIn.meets = false ∧
      s.ownedBufs.any v.jobOut.meets = false) : (s.setDec v).Apart := by
  obtain ⟨henc, _, hadlEnc, _, _⟩ := hapart
  have hrunning (hb : (s.setDec v).busy .dec = true) := hnew ((State.busy_dec _).mp hb)
  refine ⟨henc, fun hb => (hrunning hb).1, hadlEnc, fun hadl hb => ?_, fun henc hb => ?_⟩
  · obtain ⟨_, _, hwrite⟩ := hrunning hb
    obtain ⟨hjob, _⟩ := State.ownedBufs_any hwrite
    exact (Buf.meets_comm _ _).trans (hjob hadl)
  · obtain ⟨_, hread, hwrite⟩ := hrunning hb
    obtain ⟨hout, _⟩ := State.outBufs_any hread
    obtain ⟨_, hjobs, _⟩ := State.ownedBufs_any hwrite
    obtain ⟨hin', hout'⟩ := hjobs henc
    exact ⟨(Buf.meets_comm _ _).trans hin', hout henc, (Buf.meets_comm _ _).trans hout'⟩

/-! ### START keeps running operations apart -/

theorem execAdlUpdate_apart {s t : State} (hapart : s.Apart) (h : exec .adlUpdate s = .next t) : t.Apart := by
  obtain ⟨_, hexec⟩ | ⟨_, _, _, hexec⟩ | ⟨_, hlaunch, hexec⟩ := execAdlUpdate_cases s <;> rw [hexec] at h <;> cases h
  · exact hapart
  · obtain ⟨_, _, hread, _⟩ := (State.launchRefusal_none s .adl [s.adl.input] []).mp hlaunch
    have hjob : s.adl.start.job = s.adl.input := (AdlUnit.settle_frame _).2
    exact apart_setAdl hapart fun _ => by simpa [hjob] using hread

theorem execEncCompress_apart {s t : State} (hapart : s.Apart) (h : exec .encCompress s = .next t) : t.Apart := by
  obtain ⟨_, hexec⟩ | ⟨_, _, _, hexec⟩ | ⟨_, _, _, _, hexec⟩ | ⟨_, _, hlaunch, hexec⟩ := execEncCompress_cases s <;>
    rw [hexec] at h <;> cases h
  · exact hapart
  · exact apart_setEnc hapart fun hbusy => nomatch hbusy
  · exact apart_setEnc hapart fun _ => launch_buffers_apart hlaunch

theorem execDecDecompress_apart {s t : State} (hapart : s.Apart) (h : exec .decDecompress s = .next t) : t.Apart := by
  obtain ⟨_, hexec⟩ | ⟨_, _, hexec⟩ | ⟨_, _, _, _, hexec⟩ | ⟨_, _, hlaunch, hexec⟩ := execDecDecompress_cases s <;>
    rw [hexec] at h <;> cases h
  · exact hapart
  · show (s.setDec (s.dec.start.raise .corrupt)).Apart
    exact apart_setDec hapart fun hbusy => nomatch hbusy
  · exact apart_setDec hapart fun _ => launch_buffers_apart hlaunch

theorem execStart_apart {s t : State} {u : UnitId} (hapart : s.Apart) (h : exec (startOf u) s = .next t) : t.Apart := by
  cases u with
  | adl => exact execAdlUpdate_apart hapart h
  | enc => exact execEncCompress_apart hapart h
  | dec => exact execDecDecompress_apart hapart h

/-! ### Every other step starts nothing -/

/-- The latched buffers of a unit (R35). -/
def jobBufs (s : State) : UnitId → List Buf
  | .adl => [s.adl.job]
  | .enc => [s.enc.jobIn, s.enc.jobOut]
  | .dec => [s.dec.jobIn, s.dec.jobOut]

/-- If the unit runs in `t`, it was running in `s`, on the same buffers. -/
def StartsNothing (s t : State) (u : UnitId) : Prop :=
  t.busy u = true → s.busy u = true ∧ jobBufs t u = jobBufs s u

theorem apart_of_startsNothing {s t : State} (hapart : s.Apart) (h : ∀ u, StartsNothing s t u) : t.Apart := by
  have hadl := h .adl
  have henc := h .enc
  have hdec := h .dec
  simp only [StartsNothing, jobBufs, List.cons.injEq, and_true] at hadl henc hdec
  obtain ⟨hencApart, hdecApart, hadlEnc, hadlDec, hencDec⟩ := hapart
  refine ⟨fun be => ?_, fun bd => ?_, fun ba be => ?_, fun ba bd => ?_, fun be bd => ?_⟩
  · obtain ⟨be', hin, hout⟩ := henc be
    rw [hin, hout]
    exact hencApart be'
  · obtain ⟨bd', hin, hout⟩ := hdec bd
    rw [hin, hout]
    exact hdecApart bd'
  · obtain ⟨ba', hjob⟩ := hadl ba
    obtain ⟨be', _, hout⟩ := henc be
    rw [hjob, hout]
    exact hadlEnc ba' be'
  · obtain ⟨ba', hjob⟩ := hadl ba
    obtain ⟨bd', _, hout⟩ := hdec bd
    rw [hjob, hout]
    exact hadlDec ba' bd'
  · obtain ⟨be', hein, heout⟩ := henc be
    obtain ⟨bd', hdin, hdout⟩ := hdec bd
    rw [hein, heout, hdin, hdout]
    exact hencDec be' bd'

theorem startsNothing_adl_iff (s t : State) : StartsNothing s t .adl ↔
    (t.adl.status = .busy → s.adl.status = .busy ∧ t.adl.job = s.adl.job) := by
  simp [StartsNothing, jobBufs, State.busy]

theorem startsNothing_enc_iff (s t : State) : StartsNothing s t .enc ↔
    (t.enc.status = .busy → s.enc.status = .busy ∧ t.enc.jobIn = s.enc.jobIn ∧ t.enc.jobOut = s.enc.jobOut) := by
  simp [StartsNothing, jobBufs, State.busy]

theorem startsNothing_dec_iff (s t : State) : StartsNothing s t .dec ↔
    (t.dec.status = .busy → s.dec.status = .busy ∧ t.dec.jobIn = s.dec.jobIn ∧ t.dec.jobOut = s.dec.jobOut) := by
  simp [StartsNothing, jobBufs, State.busy]

theorem adlTurn_startsNothing (s : State) : StartsNothing s (adlTurn s) .adl := by
  cases hb : s.busy .adl
  · simp [StartsNothing, adlTurn, hb]
  · obtain ⟨_, _, hjob⟩ := adlTurn_frame s
    exact fun _ => ⟨hb, by simp only [jobBufs, hjob]⟩

theorem encTurn_startsNothing (s : State) : StartsNothing s (encTurn s) .enc := by
  cases hb : s.busy .enc
  · simp [StartsNothing, encTurn, hb]
  · obtain ⟨_, _, _, _, hin, hout, _⟩ := encTurn_frame s
    exact fun _ => ⟨hb, by simp only [jobBufs, hin, hout]⟩

theorem decTurn_startsNothing {s t : State} (h : decTurn s = .next t) : StartsNothing s t .dec := by
  obtain ⟨_, rfl⟩ | ⟨hbusy, _, rfl⟩ | ⟨hbusy, _, rfl⟩ | ⟨hbusy, _, i, _, _, hi, hexec⟩ := decTurn_cases h
  · exact fun hb => ⟨hb, rfl⟩
  · exact fun _ => ⟨hbusy, rfl⟩
  · exact fun _ => ⟨hbusy, rfl⟩
  · obtain ⟨t', hnext, _, _, _, hin, hout, _⟩ := execToken_frame i hi s
    obtain rfl : t' = t := by simpa only [hnext, Host.Outcome.next.injEq] using hexec
    exact fun _ => ⟨hbusy, by simp only [jobBufs, hin, hout]⟩

/-- The host moves, and its first action is START of the unit (R30). -/
def HostStarts (s : State) (u : UnitId) : Prop :=
  s.mover = .host ∧ ∃ q, s.hostQueue = .access (.write u .cmd 1) :: q

theorem step_startsNothing_adl {s t : State} (h : step s = .next t) : StartsNothing s t .adl ∨ HostStarts s .adl := by
  rw [startsNothing_adl_iff]
  obtain hsame | ⟨_, rfl⟩ | ⟨_, _, hoperand⟩ | ⟨_, hreset, _⟩ |
    ⟨hhost, _, a, q, hq, ⟨_, hinit⟩ | ⟨rfl, _⟩ | ⟨_, _, hload⟩⟩ := step_adl_cases h
  · simp [hsame]
  · exact .inl ((startsNothing_adl_iff s.popTurn _).mp (adlTurn_startsNothing s.popTurn))
  · simp [hoperand]
  · simp [hreset, AdlUnit.reset]
  · simp [hinit, AdlUnit.init]
  · exact .inr ⟨hhost, q, hq⟩
  · simp [hload, AdlUnit.loadSum]

theorem step_startsNothing_enc {s t : State} (h : step s = .next t) : StartsNothing s t .enc ∨ HostStarts s .enc := by
  rw [startsNothing_enc_iff]
  obtain hsame | ⟨_, rfl⟩ | ⟨_, _, _, _, hoperand⟩ | ⟨_, hreset, _⟩ | ⟨hhost, _, q, hq, _⟩ := step_enc_cases h
  · simp [hsame]
  · exact .inl ((startsNothing_enc_iff s.popTurn _).mp (encTurn_startsNothing s.popTurn))
  · simp [hoperand]
  · simp [hreset, EncUnit.reset]
  · exact .inr ⟨hhost, q, hq⟩

theorem step_startsNothing_dec {s t : State} (h : step s = .next t) : StartsNothing s t .dec ∨ HostStarts s .dec := by
  rw [startsNothing_dec_iff]
  obtain hsame | ⟨_, hturn⟩ | ⟨_, _, _, hoperand⟩ | ⟨_, hreset, _⟩ | ⟨hhost, _, q, hq, _⟩ := step_dec_cases h
  · simp [hsame]
  · exact .inl ((startsNothing_dec_iff s.popTurn _).mp (decTurn_startsNothing hturn))
  · simp [hoperand]
  · simp [hreset, DecUnit.reset]
  · exact .inr ⟨hhost, q, hq⟩

/-- A unit begins to run, or its latched buffers change while it runs, only by the host's START. -/
theorem step_startsNothing {s t : State} (h : step s = .next t) (u : UnitId) : StartsNothing s t u ∨ HostStarts s u := by
  cases u with
  | adl => exact step_startsNothing_adl h
  | enc => exact step_startsNothing_enc h
  | dec => exact step_startsNothing_dec h

theorem step_of_hostStarts {s t : State} {u : UnitId} (hstart : HostStarts s u) (h : step s = .next t) :
    ∃ q, exec (startOf u) (s.popTurn.setHostQueue q) = .next t := by
  obtain ⟨hhost, q, hq⟩ := hstart
  refine ⟨q, ?_⟩
  rw [← runAction_of_command (decodeAccess_start u)]
  simpa only [step, hhost, hostTurn, State.popTurn_hostQueue, hq] using h

/-- Settles O58: a step is the host's START, which the launch's checks keep apart, or runs nothing new. -/
theorem runningOperationsStayApart : Obligations.RunningOperationsStayApart := by
  intro s t hapart h
  by_cases hstart : ∃ u, HostStarts s u
  · obtain ⟨u, hu⟩ := hstart
    obtain ⟨q, hexec⟩ := step_of_hostStarts hu h
    exact execStart_apart (s := s.popTurn.setHostQueue q) hapart hexec
  · exact apart_of_startsNothing hapart fun u => (step_startsNothing h u).resolve_right fun hu => hstart ⟨u, hu⟩

end Sys2Proof.Proofs
end


section
/-! PROOFS. Codes (30_encoding.md R90 to R105, R110, R111): decode and encode are inverse, a token's length, the opcode map and the
assembler. -/

namespace Sys2Proof.Proofs

open Sys2Proof Sys2Proof.Machine

/-! ### Operand ranges of the back-references (R98 to R101) -/

@[simp] theorem wf_matchSn_iff (d l : Nat) : (Instr.matchSn d l).wf = true ↔ (1 ≤ d ∧ d ≤ 8191) ∧ 3 ≤ l ∧ l ≤ 8 := by
  simp only [Instr.wf, Bool.and_eq_true, nearOk_iff, shortLenOk_iff]

@[simp] theorem wf_matchSf_iff (d l : Nat) : (Instr.matchSf d l).wf = true ↔ (8192 ≤ d ∧ d ≤ 73727) ∧ 3 ≤ l ∧ l ≤ 8 := by
  simp only [Instr.wf, Bool.and_eq_true, farOk_iff, shortLenOk_iff, Nat.lt_iff_add_one_le]

@[simp] theorem wf_matchLn_iff (d l : Nat) : (Instr.matchLn d l).wf = true ↔ (1 ≤ d ∧ d ≤ 8191) ∧ 9 ≤ l := by
  simp only [Instr.wf, Bool.and_eq_true, nearOk_iff, longLenOk_iff]

@[simp] theorem wf_matchLf_iff (d l : Nat) : (Instr.matchLf d l).wf = true ↔ (8192 ≤ d ∧ d ≤ 73727) ∧ 9 ≤ l := by
  simp only [Instr.wf, Bool.and_eq_true, farOk_iff, longLenOk_iff, Nat.lt_iff_add_one_le]

/-! ### Decode of encode -/

/-- A token is read back from its encoding, and the bytes after it are left. -/
theorem decodeToken_encodeToken {i : Instr} (hi : i.isToken = true) (hwf : i.wf = true) (rest : List Byte) :
    decodeToken (encodeToken i ++ rest) = .ok (i, rest) := by
  cases i with
  | lit data =>
    obtain ⟨hpos, hmax⟩ := (runOk_iff data).mp hwf
    exact decodeToken_lit hpos hmax rest
  | matchSn d l =>
    obtain ⟨⟨hd, hnear⟩, hl, hshort⟩ := (wf_matchSn_iff d l).mp hwf
    have hread := readDistance_near hd hnear rest
    simp only [encodeToken, List.cons_append, List.nil_append]
    rw [decodeToken_short (by omega) (by omega) (by omega), hread]
    simp only [Nat.sub_add_cancel (show 2 ≤ l by omega)]
  | matchSf d l =>
    obtain ⟨⟨hfar, hmax⟩, hl, hshort⟩ := (wf_matchSf_iff d l).mp hwf
    have hread := readDistance_far hfar hmax rest
    simp only [encodeToken, List.cons_append, List.nil_append]
    rw [decodeToken_short (by omega) (by omega) (by omega), hread]
    simp only [Nat.sub_add_cancel (show 2 ≤ l by omega)]
  | matchLn d l =>
    obtain ⟨⟨hd, hnear⟩, hlong⟩ := (wf_matchLn_iff d l).mp hwf
    have hread := readDistance_near hd hnear rest
    simp only [encodeToken, List.cons_append, List.append_assoc, List.nil_append]
    rw [decodeToken_long (by omega), readExt_encodeExt]
    simp only [hread, Nat.add_sub_cancel' hlong]
  | matchLf d l =>
    obtain ⟨⟨hfar, hmax⟩, hlong⟩ := (wf_matchLf_iff d l).mp hwf
    have hread := readDistance_far hfar hmax rest
    simp only [encodeToken, List.cons_append, List.append_assoc, List.nil_append]
    rw [decodeToken_long (by omega), readExt_encodeExt]
    simp only [hread, Nat.add_sub_cancel' hlong]
  | adlInit | adlUpdate | adlLoad | adlRead | encCompress | decDecompress => cases hi

/-- A host command is read back from its register access. -/
theorem decode_encode_command {i : Instr} (hi : i.isToken = false) : decode (encode i) = .ok (i, []) := by
  cases i with
  | lit | matchSn | matchSf | matchLn | matchLf => cases hi
  | adlLoad v => simp [encode, encodeAccess, decode, decodeAccess]
  | adlInit | adlUpdate | adlRead | encCompress | decDecompress => rfl

/-- Settles O1: a token by its format's parts, a host command by its register access. -/
theorem decodeOfEncodeIsTheInstruction : Obligations.DecodeOfEncodeIsTheInstruction :=
  fun _ hwf => ⟨fun hi rest => decodeToken_encodeToken hi hwf rest, decode_encode_command⟩

/-! ### Encode of decode -/

/-- A decoded token is well-formed, and the bytes it was read from are its encoding. -/
theorem encodeToken_of_decodeToken {bytes rest : List Byte} {i : Instr} (h : decodeToken bytes = .ok (i, rest)) :
    i.wf = true ∧ bytes = encodeToken i ++ rest := by
  obtain ⟨data, rfl, hpos, hmax, hbytes⟩ | ⟨d, l, rfl, hd, hnear, hl, hshort, hbytes⟩ |
    ⟨d, l, rfl, hfar, hmax, hl, hshort, hbytes⟩ | ⟨d, l, rfl, hd, hnear, hlong, hbytes⟩ |
    ⟨d, l, rfl, hfar, hmax, hlong, hbytes⟩ := decodeToken_cases h
  · exact ⟨(runOk_iff data).mpr ⟨hpos, hmax⟩, hbytes⟩
  · exact ⟨(wf_matchSn_iff d l).mpr ⟨⟨hd, hnear⟩, hl, hshort⟩, hbytes⟩
  · exact ⟨(wf_matchSf_iff d l).mpr ⟨⟨hfar, hmax⟩, hl, hshort⟩, hbytes⟩
  · exact ⟨(wf_matchLn_iff d l).mpr ⟨⟨hd, hnear⟩, hlong⟩, by simp [encodeToken, hbytes]⟩
  · exact ⟨(wf_matchLf_iff d l).mpr ⟨⟨hfar, hmax⟩, hlong⟩, by simp [encodeToken, hbytes]⟩

/-- Settles O2, by the cases of a decoded token. -/
theorem decodedBytesAreTheEncoding : Obligations.DecodedBytesAreTheEncoding :=
  fun _ _ _ h => ⟨isToken_of_decodeToken h, encodeToken_of_decodeToken h⟩

/-! ### The length of a token (R104) -/

theorem codeLength (i : Instr) : Laws.CodeLength.Statement i := by
  cases i with
  | lit data => exact Laws.CodeLength.lit data
  | matchSn d l => exact Laws.CodeLength.matchSn d l
  | matchSf d l => exact Laws.CodeLength.matchSf d l
  | matchLn d l => exact Laws.CodeLength.matchLn d l
  | matchLf d l => exact Laws.CodeLength.matchLf d l
  | adlInit => exact Laws.CodeLength.adlInit
  | adlUpdate => exact Laws.CodeLength.adlUpdate
  | adlLoad v => exact Laws.CodeLength.adlLoad v
  | adlRead => exact Laws.CodeLength.adlRead
  | encCompress => exact Laws.CodeLength.encCompress
  | decDecompress => exact Laws.CodeLength.decDecompress

/-- A token's encoding has the length R104 gives, at least two bytes. -/
theorem encodeToken_length {i : Instr} (hi : i.isToken = true) (hwf : i.wf = true) :
    (encodeToken i).length = i.tlen ∧ 2 ≤ i.tlen := by
  obtain ⟨hlength, htwo, _⟩ := codeLength i hwf
  exact ⟨hlength, htwo hi⟩

/-- Settles O3: the bytes used are the encoding, whose length is R104's. -/
theorem decodingConsumesTheTokenLength : Obligations.DecodingConsumesTheTokenLength := by
  intro bytes rest i h
  obtain ⟨hwf, rfl⟩ := encodeToken_of_decodeToken h
  obtain ⟨hlength, htwo⟩ := encodeToken_length (isToken_of_decodeToken h) hwf
  refine ⟨by rw [List.length_append, hlength], htwo, ?_, ?_, ?_, ?_, ?_⟩
  · rintro data rfl
    exact Nat.add_comm 1 data.length
  all_goals
    rintro d l rfl
    rfl

/-! ### The opcode map (R105) -/

/-- The field value of a near distance is never 8191, the one that selects the far form (R94). -/
theorem not_farForm_of_near {d : Nat} (hd : 1 ≤ d) (hnear : d ≤ 8191) :
    ¬ ((d - 1) / 256 = 31 ∧ loByte (d - 1) = 0xFF#8) := by
  rintro ⟨hhigh, hlow⟩
  have hlow := congrArg BitVec.toNat hlow
  simp only [loByte_toNat, BitVec.toNat_ofNat] at hlow
  omega

theorem ctlByte_seven_eq_ff {l5 : Nat} (hl : l5 < 32) : ctlByte 7 l5 = 0xFF#8 ↔ l5 = 31 := by
  rw [← BitVec.toNat_inj, ctlByte_toNat, BitVec.toNat_ofNat]
  omega

/-- What the control byte says of the token it begins (R105). -/
theorem controlByte_format {c : Byte} {tail rest : List Byte} {i : Instr}
    (h : decodeToken (c :: tail) = .ok (i, rest)) :
    (c.toNat < 0x20 → ∃ data, i = .lit data ∧ data.length = c.toNat + 1) ∧
    (0x20 ≤ c.toNat → c.toNat < 0xE0 → ∃ d,
      if c.toNat % 32 = 31 ∧ tail.head? = some 0xFF#8 then i = .matchSf d (c.toNat / 32 + 2)
      else i = .matchSn d (c.toNat / 32 + 2)) ∧
    (0xE0 ≤ c.toNat → ∃ d l x after, readExt tail = .ok (x, after) ∧ l = 9 + x ∧
      if c = 0xFF#8 ∧ after.head? = some 0xFF#8 then i = .matchLf d l else i = .matchLn d l) := by
  obtain ⟨data, rfl, hpos, hmax, hbytes⟩ | ⟨d, l, rfl, hd, hnear, hl, hshort, hbytes⟩ |
    ⟨d, l, rfl, hfar, hmax, hl, hshort, hbytes⟩ | ⟨d, l, rfl, hd, hnear, hlong, hbytes⟩ |
    ⟨d, l, rfl, hfar, hmax, hlong, hbytes⟩ := decodeToken_cases h <;> obtain ⟨rfl, rfl⟩ := List.cons.inj hbytes
  · have hc : (ctlByte 0 (data.length - 1)).toNat = data.length - 1 := by rw [ctlByte_toNat]; omega
    exact ⟨fun _ => ⟨data, rfl, by omega⟩, fun _ _ => by omega, fun _ => by omega⟩
  · have hc : (ctlByte (l - 2) ((d - 1) / 256)).toNat = (l - 2) * 32 + (d - 1) / 256 := by rw [ctlByte_toNat]; omega
    have hlow : (ctlByte (l - 2) ((d - 1) / 256)).toNat % 32 = (d - 1) / 256 := by omega
    have hhigh : (ctlByte (l - 2) ((d - 1) / 256)).toNat / 32 + 2 = l := by omega
    refine ⟨fun _ => by omega, fun _ _ => ⟨d, ?_⟩, fun _ => by omega⟩
    simp only [hlow, hhigh, List.head?_cons, Option.some.injEq, if_neg (not_farForm_of_near hd hnear)]
  · have hc : (ctlByte (l - 2) 31).toNat = (l - 2) * 32 + 31 := by rw [ctlByte_toNat]; omega
    have hlow : (ctlByte (l - 2) 31).toNat % 32 = 31 := by omega
    have hhigh : (ctlByte (l - 2) 31).toNat / 32 + 2 = l := by omega
    refine ⟨fun _ => by omega, fun _ _ => ⟨d, ?_⟩, fun _ => by omega⟩
    simp only [hlow, hhigh, List.head?_cons, and_self, if_true]
  · have hc : (ctlByte 7 ((d - 1) / 256)).toNat = 224 + (d - 1) / 256 := by rw [ctlByte_toNat]; omega
    refine ⟨fun _ => by omega, fun _ _ => by omega, fun _ => ⟨d, l, l - 9, _, readExt_encodeExt _ _, by omega, ?_⟩⟩
    simp only [ctlByte_seven_eq_ff (show (d - 1) / 256 < 32 by omega), List.head?_cons, Option.some.injEq,
      if_neg (not_farForm_of_near hd hnear)]
  · have hc : (ctlByte 7 31).toNat = 255 := by rw [ctlByte_toNat]
    refine ⟨fun _ => by omega, fun _ _ => by omega, fun _ => ⟨d, l, l - 9, _, readExt_encodeExt _ _, by omega, ?_⟩⟩
    simp only [ctlByte_seven_eq_ff (show 31 < 32 by omega), List.head?_cons, and_self, if_true]

/-- No control byte is illegal or reserved (R106): each is the first of a well-formed token. -/
theorem exists_token_of_controlByte (c : Byte) :
    ∃ i, i.isToken = true ∧ i.wf = true ∧ (encodeToken i).head? = some c := by
  have hT := ctlT_lt c
  have hL := ctlL5_lt c
  have hc := ctlByte_fields c
  by_cases hlit : ctlT c = 0
  · refine ⟨.lit (List.replicate (ctlL5 c + 1) 0#8), rfl, ?_, ?_⟩
    · simp only [Instr.wf, runOk_iff, List.length_replicate]
      omega
    · rw [encodeToken, List.length_replicate, Nat.add_sub_cancel, ← hlit, hc, List.head?_cons]
  · have hfield : (ctlL5 c * 256 + 1 - 1) / 256 = ctlL5 c := by omega
    by_cases hshort : ctlT c ≤ 6
    · refine ⟨.matchSn (ctlL5 c * 256 + 1) (ctlT c + 2), rfl, ?_, ?_⟩
      · rw [wf_matchSn_iff]
        omega
      · rw [encodeToken, hfield, Nat.add_sub_cancel, hc, List.head?_cons]
    · have hlong : ctlT c = 7 := by omega
      refine ⟨.matchLn (ctlL5 c * 256 + 1) 9, rfl, ?_, ?_⟩
      · rw [wf_matchLn_iff]
        omega
      · rw [encodeToken, hfield, ← hlong, hc, List.head?_cons]

/-- Settles O4: the format of each decoded token from its control byte, and for every control byte a token that decodes. -/
theorem controlByteSelectsTheFormat : Obligations.ControlByteSelectsTheFormat := by
  refine ⟨fun c tail rest i h => controlByte_format h, fun c => ?_⟩
  obtain ⟨i, hi, hwf, hhead⟩ := exists_token_of_controlByte c
  obtain ⟨tail, hencode⟩ := List.head?_eq_some_iff.mp hhead
  refine ⟨tail, i, [], ?_⟩
  rw [← hencode, ← List.append_nil (encodeToken i)]
  exact decodeToken_encodeToken hi hwf []

/-- Settles O5: each word is read by evaluating the decoder on it. -/
theorem wordsOfTheSpecDecode : Obligations.WordsOfTheSpecDecode :=
  ⟨rfl, rfl, rfl, rfl, rfl, rfl, rfl, rfl, rfl, rfl, rfl⟩

/-! ### The assembler (R111) -/

theorem assembleMatch_eq_none_iff (d l : Nat) : assembleMatch d l = none ↔ d < 1 ∨ 73727 < d ∨ l < 3 := by
  rw [assembleMatch_eq]
  split_ifs <;> simp_all

/-- The assembler's four choices, each with operands its format has. -/
theorem assembleMatch_cases {d l : Nat} {i : Instr} (h : assembleMatch d l = some i) :
    (1 ≤ d ∧ d ≤ 8191 ∧ 3 ≤ l ∧ l ≤ 8 ∧ i = .matchSn d l) ∨ (8192 ≤ d ∧ d ≤ 73727 ∧ 3 ≤ l ∧ l ≤ 8 ∧ i = .matchSf d l) ∨
    (1 ≤ d ∧ d ≤ 8191 ∧ 9 ≤ l ∧ i = .matchLn d l) ∨ (8192 ≤ d ∧ d ≤ 73727 ∧ 9 ≤ l ∧ i = .matchLf d l) := by
  rw [assembleMatch_eq] at h
  split_ifs at h with herror hnear hshort hshort <;> obtain rfl := Option.some.inj h
  · exact .inl ⟨by omega, hnear, by omega, hshort, rfl⟩
  · exact .inr (.inr (.inl ⟨by omega, hnear, by omega, rfl⟩))
  · exact .inr (.inl ⟨by omega, by omega, by omega, hshort, rfl⟩)
  · exact .inr (.inr (.inr ⟨by omega, by omega, by omega, rfl⟩))

theorem assembleMatch_wf {d l : Nat} {i : Instr} (h : assembleMatch d l = some i) : i.isToken = true ∧ i.wf = true := by
  obtain ⟨hd, hnear, hl, hshort, rfl⟩ | ⟨hfar, hmax, hl, hshort, rfl⟩ | ⟨hd, hnear, hlong, rfl⟩ | ⟨hfar, hmax, hlong, rfl⟩ :=
    assembleMatch_cases h
  · exact ⟨rfl, (wf_matchSn_iff d l).mpr ⟨⟨hd, hnear⟩, hl, hshort⟩⟩
  · exact ⟨rfl, (wf_matchSf_iff d l).mpr ⟨⟨hfar, hmax⟩, hl, hshort⟩⟩
  · exact ⟨rfl, (wf_matchLn_iff d l).mpr ⟨⟨hd, hnear⟩, hlong⟩⟩
  · exact ⟨rfl, (wf_matchLf_iff d l).mpr ⟨⟨hfar, hmax⟩, hlong⟩⟩

/-- Settles O6, by the assembler's four choices. -/
theorem assemblerPicksTheFormat : Obligations.AssemblerPicksTheFormat := by
  refine fun d l => ⟨assembleMatch_eq_none_iff d l, fun i h => ?_⟩
  obtain ⟨hi, hwf⟩ := assembleMatch_wf h
  refine ⟨hwf, hi, ?_⟩
  obtain ⟨_, _, _, _, rfl⟩ | ⟨_, _, _, _, rfl⟩ | ⟨_, _, _, rfl⟩ | ⟨_, _, _, rfl⟩ := assembleMatch_cases h
  · exact ⟨fun _ _ => rfl, fun _ _ => by omega, fun _ _ => by omega, fun _ _ => by omega⟩
  · exact ⟨fun _ _ => by omega, fun _ _ => rfl, fun _ _ => by omega, fun _ _ => by omega⟩
  · exact ⟨fun _ _ => by omega, fun _ _ => by omega, fun _ _ => rfl, fun _ _ => by omega⟩
  · exact ⟨fun _ _ => by omega, fun _ _ => by omega, fun _ _ => by omega, fun _ _ => rfl⟩

end Sys2Proof.Proofs
end


section
/-! PROOFS. Token streams (30_encoding.md R90, R106, R107, R112; 42_decoder.md R202, R207): decompression executes the tokens a stream
is the encoding of, and accepts nothing else. -/

namespace Sys2Proof.Proofs

open Sys2Proof Sys2Proof.Machine

/-! ### The loop of R202, a token at a time -/

theorem bind_eq_ok_iff {ε α β : Type} {x : Except ε α} {f : α → Except ε β} {b : β} :
    x >>= f = .ok b ↔ ∃ a, x = .ok a ∧ f a = .ok b := by
  cases x with
  | error e => exact ⟨(fun h => nomatch h), fun ⟨_, h, _⟩ => nomatch h⟩
  | ok a => exact ⟨fun h => ⟨a, rfl, h⟩, fun ⟨_, h, hf⟩ => by cases h; exact hf⟩

theorem runTokens_cons (cap : Nat) (out : List Byte) (i : Instr) (is : List Instr) :
    runTokens cap out (i :: is) = expandToken cap out i >>= fun out' => runTokens cap out' is := by
  rw [runTokens]
  cases expandToken cap out i <;> rfl

theorem encodeToken_ne_nil {i : Instr} (hi : i.isToken = true) (hwf : i.wf = true) : encodeToken i ≠ [] := by
  obtain ⟨hlength, htwo⟩ := encodeToken_length hi hwf
  exact List.ne_nil_of_length_pos (by omega)

theorem decompressFuel_encodeToken {i : Instr} (hi : i.isToken = true) (hwf : i.wf = true) (cap fuel : Nat)
    (rest out : List Byte) : decompressFuel cap (fuel + 1) (encodeToken i ++ rest) out =
      expandToken cap out i >>= fun out' => decompressFuel cap fuel rest out' := by
  have hdecode := decodeToken_encodeToken hi hwf rest
  obtain ⟨c, tail, hencode⟩ := List.exists_cons_of_ne_nil (encodeToken_ne_nil hi hwf)
  rw [hencode, List.cons_append] at hdecode ⊢
  simp only [decompressFuel, hdecode]
  cases expandToken cap out i <;> rfl

/-! ### The whole stream -/

/-- Every one is a token that has an encoding. -/
def AllTokens (tokens : List Instr) : Prop := ∀ i ∈ tokens, i.isToken = true ∧ i.wf = true

/-- The loop on the encodings of tokens executes them, and ends in their error if they have one. -/
theorem decompressFuel_flatMap_encodeToken (cap : Nat) {tokens : List Instr} (h : AllTokens tokens) :
    ∀ (fuel : Nat) (out : List Byte), (tokens.flatMap encodeToken).length < fuel →
      decompressFuel cap fuel (tokens.flatMap encodeToken) out = runTokens cap out tokens := by
  induction tokens with
  | nil =>
    intro fuel out hfuel
    obtain ⟨fuel, rfl⟩ := Nat.exists_eq_add_one_of_ne_zero (Nat.ne_zero_of_lt hfuel)
    rfl
  | cons i is ih =>
    intro fuel out hfuel
    obtain ⟨⟨hi, hwf⟩, his⟩ := List.forall_mem_cons.mp h
    obtain ⟨fuel, rfl⟩ := Nat.exists_eq_add_one_of_ne_zero (Nat.ne_zero_of_lt hfuel)
    have hrest : (is.flatMap encodeToken).length < fuel := by
      have hpos := List.length_pos_iff.mpr (encodeToken_ne_nil hi hwf)
      rw [List.flatMap_cons, List.length_append] at hfuel
      omega
    simp only [List.flatMap_cons, decompressFuel_encodeToken hi hwf, runTokens_cons, ih his fuel _ hrest]

/-- What the loop accepts is the encodings of tokens, back to back. -/
theorem allTokens_of_decompressFuel {cap : Nat} : ∀ {fuel : Nat} {input out out' : List Byte},
    decompressFuel cap fuel input out = .ok out' → ∃ tokens, AllTokens tokens ∧ input = tokens.flatMap encodeToken
  | fuel + 1, [], _, _, _ => ⟨[], List.forall_mem_nil _, rfl⟩
  | fuel + 1, b :: bs, out, out', h => by
    cases hdecode : decodeToken (b :: bs) with
    | error e => simp [decompressFuel, hdecode] at h
    | ok p =>
      obtain ⟨i, rest⟩ := p
      obtain ⟨hwf, hbytes⟩ := encodeToken_of_decodeToken hdecode
      rw [hbytes, decompressFuel_encodeToken (isToken_of_decodeToken hdecode) hwf] at h
      obtain ⟨mid, _, hloop⟩ := bind_eq_ok_iff.mp h
      obtain ⟨is, his, rfl⟩ := allTokens_of_decompressFuel hloop
      exact ⟨i :: is, List.forall_mem_cons.mpr ⟨⟨isToken_of_decodeToken hdecode, hwf⟩, his⟩, hbytes⟩

theorem decompress_of_ne_nil {input : List Byte} (h : input ≠ []) (cap : Nat) :
    decompress input cap = decompressFuel cap (input.length + 1) input [] := by
  cases input with
  | nil => exact absurd rfl h
  | cons b bs => rfl

/-- Decompressing the encodings of one token or more executes the tokens on an empty output. -/
theorem decompress_flatMap_encodeToken {tokens : List Instr} (hne : tokens ≠ []) (h : AllTokens tokens) (cap : Nat) :
    decompress (tokens.flatMap encodeToken) cap = runTokens cap [] tokens := by
  have hstream : tokens.flatMap encodeToken ≠ [] := by
    obtain ⟨i, is, rfl⟩ := List.exists_cons_of_ne_nil hne
    obtain ⟨hi, hwf⟩ := h i List.mem_cons_self
    rw [List.flatMap_cons]
    exact List.append_ne_nil_of_left_ne_nil (encodeToken_ne_nil hi hwf) _
  rw [decompress_of_ne_nil hstream, decompressFuel_flatMap_encodeToken cap h _ _ (Nat.lt_succ_self _)]

theorem allTokens_of_decompress {input out : List Byte} {cap : Nat} (h : decompress input cap = .ok out) :
    ∃ tokens, tokens ≠ [] ∧ AllTokens tokens ∧ input = tokens.flatMap encodeToken := by
  have hne : input ≠ [] := by
    rintro rfl
    simp [decompress] at h
  rw [decompress_of_ne_nil hne] at h
  obtain ⟨tokens, htokens, rfl⟩ := allTokens_of_decompressFuel h
  refine ⟨tokens, ?_, htokens, rfl⟩
  rintro rfl
  exact hne rfl

/-- Settles O7: an accepted stream is the encodings of tokens, and decompressing those executes them. -/
theorem decompressAcceptsExactlyWellFormedStreams : Obligations.DecompressAcceptsExactlyWellFormedStreams := by
  intro input out cap
  constructor
  · intro h
    obtain ⟨tokens, hne, htokens, rfl⟩ := allTokens_of_decompress h
    exact ⟨tokens, hne, htokens, rfl, (decompress_flatMap_encodeToken hne htokens cap).symm.trans h⟩
  · rintro ⟨tokens, hne, htokens, rfl, hrun⟩
    exact (decompress_flatMap_encodeToken hne htokens cap).trans hrun

/-! ### The first token (R107) -/

/-- On an empty output every distance goes back too far (R106). -/
theorem expandMatch_nil {d : Nat} (hd : 1 ≤ d) (cap l : Nat) : expandMatch cap [] d l = .error .corrupt := by
  have hfar : ([] : List Byte).length < d := hd
  rw [expandMatch, if_pos hfar]

theorem lit_of_expandToken_nil {cap : Nat} {out : List Byte} {i : Instr} (hi : i.isToken = true) (hwf : i.wf = true)
    (h : expandToken cap [] i = .ok out) : ∃ data, i = .lit data := by
  cases i with
  | lit data => exact ⟨data, rfl⟩
  | matchSn d l =>
    obtain ⟨⟨hd, _⟩, _⟩ := (wf_matchSn_iff d l).mp hwf
    simp [expandToken, expandMatch_nil hd] at h
  | matchSf d l =>
    obtain ⟨⟨hfar, _⟩, _⟩ := (wf_matchSf_iff d l).mp hwf
    simp [expandToken, expandMatch_nil (Nat.zero_lt_of_lt hfar)] at h
  | matchLn d l =>
    obtain ⟨⟨hd, _⟩, _⟩ := (wf_matchLn_iff d l).mp hwf
    simp [expandToken, expandMatch_nil hd] at h
  | matchLf d l =>
    obtain ⟨⟨hfar, _⟩, _⟩ := (wf_matchLf_iff d l).mp hwf
    simp [expandToken, expandMatch_nil (Nat.zero_lt_of_lt hfar)] at h
  | adlInit | adlUpdate | adlLoad | adlRead | encCompress | decDecompress => cases hi

/-- Settles O8: the first token executes on an empty output, so it is a `LIT`, and it is what decodes at the head. -/
theorem firstTokenIsLiteral : Obligations.FirstTokenIsLiteral := by
  intro input out cap h
  obtain ⟨tokens, hne, htokens, rfl⟩ := allTokens_of_decompress h
  obtain ⟨i, is, rfl⟩ := List.exists_cons_of_ne_nil hne
  obtain ⟨hi, hwf⟩ := htokens i List.mem_cons_self
  rw [decompress_flatMap_encodeToken hne htokens, runTokens_cons] at h
  obtain ⟨mid, hexpand, _⟩ := bind_eq_ok_iff.mp h
  obtain ⟨data, rfl⟩ := lit_of_expandToken_nil hi hwf hexpand
  exact ⟨data, is.flatMap encodeToken, decodeToken_encodeToken hi hwf _⟩

/-! ### RUN (R112) -/

/-- An assembled back-reference executes as its operands say, whatever its format. -/
theorem expandToken_of_assembleMatch {d l : Nat} {i : Instr} (h : assembleMatch d l = some i) (cap : Nat) (out : List Byte) :
    expandToken cap out i = expandMatch cap out d l := by
  obtain ⟨_, _, _, _, rfl⟩ | ⟨_, _, _, _, rfl⟩ | ⟨_, _, _, rfl⟩ | ⟨_, _, _, rfl⟩ := assembleMatch_cases h <;> rfl

theorem expandMatch_of_fit {cap d l : Nat} {out : List Byte} (hd : d ≤ out.length) (hfit : out.length + l ≤ cap) :
    expandMatch cap out d l = .ok (copyList out d l) := by
  rw [expandMatch, if_neg (Nat.not_lt.mpr hd), if_neg (Nat.not_lt.mpr hfit)]

/-- Copying at distance 1 repeats the last byte. -/
theorem copyList_replicate (b : Byte) (l : Nat) : ∀ k, copyList (List.replicate (k + 1) b) 1 l = List.replicate (k + 1 + l) b := by
  induction l with
  | zero => exact fun _ => rfl
  | succ l ih =>
    intro k
    have hlast : (List.replicate (k + 1) b).getD ((List.replicate (k + 1) b).length - 1) 0#8 = b := by simp
    rw [copyList, hlast, ← List.replicate_succ', ih, Nat.add_right_comm, Nat.add_assoc]

theorem exists_assembleRun (b : Byte) {n : Nat} (hn : 4 ≤ n) :
    ∃ m, assembleMatch 1 (n - 1) = some m ∧ assembleRun b n = some [.lit [b], m] := by
  have hsome : assembleMatch 1 (n - 1) ≠ none := by
    rw [ne_eq, assembleMatch_eq_none_iff]
    omega
  obtain ⟨m, hm⟩ := Option.ne_none_iff_exists'.mp hsome
  exact ⟨m, hm, by simp [assembleRun, Nat.not_lt.mpr hn, hm]⟩

/-- Settles O9: the `LIT` outputs the byte, and the back-reference at distance 1 repeats it. -/
theorem runPseudoInstructionRepeatsTheByte : Obligations.RunPseudoInstructionRepeatsTheByte := by
  intro b n cap hn hcap
  obtain ⟨m, hm, hrun⟩ := exists_assembleRun b hn
  have htokens : AllTokens [.lit [b], m] :=
    List.forall_mem_cons.mpr ⟨⟨rfl, rfl⟩, List.forall_mem_singleton.mpr (assembleMatch_wf hm)⟩
  have hlit : expandToken cap [] (.lit [b]) = .ok [b] := by
    rw [expandToken, if_neg (by simp only [List.length_cons, List.length_nil]; omega), List.nil_append]
  have hmatch : expandToken cap [b] m = .ok (List.replicate n b) := by
    rw [expandToken_of_assembleMatch hm, expandMatch_of_fit (Nat.le_refl 1) (by simp only [List.length_singleton]; omega)]
    have hcopy := copyList_replicate b (n - 1) 0
    rw [Nat.zero_add, Nat.add_sub_cancel' (show 1 ≤ n by omega)] at hcopy
    exact congrArg Except.ok hcopy
  refine ⟨_, hrun, ?_⟩
  calc decompress ([.lit [b], m].flatMap encodeToken) cap
      = runTokens cap [] [.lit [b], m] := decompress_flatMap_encodeToken (List.cons_ne_nil _ _) htokens cap
    _ = .ok (List.replicate n b) := by simp only [runTokens, hlit, hmatch]

end Sys2Proof.Proofs
end

section
/-! PROOFS. The arithmetic of the ADL lanes (40_checksum.md R131, R136, R137). -/

namespace Sys2Proof.Proofs

open Sys2Proof Sys2Proof.Machine

/-! ### The byte step -/

theorem adlerByte_fst_toNat (lanes : Lane × Lane) (b : Byte) :
    (adlerByte lanes b).1.toNat = (lanes.1.toNat + b.toNat) % 65521 :=
  Nat.mod_eq_of_lt ((Nat.mod_lt _ (by decide)).trans (by decide))

/-- `S2` adds the `S1` just written (R131). -/
theorem adlerByte_snd_toNat (lanes : Lane × Lane) (b : Byte) :
    (adlerByte lanes b).2.toNat = (lanes.2.toNat + (adlerByte lanes b).1.toNat) % 65521 := by
  rw [adlerByte_fst_toNat]
  exact Nat.mod_eq_of_lt ((Nat.mod_lt _ (by decide)).trans (by decide))

theorem adlerByte_lt (lanes : Lane × Lane) (b : Byte) :
    (adlerByte lanes b).1.toNat < 65521 ∧ (adlerByte lanes b).2.toNat < 65521 := by
  rw [adlerByte_snd_toNat, adlerByte_fst_toNat]
  exact ⟨Nat.mod_lt _ (by decide), Nat.mod_lt _ (by decide)⟩

theorem adlerByte_fst_modEq (lanes : Lane × Lane) (b : Byte) :
    (adlerByte lanes b).1.toNat ≡ lanes.1.toNat + b.toNat [MOD 65521] := by
  rw [adlerByte_fst_toNat]
  exact Nat.mod_modEq _ _

theorem adlerByte_snd_modEq (lanes : Lane × Lane) (b : Byte) :
    (adlerByte lanes b).2.toNat ≡ lanes.2.toNat + (lanes.1.toNat + b.toNat) [MOD 65521] := by
  rw [adlerByte_snd_toNat]
  exact (Nat.mod_modEq _ _).trans ((adlerByte_fst_modEq lanes b).add_left _)

/-- Settles O15: the two lanes as numbers, and the ranges of lanes and bytes. -/
theorem adlByteStep : Obligations.AdlByteStep := by
  intro s1 s2 b
  obtain ⟨hlane, _⟩ := adlerByte_lt (s1, s2) b
  exact ⟨adlerByte_fst_toNat (s1, s2) b, adlerByte_snd_toNat (s1, s2) b, by omega, by omega⟩

/-! ### The fold over a byte string -/

/-- Modulo 65521, `S1` adds every byte (R137), over the empty string too. -/
theorem foldl_adlerByte_fst_modEq (bytes : List Byte) (lanes : Lane × Lane) :
    (bytes.foldl adlerByte lanes).1.toNat ≡ lanes.1.toNat + plainSum bytes [MOD 65521] := by
  induction bytes generalizing lanes with
  | nil => exact Nat.ModEq.refl _
  | cons b bs ih =>
    calc ((b :: bs).foldl adlerByte lanes).1.toNat
        ≡ (adlerByte lanes b).1.toNat + plainSum bs [MOD 65521] := ih (adlerByte lanes b)
      _ ≡ lanes.1.toNat + b.toNat + plainSum bs [MOD 65521] :=
          (adlerByte_fst_modEq lanes b).add_right _
      _ = lanes.1.toNat + plainSum (b :: bs) := by rw [plainSum, Nat.add_assoc]

/-- Modulo 65521, `S2` adds the `S1` of every step (R137): the first step's `S1` enters once there and once more for each byte
after it. -/
theorem foldl_adlerByte_snd_modEq (bytes : List Byte) (lanes : Lane × Lane) :
    (bytes.foldl adlerByte lanes).2.toNat ≡
      lanes.2.toNat + bytes.length * lanes.1.toNat + weightedSum bytes [MOD 65521] := by
  induction bytes generalizing lanes with
  | nil => simp [weightedSum, Nat.ModEq.refl]
  | cons b bs ih =>
    calc ((b :: bs).foldl adlerByte lanes).2.toNat
        ≡ (adlerByte lanes b).2.toNat + bs.length * (adlerByte lanes b).1.toNat + weightedSum bs [MOD 65521] :=
          ih (adlerByte lanes b)
      _ ≡ lanes.2.toNat + (lanes.1.toNat + b.toNat) + bs.length * (lanes.1.toNat + b.toNat) + weightedSum bs
            [MOD 65521] :=
          ((adlerByte_snd_modEq lanes b).add ((adlerByte_fst_modEq lanes b).mul_left _)).add_right _
      _ = lanes.2.toNat + (b :: bs).length * lanes.1.toNat + weightedSum (b :: bs) := by
          rw [weightedSum, List.length_cons]
          ring

/-- After at least one byte both lanes are reduced (R137): the last step reduced them. -/
theorem foldl_adlerByte_lt {bytes : List Byte} (hne : bytes ≠ []) (lanes : Lane × Lane) :
    (bytes.foldl adlerByte lanes).1.toNat < 65521 ∧ (bytes.foldl adlerByte lanes).2.toNat < 65521 := by
  rw [← List.dropLast_append_getLast hne, List.foldl_concat]
  exact adlerByte_lt _ _

/-- Settles O22: the closed form holds modulo 65521, and both lanes are below 65521. -/
theorem adlClosedForm : Obligations.AdlClosedForm := by
  intro s1 s2 bytes hne
  obtain ⟨hfst, hsnd⟩ := foldl_adlerByte_lt hne (s1, s2)
  exact ⟨(Nat.mod_eq_of_modEq (foldl_adlerByte_fst_modEq bytes (s1, s2)).symm hfst).symm,
    (Nat.mod_eq_of_modEq (foldl_adlerByte_snd_modEq bytes (s1, s2)).symm hsnd).symm, hfst, hsnd⟩

/-! ### The sum register -/

theorem lanesOf_sum (u : AdlUnit) : lanesOf u.sum = (u.s1, u.s2) :=
  lanesOf_packLanes (u.s1, u.s2)

/-- Reading the sum and loading it again restores both lanes (R136). -/
theorem loadSum_sum (u : AdlUnit) : u.loadSum u.sum = u := by
  calc u.loadSum u.sum = { u with s1 := (lanesOf u.sum).1, s2 := (lanesOf u.sum).2 } := rfl
    _ = u := by rw [lanesOf_sum]

theorem sum_loadSum (u : AdlUnit) (v : Word) : (u.loadSum v).sum = v :=
  packLanes_lanesOf v

/-- Settles O21: the update is a left fold, and a running sum holds both lanes. -/
theorem adlStreamingEqualsOneShot : Obligations.AdlStreamingEqualsOneShot := by
  refine ⟨fun r a b => ?_, loadSum_sum⟩
  simp only [adlerUpdate, lanesOf_packLanes, List.foldl_append]

end Sys2Proof.Proofs
end

section
/-! PROOFS. The ADL commands and the unit's turns (40_checksum.md R132 to R135), and that UPDATE's steps run to the fold of the byte
step (R134). -/

namespace Sys2Proof.Proofs

open Sys2Proof Sys2Proof.Machine

/-! ### INIT, LOAD and READ -/

theorem execAdlInit_of_not_busy {s : State} (h : s.busy .adl = false) : exec .adlInit s = .next (s.setAdl s.adl.init) := by
  simp [exec, execAdlInit, h]

theorem adlInit_sum (u : AdlUnit) : u.init.sum = 1#32 := by
  simp [AdlUnit.init, AdlUnit.sum, Config.adlerInit]

/-- Settles O16, by whether ADL is BUSY. -/
theorem adlInitSetsOne : Obligations.AdlInitSetsOne :=
  ⟨rfl, fun _ => ⟨fun hidle => ⟨_, execAdlInit_of_not_busy hidle, rfl, adlInit_sum _⟩, execAdlInit_of_busy⟩⟩

theorem execAdlLoad_of_not_busy {s : State} (h : s.busy .adl = false) (v : Word) :
    exec (.adlLoad v) s = .next (s.setAdl (s.adl.loadSum v)) := by
  simp [exec, execAdlLoad, h]

theorem execAdlLoad_of_busy {s : State} (h : s.busy .adl = true) (v : Word) :
    exec (.adlLoad v) s = .refused .sumWriteWhileBusy := by
  simp [exec, execAdlLoad, h]

theorem loadSum_s1_toNat (u : AdlUnit) (v : Word) : (u.loadSum v).s1.toNat = v.toNat % 65536 := by
  simp [AdlUnit.loadSum]

theorem loadSum_s2_toNat (u : AdlUnit) (v : Word) : (u.loadSum v).s2.toNat = v.toNat / 65536 := by
  have hv := v.isLt
  simp only [AdlUnit.loadSum, BitVec.extractLsb'_toNat, Nat.shiftRight_eq_div_pow]
  omega

/-- A write of `v` to `ADL_SUM` is `ADL.LOAD v` (R133). -/
theorem decode_write_sum (v : Word) : decode (.access (.write .adl .reg8 v.toNat)) = .ok (.adlLoad v, []) := by
  simp [decode, decodeAccess]

/-- Settles O17, by whether ADL is BUSY. -/
theorem adlLoadStoresBothLanes : Obligations.AdlLoadStoresBothLanes :=
  fun s v => ⟨decode_write_sum v,
    fun hidle => ⟨_, execAdlLoad_of_not_busy hidle v, loadSum_s1_toNat s.adl v, loadSum_s2_toNat s.adl v,
      sum_loadSum s.adl v, rfl⟩,
    fun hbusy => execAdlLoad_of_busy hbusy v⟩

/-- Settles O18: `ADL.READ` is the read of `ADL_SUM`, whose value is defined while ADL is not BUSY. -/
theorem adlReadReturnsTheSum : Obligations.AdlReadReturnsTheSum := by
  refine ⟨rfl, fun s => ⟨s.readReg .adl .reg8, rfl, fun hidle => ?_, readReg_frame s .adl .reg8⟩⟩
  have hdefined : s.busy .adl = true → volatileReg .adl .reg8 = false := fun hbusy => absurd hbusy (by simp [hidle])
  rw [readReg_of_defined hdefined, reg_adl_sum]
  rfl

/-! ### The START of UPDATE -/

/-- Nothing refuses a launch that writes no buffer and reads one that is backed and that no running operation writes. -/
theorem launchRefusal_read_none {s : State} {i : Buf} (u : UnitId) (hbacked : backedBy s.platform i = true)
    (hfree : s.outBufs.any i.meets = false) : s.launchRefusal u [i] [] = none := by
  simpa [State.launchRefusal, hbacked] using hfree

theorem execAdlUpdate_started {s : State} (hidle : s.busy .adl = false) (hbacked : backedBy s.platform s.adl.input = true)
    (hfree : s.outBufs.any s.adl.input.meets = false) : exec .adlUpdate s = .next (s.setAdl s.adl.start) := by
  simp [exec, execAdlUpdate, hidle, launchRefusal_read_none .adl hbacked hfree]

theorem adlSettle_of_end {u : AdlUnit} (h : u.job.len.toNat ≤ u.idx.toNat) : u.settle = u.finish :=
  if_pos h

theorem adlSettle_of_byteLeft {u : AdlUnit} (h : u.idx.toNat < u.job.len.toNat) : u.settle = u :=
  if_neg (Nat.not_le.mpr h)

/-- ADL with its operands latched and no byte read yet (R134, R241). -/
def adlLatched (u : AdlUnit) : AdlUnit := { u with status := .busy, err := .none, job := u.input, idx := 0#32 }

/-- START latches the operands, and over no bytes is the end already (log entry 13). -/
theorem adlStart_eq_settle (u : AdlUnit) : u.start = (adlLatched u).settle := rfl

theorem adlStart_eq (u : AdlUnit) : u.start = { u with
    status := if u.input.len = 0#32 then .done else .busy, err := .none, job := u.input, idx := 0#32 } := by
  rw [adlStart_eq_settle]
  by_cases hlen : u.input.len = 0#32
  · rw [if_pos hlen, adlSettle_of_end (by rw [adlLatched, hlen])]
    rfl
  · have hpos : 0 < u.input.len.toNat := Nat.pos_of_ne_zero fun hzero => hlen (BitVec.eq_of_toNat_eq hzero)
    rw [if_neg hlen, adlSettle_of_byteLeft (u := adlLatched u) hpos]
    rfl

/-- Settles O19: the launch goes through, and exec is the START. -/
theorem adlUpdateStarts : Obligations.AdlUpdateStarts := by
  refine fun s => ⟨fun hidle hbacked hfree => ?_, execStart_of_busy (u := .adl)⟩
  rw [execAdlUpdate_started hidle hbacked hfree, adlStart_eq]
  rfl

/-! ### One turn -/

/-- The byte index stays within 32 bits while a byte is left. -/
theorem adlByte_idx_toNat {u : AdlUnit} (h : u.idx.toNat < u.job.len.toNat) (b : Byte) :
    (u.byte b).idx.toNat = u.idx.toNat + 1 := by
  have hlen := u.job.len.isLt
  exact Nat.mod_eq_of_lt (by omega)

theorem adlTurn_of_byteLeft {s : State} (hbusy : s.busy .adl = true) (h : s.adl.idx.toNat < s.adl.job.len.toNat) :
    adlTurn s = s.setAdl (s.adl.byte (s.mem.at s.adl.job s.adl.idx.toNat)).settle := by
  rw [adlTurn, if_pos hbusy, if_pos h]

/-- Settles O60, by whether the byte is the last one. -/
theorem adlTurnTakesOneByte : Obligations.AdlTurnTakesOneByte := by
  intro s hbusy hleft
  have hidx := adlByte_idx_toNat hleft (s.mem.at s.adl.job s.adl.idx.toNat)
  rw [adlTurn_of_byteLeft hbusy hleft]
  by_cases hlast : s.adl.idx.toNat + 1 = s.adl.job.len.toNat
  · rw [adlSettle_of_end (hidx.trans hlast).ge, if_pos hlast]
    rfl
  · rw [adlSettle_of_byteLeft (hidx.trans_lt (lt_of_le_of_ne hleft hlast)), if_neg hlast, ← (State.busy_adl s).mp hbusy]
    rfl

/-! ### The run of an UPDATE -/

/-- ADL after a byte string: the fold of the byte step in its lanes, the index moved on, and nothing else changed. -/
theorem foldl_adlByte (bytes : List Byte) (u : AdlUnit) : ∃ i, bytes.foldl AdlUnit.byte u = { u with
    s1 := (bytes.foldl adlerByte (u.s1, u.s2)).1, s2 := (bytes.foldl adlerByte (u.s1, u.s2)).2, idx := i } := by
  induction bytes generalizing u with
  | nil => exact ⟨u.idx, rfl⟩
  | cons b bs ih => exact ih (u.byte b)

/-- With no order of agents given, a BUSY ADL moves (log entry 1). -/
theorem step_of_busy_adl {s : State} (hbusy : s.busy .adl = true) (hturns : s.turns = []) : step s = .next (adlTurn s) := by
  simp only [step, State.mover, hturns, State.defaultAgent, hbusy, if_true, State.popTurn_of_nil hturns]

/-- As many steps as there are bytes left take them all and end the operation (R134); with no byte left it has ended already. -/
theorem run_of_bytesLeft (n : Nat) {s : State} {u : AdlUnit} (hturns : s.turns = []) (hbusy : u.status = .busy)
    (hleft : u.idx.toNat + n = u.job.len.toNat) :
    Sys2Proof.core.run n (s.setAdl u.settle) =
      .next (s.setAdl ((s.mem.slice u.job u.idx.toNat u.job.len.toNat).foldl AdlUnit.byte u).finish) := by
  induction n generalizing u with
  | zero =>
    have hend : u.job.len.toNat ≤ u.idx.toNat := hleft.ge
    rw [core_run_zero, adlSettle_of_end hend, Mem.slice_of_le _ _ hend, List.foldl_nil]
  | succ n ih =>
    have hbyte : u.idx.toNat < u.job.len.toNat := by omega
    have hidx := adlByte_idx_toNat hbyte (s.mem.at u.job u.idx.toNat)
    have hbusy' : (s.setAdl u).busy .adl = true := (State.busy_adl _).mpr hbusy
    have hstep : step (s.setAdl u) = .next (s.setAdl (u.byte (s.mem.at u.job u.idx.toNat)).settle) := by
      rw [step_of_busy_adl hbusy' hturns, adlTurn_of_byteLeft hbusy' hbyte]
      rfl
    rw [adlSettle_of_byteLeft hbyte, core_run_succ n hstep, Mem.slice_cons _ _ hbyte, List.foldl_cons, ← hidx]
    exact ih hbusy (by rw [hidx, Nat.add_right_comm]; exact hleft)

/-- Settles O20: a quiet state lets the launch through, and the run from START takes every byte. -/
theorem adlUpdateRunsToTheFold : Obligations.AdlUpdateRunsToTheFold := by
  intro s ⟨hadl, henc, hdec, hturns⟩ hbacked
  have hfree : s.outBufs.any s.adl.input.meets = false := by simp [State.outBufs, henc, hdec]
  have hrun : Sys2Proof.core.run s.adl.input.len.toNat (s.setAdl s.adl.start) = .next (s.setAdl
      ((s.mem.slice s.adl.input 0 s.adl.input.len.toNat).foldl AdlUnit.byte (adlLatched s.adl)).finish) :=
    run_of_bytesLeft _ hturns rfl (Nat.zero_add _)
  obtain ⟨i, hfold⟩ := foldl_adlByte (s.mem.slice s.adl.input 0 s.adl.input.len.toNat) (adlLatched s.adl)
  rw [hfold] at hrun
  refine ⟨_, _, execAdlUpdate_started hadl hbacked hfree, hrun, rfl, rfl, ?_, rfl, rfl⟩
  rw [adlerUpdate, lanesOf_sum]
  rfl

end Sys2Proof.Proofs
end

section
/-! PROOFS. ENC's hash, match search and candidate table (41_encoder.md R156 to R163): the hash in naturals, the longest agreement,
the selection among the ways of a bucket, and `INSERT` way by way. -/

namespace Sys2Proof.Proofs

open Sys2Proof Sys2Proof.Machine

/-! ### The hash (R156) -/

/-- Two bytes as a 16-bit number, the first one low. -/
theorem bytePair_toNat (lo hi : Byte) :
    (lo.setWidth 16 ||| (hi.setWidth 16 <<< 8)).toNat = lo.toNat ||| (hi.toNat <<< 8) := by
  have hlo := lo.isLt
  have hhi := hi.isLt
  have hshift : hi.toNat <<< 8 < 2 ^ 16 := by rw [Nat.shiftLeft_eq]; omega
  simp only [BitVec.toNat_or, BitVec.toNat_shiftLeft, BitVec.toNat_setWidth,
    Nat.mod_eq_of_lt (show lo.toNat < 2 ^ 16 by omega), Nat.mod_eq_of_lt (show hi.toNat < 2 ^ 16 by omega),
    Nat.mod_eq_of_lt hshift]

/-- `HASH` in naturals, with the mask of R156. -/
theorem hash3_eq (b0 b1 b2 : Byte) : hash3 b0 b1 b2 =
    ((b0.toNat ||| (b1.toNat <<< 8)) ^^^ (b1.toNat ||| (b2.toNat <<< 8)) ^^^ ((b0.toNat ||| (b1.toNat <<< 8)) >>> 3)) &&&
      0x1FFF := by
  simp only [hash3, BitVec.toNat_and, BitVec.toNat_xor, BitVec.toNat_ushiftRight, bytePair_toNat]
  rfl

theorem hash3_lt (b0 b1 b2 : Byte) : hash3 b0 b1 b2 < 8192 := by
  rw [hash3_eq]
  exact Nat.and_lt_two_pow (n := 13) _ (by decide)

/-- Settles O26: the formula in naturals, the mask's bound, and the examples by evaluation. -/
theorem hashIsABucket : Obligations.HashIsABucket :=
  ⟨fun b0 b1 b2 => ⟨hash3_eq b0 b1 b2, hash3_lt b0 b1 b2⟩, by decide⟩

/-! ### The longest agreement (R159) -/

theorem matchLen_agrees (rd : Nat → Byte) : ∀ (lim c p i : Nat), i < matchLen rd c p lim → rd (c + i) = rd (p + i)
  | 0, _, _, _, h => absurd h (Nat.not_lt_zero _)
  | lim + 1, c, p, i, h => by
    rw [matchLen] at h
    split at h
    next heq =>
      cases i with
      | zero => exact heq
      | succ i =>
        have ih := matchLen_agrees rd lim (c + 1) (p + 1) i (Nat.lt_of_succ_lt_succ h)
        rwa [Nat.add_right_comm c, Nat.add_right_comm p] at ih
    next => exact absurd h (Nat.not_lt_zero _)

theorem matchLen_stops (rd : Nat → Byte) : ∀ (lim c p : Nat), matchLen rd c p lim < lim →
    rd (c + matchLen rd c p lim) ≠ rd (p + matchLen rd c p lim)
  | 0, _, _, h => absurd h (Nat.not_lt_zero _)
  | lim + 1, c, p, h => by
    rw [matchLen] at h ⊢
    split at h
    next heq =>
      have ih := matchLen_stops rd lim (c + 1) (p + 1) (Nat.lt_of_succ_lt_succ h)
      rw [if_pos heq]
      rwa [Nat.add_right_comm c, Nat.add_right_comm p] at ih
    next hne =>
      rw [if_neg hne]
      exact hne

/-- Settles O27, each clause by induction on the limit. -/
theorem matchLenIsTheLongestAgreement : Obligations.MatchLenIsTheLongestAgreement :=
  fun rd c p lim => ⟨matchLen_le rd lim c p, matchLen_agrees rd lim c p, matchLen_stops rd lim c p⟩

/-! ### The selection among candidates (R157, R158, R161) -/

/-- The length and distance that candidate `c` offers at position `p`. -/
def offer (rd : Nat → Byte) (level n p c : Nat) : Nat × Nat := (matchLen rd c p (matchLim level n p), p - c)

/-- A `(length, distance)` that the level's distance limit and R162's least lengths let through. -/
def Acceptable (level : Nat) (m : Nat × Nat) : Prop := 1 ≤ m.2 ∧ m.2 ≤ Config.maxDist level ∧ minLen m.2 ≤ m.1

/-- `best` is what the offers of the first `k` ways come to: no match if none is acceptable, else the longest acceptable
one, of equals the one of the lowest way. -/
def IsBest (level : Nat) (offers : Nat → Nat × Nat) (k : Nat) (best : Nat × Nat) : Prop :=
  (best = (0, 0) ∧ ∀ w < k, ¬ Acceptable level (offers w)) ∨
  ∃ w < k, Acceptable level (offers w) ∧ best = offers w ∧
    (∀ v < k, Acceptable level (offers v) → (offers v).1 ≤ (offers w).1) ∧
    ∀ v < w, Acceptable level (offers v) → (offers v).1 < (offers w).1

theorem tryWay_eq_offer (rd : Nat → Byte) {level n p c : Nat} {best : Nat × Nat}
    (h : Acceptable level (offer rd level n p c)) (hlonger : best.1 < (offer rd level n p c).1) :
    tryWay rd level n p best c = offer rd level n p c := by
  obtain ⟨hpos, hmax, hmin⟩ := h
  exact if_pos ⟨hpos, hmax, hmin, hlonger⟩

theorem tryWay_eq_best (rd : Nat → Byte) {level n p c : Nat} {best : Nat × Nat}
    (h : Acceptable level (offer rd level n p c) → (offer rd level n p c).1 ≤ best.1) :
    tryWay rd level n p best c = best :=
  if_neg fun ⟨hpos, hmax, hmin, hlonger⟩ => Nat.not_lt.mpr (h ⟨hpos, hmax, hmin⟩) hlonger

theorem acceptable_length_pos {level : Nat} {m : Nat × Nat} (h : Acceptable level m) : 0 < m.1 := by
  obtain ⟨_, _, hmin⟩ := h
  have := three_le_minLen m.2
  omega

/-- An acceptable offer longer than the best so far is the best of one way more. -/
theorem isBest_of_longer {level k : Nat} {offers : Nat → Nat × Nat} {best : Nat × Nat} (h : IsBest level offers k best)
    (hk : Acceptable level (offers k)) (hlonger : best.1 < (offers k).1) : IsBest level offers (k + 1) (offers k) := by
  have hbelow : ∀ v < k, Acceptable level (offers v) → (offers v).1 < (offers k).1 := by
    obtain ⟨_, hnone⟩ | ⟨w, _, _, rfl, hlongest, _⟩ := h
    · exact fun v hv hok => absurd hok (hnone v hv)
    · exact fun v hv hok => (hlongest v hv hok).trans_lt hlonger
  refine .inr ⟨k, Nat.lt_succ_self k, hk, rfl, fun v hv hok => ?_, hbelow⟩
  obtain hv | rfl := Nat.lt_succ_iff_lt_or_eq.mp hv
  · exact (hbelow v hv hok).le
  · exact Nat.le_refl _

/-- An offer that is not acceptable, or no longer than the best so far, leaves the best as it is. -/
theorem isBest_of_not_longer {level k : Nat} {offers : Nat → Nat × Nat} {best : Nat × Nat} (h : IsBest level offers k best)
    (hk : Acceptable level (offers k) → (offers k).1 ≤ best.1) : IsBest level offers (k + 1) best := by
  obtain ⟨rfl, hnone⟩ | ⟨w, hw, hok, rfl, hlongest, hlowest⟩ := h
  · refine .inl ⟨rfl, fun v hv hok => ?_⟩
    obtain hv | rfl := Nat.lt_succ_iff_lt_or_eq.mp hv
    · exact hnone v hv hok
    · exact absurd (hk hok) (Nat.not_le.mpr (acceptable_length_pos hok))
  · refine .inr ⟨w, Nat.lt_succ_of_lt hw, hok, rfl, fun v hv hok => ?_, hlowest⟩
    obtain hv | rfl := Nat.lt_succ_iff_lt_or_eq.mp hv
    · exact hlongest v hv hok
    · exact hk hok

/-- The fold of the search over the first `k` ways comes to the best of their offers. -/
theorem foldl_tryWay_isBest (rd : Nat → Byte) (level n p : Nat) (cand : Nat → Nat) : ∀ k,
    IsBest level (fun w => offer rd level n p (cand w)) k (((List.range k).map cand).foldl (tryWay rd level n p) (0, 0))
  | 0 => .inl ⟨rfl, fun _ hw => absurd hw (Nat.not_lt_zero _)⟩
  | k + 1 => by
    have ih := foldl_tryWay_isBest rd level n p cand k
    rw [List.range_succ, List.map_append, List.foldl_append]
    generalize ((List.range k).map cand).foldl (tryWay rd level n p) (0, 0) = best at ih ⊢
    change IsBest level _ (k + 1) (tryWay rd level n p best (cand k))
    by_cases hlonger : Acceptable level (offer rd level n p (cand k)) ∧ best.1 < (offer rd level n p (cand k)).1
    · obtain ⟨hok, hlonger⟩ := hlonger
      rw [tryWay_eq_offer rd hok hlonger]
      exact isBest_of_longer ih hok hlonger
    · have hnot : Acceptable level (offer rd level n p (cand k)) → (offer rd level n p (cand k)).1 ≤ best.1 :=
        fun hok => Nat.not_lt.mp fun h => hlonger ⟨hok, h⟩
      rw [tryWay_eq_best rd hnot]
      exact isBest_of_not_longer ih hnot

theorem search_isBest (rd : Nat → Byte) (level n : Nat) (ht : Cells 32) (h p : Nat) :
    IsBest level (fun w => offer rd level n p (htAt ht h w)) (Config.ways level) (search rd level n ht h p) :=
  foldl_tryWay_isBest rd level n p (htAt ht h) (Config.ways level)

/-- Settles O28: the best of the offers of the level's ways, with the numbers of R153 and R162 in place. -/
theorem searchTakesTheLongestThenTheLowestWay : Obligations.SearchTakesTheLongestThenTheLowestWay := by
  intro rd level n h p ht len ok r
  obtain ⟨hr, hnone⟩ | ⟨w, hw, hok, hr, hlongest, hlowest⟩ := search_isBest rd level n ht h p
  · exact .inl ⟨hr, fun w ⟨hw, hok⟩ => hnone w hw hok⟩
  · exact .inr ⟨w, ⟨hw, hok⟩, hr, fun v ⟨hv, hok⟩ => hlongest v hv hok, fun v ⟨_, hok⟩ hvw => hlowest v hvw hok⟩

/-- At position 0 no candidate lies before, so there is no match (R173). -/
theorem search_zero (rd : Nat → Byte) (level n : Nat) (ht : Cells 32) (h : Nat) : search rd level n ht h 0 = (0, 0) := by
  obtain ⟨hr, _⟩ | ⟨w, _, ⟨hpos, _⟩, _⟩ := search_isBest rd level n ht h 0
  · exact hr
  · simp [offer] at hpos

/-! ### `INSERT` (R163) -/

theorem ways_bounds (level : Nat) : 1 ≤ Config.ways level ∧ Config.ways level ≤ 4 := by
  unfold Config.ways
  split <;> decide

/-- Read after `INSERT`: the position in way 0, the kept ways shifted down by one, everything else as it was. -/
theorem htAt_htInsert (level : Nat) {ht : Cells 32} (hw : Cells.wf ht = true) (h h' : Nat) {q w : Nat} (hq : q < 2 ^ 32)
    (hlt : w < 4) : htAt (htInsert level ht h q) h' w =
      if h' = h ∧ w = 0 then q
      else if h' = h ∧ 1 ≤ w ∧ w ≤ Config.ways level - 1 then htAt ht h (w - 1)
      else htAt ht h' w := by
  obtain ⟨hone, hfour⟩ := ways_bounds level
  rw [htInsert, htAt_htSet (shiftWays_wf h _ hw) h h' q (by decide) hlt, Nat.mod_eq_of_lt hq,
    htAt_shiftWays h h' _ hw (by omega) hlt]

/-- Settles O29: the read after `INSERT` at each of the four places. -/
theorem insertShiftsTheBucket : Obligations.InsertShiftsTheBucket := by
  intro level ht h q hw hq
  obtain ⟨hone, hfour⟩ := ways_bounds level
  refine ⟨?_, fun w hkept => ?_, fun w hunused hlt => ?_, fun h' w hne hlt => ?_⟩
  · rw [htAt_htInsert level hw h h hq (by decide), if_pos ⟨rfl, rfl⟩]
  · change w + 1 < Config.ways level at hkept
    rw [htAt_htInsert level hw h h hq (by omega), if_neg (by omega), if_pos (by omega), Nat.add_sub_cancel]
  · change Config.ways level ≤ w at hunused
    rw [htAt_htInsert level hw h h hq hlt, if_neg (by omega), if_neg (by omega)]
  · rw [htAt_htInsert level hw h h' hq hlt, if_neg (fun hx => hne hx.1), if_neg (fun hx => hne hx.1)]

end Sys2Proof.Proofs
end

section
/-! PROOFS. ENC's emission and block (41_encoder.md R168 to R175): what is put are the assembler's tokens, a block stays within the
output bound, and it begins with a `LIT`. -/

namespace Sys2Proof.Proofs

open Sys2Proof Sys2Proof.Machine

/-! ### `EMIT_LITS` (R168) -/

/-- A run of `EMIT_LITS` is the encoding of its `LIT`. -/
theorem litByte_append_eq_encodeToken (span : List Byte) :
    BitVec.ofNat 8 (min Config.litMax span.length - 1) :: span.take (min Config.litMax span.length) =
      encodeToken (.lit (span.take Config.litMax)) := by
  simp [encodeToken, ctlByte, ← List.take_eq_take_min]

theorem emitLitsFuel_eq_flatMap : ∀ (fuel : Nat) (span : List Byte),
    emitLitsFuel fuel span = (litTokens fuel span).flatMap encodeToken
  | 0, _ => rfl
  | _ + 1, [] => rfl
  | fuel + 1, b :: bs => by
    have hdrop : (b :: bs).drop (min Config.litMax (b :: bs).length) = (b :: bs).drop Config.litMax := by
      rw [← List.drop_eq_drop_min]
    rw [litTokens, List.flatMap_cons, ← litByte_append_eq_encodeToken, ← emitLitsFuel_eq_flatMap fuel, ← hdrop]
    rfl

theorem emitLits_eq_flatMap (span : List Byte) : emitLits span = (assembleLits span).flatMap encodeToken :=
  emitLitsFuel_eq_flatMap _ _

/-- The `j`-th `LIT` of a span (R112). -/
def litOf (span : List Byte) (j : Nat) : Instr := .lit ((span.drop (32 * j)).take 32)

theorem litOf_succ (span : List Byte) (j : Nat) : litOf span (j + 1) = litOf (span.drop 32) j := by
  rw [litOf, litOf, List.drop_drop, Nat.mul_add_one, Nat.add_comm]

/-- One `LIT` for each started 32 bytes. -/
theorem litTokens_eq_map : ∀ (fuel : Nat) (span : List Byte), span.length ≤ fuel →
    litTokens fuel span = (List.range ((span.length + 31) / 32)).map (litOf span)
  | 0, span, h => by
    obtain rfl := List.length_eq_zero_iff.mp (Nat.le_zero.mp h)
    rfl
  | _ + 1, [], _ => rfl
  | fuel + 1, b :: bs, h => by
    have ih := litTokens_eq_map fuel ((b :: bs).drop 32) (by rw [List.length_drop]; omega)
    have hcount : ((b :: bs).length + 31) / 32 = (((b :: bs).drop 32).length + 31) / 32 + 1 := by
      simp only [List.length_drop, List.length_cons]
      omega
    rw [hcount, List.range_succ_eq_map, List.map_cons, List.map_map, litTokens, Config.litMax, ih]
    congr 1
    exact List.map_congr_left fun j _ => (litOf_succ (b :: bs) j).symm

theorem assembleLits_eq_map (span : List Byte) :
    assembleLits span = (List.range ((span.length + 31) / 32)).map (litOf span) :=
  litTokens_eq_map _ _ (Nat.le_refl _)

/-- Every `LIT` of a span has 1 to 32 bytes. -/
theorem litOf_wf {span : List Byte} {j : Nat} (h : j < (span.length + 31) / 32) : (litOf span j).wf = true := by
  refine (runOk_iff _).mpr ?_
  rw [List.length_take, List.length_drop]
  omega

theorem allTokens_assembleLits (span : List Byte) : AllTokens (assembleLits span) := by
  intro i hi
  rw [assembleLits_eq_map] at hi
  obtain ⟨j, hj, rfl⟩ := List.mem_map.mp hi
  exact ⟨rfl, litOf_wf (List.mem_range.mp hj)⟩

/-- Settles O32: the assembler's tokens, one for each started 32 bytes. -/
theorem emitLitsPutsLiteralTokens : Obligations.EmitLitsPutsLiteralTokens :=
  fun span => ⟨emitLits_eq_flatMap span, assembleLits_eq_map span, emitLits_length span, allTokens_assembleLits span⟩

/-! ### `EMIT_MATCH` (R169) -/

theorem minLen_le_iff {d l : Nat} (hl : 3 ≤ l) : minLen d ≤ l ↔ d ≤ 8191 ∨ 5 ≤ l := by
  rw [minLen_eq]
  split <;> omega

/-- The bytes of `EMIT_MATCH` are the token of the assembler's format, by distance near or far and length short or long. -/
theorem emitMatch_eq_encodeToken {d l : Nat} (hd : 1 ≤ d) (hmax : d ≤ 73727) (hl : 3 ≤ l) :
    ∃ i, assembleMatch d l = some i ∧ emitMatch d l = encodeToken i := by
  have hrange : ¬ (d < 1 ∨ 73727 < d ∨ l < 3) := by omega
  rw [assembleMatch_eq, if_neg hrange, emitMatch_eq, emitExt_eq, ofNat_mod_eq_loByte, ofNat_mod_eq_loByte]
  by_cases hnear : d ≤ 8191 <;> by_cases hshort : l ≤ 8
  · have hfield : l - 2 ≠ 7 := by omega
    simp only [if_pos hnear, if_pos hshort, if_neg hfield]
    exact ⟨_, rfl, rfl⟩
  · simp only [if_pos hnear, if_neg hshort, if_true]
    exact ⟨_, rfl, rfl⟩
  · have hfield : l - 2 ≠ 7 := by omega
    simp only [if_neg hnear, if_pos hshort, if_neg hfield]
    exact ⟨_, rfl, rfl⟩
  · simp only [if_neg hnear, if_neg hshort, if_true]
    exact ⟨_, rfl, rfl⟩

/-- Settles O33: the assembler's token, and an acceptable match is longer than it. -/
theorem emitMatchPutsTheToken : Obligations.EmitMatchPutsTheToken := by
  intro d l hd hmax hl
  obtain ⟨i, hassemble, hemit⟩ := emitMatch_eq_encodeToken hd hmax hl
  exact ⟨i, hassemble, hemit, fun h => emitMatch_length_lt ((minLen_le_iff hl).mpr h)⟩

/-! ### The loop of R155 on a byte string, one turn at a time -/

section Loop

variable {level p anchor : Nat} {x : List Byte} {ht : Cells 32}

/-- What the search finds at position `p` of a byte string (R157). -/
def matchAt (level : Nat) (x : List Byte) (p : Nat) (ht : Cells 32) : Nat × Nat :=
  search (byteAt x) level x.length ht (hashAt (byteAt x) p) p

/-- The table with position `p` of a byte string entered (R163). -/
def tableAt (level : Nat) (x : List Byte) (p : Nat) (ht : Cells 32) : Cells 32 :=
  htInsert level ht (hashAt (byteAt x) p) p

/-- The table a match at position `p` of a byte string leaves (R166). -/
def tableAfterMatch (level : Nat) (x : List Byte) (p : Nat) (ht : Cells 32) : Cells 32 :=
  if level = 2 then
    insertCovered (byteAt x) level x.length (tableAt level x p ht) (p + 1) ((matchAt level x p ht).1 - 1)
  else tableAt level x p ht

theorem compressFuel_of_end (fuel : Nat) (h : x.length < p + 3) :
    compressFuel level x (fuel + 1) p anchor ht = emitLits (sliceOf x anchor x.length) :=
  if_neg (Nat.not_le.mpr h)

theorem compressFuel_of_no_match (fuel : Nat) (hpos : p + 3 ≤ x.length) (h : (matchAt level x p ht).1 = 0) :
    compressFuel level x (fuel + 1) p anchor ht = compressFuel level x fuel (p + 1) anchor (tableAt level x p ht) :=
  (if_pos hpos).trans (if_pos h)

theorem compressFuel_of_match (fuel : Nat) (hpos : p + 3 ≤ x.length) (h : (matchAt level x p ht).1 ≠ 0) :
    compressFuel level x (fuel + 1) p anchor ht =
      emitLits (sliceOf x anchor p) ++ emitMatch (matchAt level x p ht).2 (matchAt level x p ht).1 ++
        compressFuel level x fuel (p + (matchAt level x p ht).1) (p + (matchAt level x p ht).1)
          (tableAfterMatch level x p ht) :=
  (if_pos hpos).trans (if_neg h)

/-! ### The output bound (R175) -/

/-- A match is shorter as a token and lies within the input. -/
theorem matchAt_bounds (h : (matchAt level x p ht).1 ≠ 0) : (matchAt level x p ht).1 ≤ x.length - p ∧
    (emitMatch (matchAt level x p ht).2 (matchAt level x p ht).1).length + 1 ≤ (matchAt level x p ht).1 := by
  obtain hnone | ⟨_, _, hmin, hlim⟩ := search_isMatch (byteAt x) level x.length ht (hashAt (byteAt x) p) p
  · exact absurd (congrArg Prod.fst hnone) h
  · exact ⟨hlim, emitMatch_length_lt hmin⟩

/-- What is put from a position on costs no more than the bytes from the anchor on as literals. -/
theorem compressFuel_length_le : ∀ (fuel p anchor : Nat) (ht : Cells 32), anchor ≤ p → p ≤ x.length →
    (compressFuel level x fuel p anchor ht).length ≤ (x.length - anchor) + (x.length - anchor + 31) / 32
  | 0, _, _, _, _, _ => Nat.zero_le _
  | fuel + 1, p, anchor, ht, hanchor, hp => by
    by_cases hpos : p + 3 ≤ x.length
    · by_cases h : (matchAt level x p ht).1 = 0
      · rw [compressFuel_of_no_match fuel hpos h]
        exact compressFuel_length_le fuel _ _ _ (Nat.le_succ_of_le hanchor) (by omega)
      · obtain ⟨hleft, htoken⟩ := matchAt_bounds h
        have ih := compressFuel_length_le fuel (p + (matchAt level x p ht).1) (p + (matchAt level x p ht).1)
          (tableAfterMatch level x p ht) (Nat.le_refl _) (by omega)
        rw [compressFuel_of_match fuel hpos h, List.length_append, List.length_append, emitLits_length, sliceOf_length x hp]
        omega
    · rw [compressFuel_of_end fuel (by omega), emitLits_length, sliceOf_length x (Nat.le_refl _)]

theorem compressedBlock_length_le (level : Nat) (x : List Byte) :
    (compressedBlock level x).length ≤ x.length + (x.length + 31) / 32 :=
  compressFuel_length_le _ 0 0 [] (Nat.le_refl 0) (Nat.zero_le _)

/-- With the checks of R151 passed, the block fits and `compress` gives it. -/
theorem compress_eq_ok {cap : Nat} (h : encPrecheck level x.length cap = none) :
    compress level x cap = .ok (compressedBlock level x) := by
  obtain ⟨_, _, hcap⟩ := (encPrecheck_none _ _ _).mp h
  have hfit := ((compressedBlock_length_le level x).trans (bound_le_reqCap x.length)).trans hcap
  simp only [compress, h, if_neg (Nat.not_lt.mpr hfit)]

/-! ### The first token (R173) -/

/-- The literals of a span that is not empty begin with a `LIT`. -/
theorem decodeToken_emitLits {span : List Byte} (h : span ≠ []) (tail : List Byte) :
    ∃ data rest, decodeToken (emitLits span ++ tail) = .ok (.lit data, rest) := by
  have hlen := List.length_pos_of_ne_nil h
  obtain ⟨n, hn⟩ : ∃ n, (span.length + 31) / 32 = n + 1 := ⟨(span.length + 31) / 32 - 1, by omega⟩
  have hwf : (litOf span 0).wf = true := litOf_wf (by omega)
  rw [emitLits_eq_flatMap, assembleLits_eq_map, hn, List.range_succ_eq_map, List.map_cons, List.flatMap_cons, List.append_assoc]
  exact ⟨_, _, decodeToken_encodeToken rfl hwf _⟩

/-- With bytes pending, the next token put is a `LIT`. -/
theorem decodeToken_compressFuel : ∀ (fuel p anchor : Nat) (ht : Cells 32), anchor < p → p ≤ x.length →
    x.length < p + fuel → ∃ data rest, decodeToken (compressFuel level x fuel p anchor ht) = .ok (.lit data, rest)
  | 0, _, _, _, _, hp, hfuel => absurd hfuel (Nat.not_lt.mpr hp)
  | fuel + 1, p, anchor, ht, hanchor, hp, hfuel => by
    have hpending : ∀ e ≤ x.length, anchor < e → sliceOf x anchor e ≠ [] := fun e he hlt =>
      List.ne_nil_of_length_pos (by rw [sliceOf_length x he]; omega)
    by_cases hpos : p + 3 ≤ x.length
    · by_cases h : (matchAt level x p ht).1 = 0
      · rw [compressFuel_of_no_match fuel hpos h]
        exact decodeToken_compressFuel fuel _ _ _ (Nat.lt_succ_of_lt hanchor) (by omega) (by omega)
      · rw [compressFuel_of_match fuel hpos h, List.append_assoc]
        exact decodeToken_emitLits (hpending p hp hanchor) _
    · rw [compressFuel_of_end fuel (by omega), ← List.append_nil (emitLits _)]
      exact decodeToken_emitLits (hpending _ (Nat.le_refl _) (by omega)) _

/-- The block of three bytes or more begins with a `LIT`: position 0 has no match, and is pending from then on. -/
theorem decodeToken_compressedBlock (level : Nat) (h : 3 ≤ x.length) :
    ∃ data rest, decodeToken (compressedBlock level x) = .ok (.lit data, rest) := by
  have hfirst : (matchAt level x 0 []).1 = 0 := congrArg Prod.fst (search_zero (byteAt x) level x.length [] _)
  rw [compressedBlock, compressFuel_of_no_match _ (by omega) hfirst]
  exact decodeToken_compressFuel _ _ _ _ Nat.zero_lt_one (by omega) (by omega)

end Loop

/-- Settles O34: the loop's bound at the head, and the chain of R175. -/
theorem compressedLengthIsBounded : Obligations.CompressedLengthIsBounded :=
  fun level x cap hlevel hn hcap => ⟨compressedBlock_length_le level x, by omega, Nat.le_max_right _ _,
    compress_eq_ok ((encPrecheck_none level x.length cap).mpr ⟨hlevel, hn, hcap⟩)⟩

/-- Settles O35: the head decodes to a `LIT`, which no empty block does. -/
theorem compressedBlockStartsWithLiteral : Obligations.CompressedBlockStartsWithLiteral := by
  intro level x _ hn
  obtain ⟨data, rest, hhead⟩ := decodeToken_compressedBlock level (x := x) (by omega)
  refine ⟨fun hempty => ?_, data, rest, hhead⟩
  rw [hempty] at hhead
  cases hhead

end Sys2Proof.Proofs
end

section
/-! PROOFS. ENC.COMPRESS (41_encoder.md R150 to R171): its START, its turns, and that its steps run to the block of `compress`. -/

namespace Sys2Proof.Proofs

open Sys2Proof Sys2Proof.Machine

/-! ### START (R151, R152, R154) -/

/-- A legal level as a register value and as a number. -/
theorem level_legal_iff (v : Word) : (v = 1#32 ∨ v = 2#32) ↔ (v.toNat = 1 ∨ v.toNat = 2) := by
  rw [← BitVec.toNat_inj, ← BitVec.toNat_inj]
  rfl

theorem encPrecheck_unsupportedLevel {level : Nat} (h : level ≠ 1 ∧ level ≠ 2) (n cap : Nat) :
    encPrecheck level n cap = some .unsupportedLevel :=
  if_pos h

theorem encPrecheck_inputTooSmall {level n : Nat} (hlevel : level = 1 ∨ level = 2) (hn : n < 16) (cap : Nat) :
    encPrecheck level n cap = some .inputTooSmall := by
  have hlegal : ¬ (level ≠ 1 ∧ level ≠ 2) := by omega
  exact (if_neg hlegal).trans (if_pos hn)

/-- A failed check is the fault, with nothing else changed (R152, R264). -/
theorem execEncCompress_fault {s : State} {e : ErrCode} (hidle : s.busy .enc = false)
    (h : encPrecheck s.enc.level.toNat s.enc.input.len.toNat s.enc.output.len.toNat = some e) :
    exec .encCompress s = .next { s with enc := { s.enc with status := .fault, err := e, outLen := 0#32 } } := by
  simp only [exec, execEncCompress, hidle, h]
  rfl

theorem execEncCompress_started {s : State} (hidle : s.busy .enc = false)
    (hchecks : encPrecheck s.enc.level.toNat s.enc.input.len.toNat s.enc.output.len.toNat = none)
    (h : s.launchRefusal .enc [s.enc.input] [s.enc.output] = none) :
    exec .encCompress s = .next (s.setEnc s.enc.start) := by
  simp [exec, execEncCompress, hidle, hchecks, h]

/-- With the checks passed, what exec answers as next state is the START. -/
theorem eq_start_of_execEncCompress {s t : State} (hidle : s.busy .enc = false)
    (hchecks : encPrecheck s.enc.level.toNat s.enc.input.len.toNat s.enc.output.len.toNat = none)
    (h : exec .encCompress s = .next t) : t = s.setEnc s.enc.start := by
  obtain ⟨hbusy, _⟩ | ⟨_, e, he, _⟩ | ⟨_, _, r, _, hrefused⟩ | ⟨_, _, _, hstart⟩ := execEncCompress_cases s
  · rw [hidle] at hbusy
    cases hbusy
  · rw [hchecks] at he
    cases he
  · rw [hrefused] at h
    cases h
  · rw [hstart] at h
    cases h
    rfl

/-- Settles O24: each failed check by its error, and past them the START. -/
theorem encPreconditionFaults : Obligations.EncPreconditionFaults := by
  intro s hidle faultWith
  have hlegal := level_legal_iff s.enc.level
  split
  next hlevel =>
    refine execEncCompress_fault hidle (encPrecheck_unsupportedLevel ?_ _ _)
    rw [← not_or] at hlevel ⊢
    exact mt hlegal.mpr hlevel
  next hlevel =>
    have hlevel : s.enc.level.toNat = 1 ∨ s.enc.level.toNat = 2 := by
      rw [← not_or, not_not] at hlevel
      exact hlegal.mp hlevel
    split
    next hn => exact execEncCompress_fault hidle (encPrecheck_inputTooSmall hlevel hn _)
    next hn =>
      split
      next hcap => exact execEncCompress_fault hidle (encPrecheck_outputTooSmall hlevel (Nat.not_lt.mp hn) hcap)
      next hcap =>
        intro t h
        rw [eq_start_of_execEncCompress hidle
          ((encPrecheck_none _ _ _).mpr ⟨hlevel, Nat.not_lt.mp hn, Nat.not_lt.mp hcap⟩) h]
        exact ⟨rfl, rfl, rfl, rfl⟩

/-- Settles O25: the checks pass, the launch goes through, and exec is the START. -/
theorem encCompressStarts : Obligations.EncCompressStarts := by
  refine fun s => ⟨fun hidle hlevel hn hcap hin hout hapart hread hwrite => ?_, execStart_of_busy (u := .enc)⟩
  have hchecks := (encPrecheck_none _ _ _).mpr ⟨(level_legal_iff s.enc.level).mp hlevel, hn, hcap⟩
  have hlaunch : s.launchRefusal .enc [s.enc.input] [s.enc.output] = none :=
    (State.launchRefusal_none s .enc _ _).mpr ⟨by simp [hin, hout], by simpa using hapart, by simpa using hread,
      by simpa using hwrite⟩
  rw [execEncCompress_started hidle hchecks hlaunch]
  rfl

/-! ### One turn (R155, R164 to R167, R171) -/

theorem encTurn_of_position {s : State} (hbusy : s.busy .enc = true) (hpos : s.enc.ip.toNat + 3 ≤ s.enc.jobIn.len.toNat) :
    encTurn s = encPosition s :=
  (if_pos hbusy).trans (if_pos hpos)

theorem encTurn_of_end {s : State} (hbusy : s.busy .enc = true) (hend : s.enc.jobIn.len.toNat < s.enc.ip.toNat + 3) :
    encTurn s = encFlush s :=
  (if_pos hbusy).trans (if_neg (Nat.not_le.mpr hend))

/-- What soundness says of a state whose ENC is BUSY. -/
theorem running_of_busy {s : State} (hsound : s.enc.Sound) (hbusy : s.busy .enc = true) : s.enc.Running := by
  obtain ⟨_, _, hrun⟩ := (encSound_iff_of_busy ((State.busy_enc s).mp hbusy)).mp hsound
  exact hrun

/-- The table a match leaves, as the fold over the covered positions with three bytes left. -/
theorem coveredTable_eq_foldl (s : State) : coveredTable s =
    if s.enc.jobLevel.toNat = 2 then
      ((List.range' (s.enc.ip.toNat + 1) ((foundMatch s).1 - 1)).filter (fun q => q + 3 ≤ s.enc.jobIn.len.toNat)).foldl
        (fun t q => htInsert s.enc.jobLevel.toNat t (hashAt s.encIn q) q) (enteredTable s)
    else enteredTable s := by
  rw [coveredTable, insertCovered_eq_foldl]

/-- Settles O30: the turn is the position, whose bytes fit when there is a match. -/
theorem encPositionTurn : Obligations.EncPositionTurn := by
  intro s hsound hbusy hpos level n p bucket m ht covered put
  have hrun := running_of_busy hsound hbusy
  rw [encTurn_of_position hbusy hpos]
  refine ⟨encPosition_of_no_match, fun h => ?_⟩
  have hfit := matchBytes_fit hrun h hpos
  obtain ⟨hthree, hleft, _⟩ := foundMatch_bounds h
  refine ⟨hthree, Nat.add_le_of_le_sub' (by omega) hleft, hfit, ?_⟩
  rw [encPosition_of_match h hfit, coveredTable_eq_foldl]
  rfl

/-- Settles O31: the turn is the flush, whose bytes fit. -/
theorem encTailFlush : Obligations.EncTailFlush := by
  intro s hsound hbusy hend put
  have hfit := flushBytes_fit (running_of_busy hsound hbusy)
  refine ⟨hfit, ?_⟩
  rw [encTurn_of_end hbusy hend, encFlush_of_fit hfit]
  rfl

/-! ### The search reads only the input -/

section Reads

variable {rd rd' : Nat → Byte} {n : Nat}

theorem hashAt_congr (hrd : ∀ i < n, rd i = rd' i) {p : Nat} (hp : p + 3 ≤ n) : hashAt rd p = hashAt rd' p := by
  rw [hashAt, hashAt, hrd p (by omega), hrd (p + 1) (by omega), hrd (p + 2) (by omega)]

theorem matchLen_congr (hrd : ∀ i < n, rd i = rd' i) : ∀ (lim c p : Nat), c ≤ p → p + lim ≤ n →
    matchLen rd c p lim = matchLen rd' c p lim
  | 0, _, _, _, _ => rfl
  | lim + 1, c, p, hc, hp => by
    rw [matchLen, matchLen, hrd c (by omega), hrd p (by omega),
      matchLen_congr hrd lim (c + 1) (p + 1) (by omega) (by omega)]

theorem tryWay_congr (hrd : ∀ i < n, rd i = rd' i) (level : Nat) {p c : Nat} (hp : p ≤ n) (hc : c ≤ p) (best : Nat × Nat) :
    tryWay rd level n p best c = tryWay rd' level n p best c := by
  have hlim := matchLim_le level n p
  rw [tryWay, tryWay, matchLen_congr hrd (matchLim level n p) c p hc (by omega)]

/-- The candidates of a table whose positions are examined ones lie before `p`. -/
theorem search_congr (hrd : ∀ i < n, rd i = rd' i) (level h : Nat) {p : Nat} (hp : p ≤ n) {ht : Cells 32}
    (hbelow : TableBelow p ht) : search rd level n ht h p = search rd' level n ht h p := by
  refine List.foldl_ext _ _ _ fun best c hc => tryWay_congr hrd level hp ?_ best
  obtain ⟨w, _, rfl⟩ := List.mem_map.mp hc
  exact Nat.le_of_lt_succ (htAt_lt (Nat.succ_pos p) (tableBelow_mono (Nat.le_succ p) hbelow) h w)

theorem insertCovered_congr (hrd : ∀ i < n, rd i = rd' i) (level : Nat) : ∀ (k q : Nat) (ht : Cells 32),
    insertCovered rd level n ht q k = insertCovered rd' level n ht q k
  | 0, _, _ => rfl
  | k + 1, q, ht => by
    rw [insertCovered, insertCovered, insertCovered_congr hrd level k]
    split
    next hq => rw [hashAt_congr hrd hq]
    next => rfl

end Reads

/-! ### A turn and the loop of R155 -/

/-- The input of the running compression. -/
def encInput (s : State) : List Byte := s.mem.slice s.enc.jobIn 0 s.enc.jobIn.len.toNat

@[simp] theorem encInput_length (s : State) : (encInput s).length = s.enc.jobIn.len.toNat := by simp [encInput]

theorem encIn_eq_byteAt (s : State) : ∀ i < (encInput s).length, s.encIn i = byteAt (encInput s) i := by
  intro i hi
  rw [encInput_length] at hi
  rw [byteAt, encInput, Mem.slice_getD _ _ _ _ _ (by omega), Nat.zero_add]
  rfl

/-- The bytes the loop of R155 puts from the state's position on. -/
def remainingBlock (fuel : Nat) (s : State) : List Byte :=
  compressFuel s.enc.jobLevel.toNat (encInput s) fuel s.enc.ip.toNat s.enc.anchor.toNat s.enc.ht

/-- A compression that runs with no other unit, and no order of agents given (log entry 1). -/
structure EncAlone (s : State) : Prop where
  noTurns : s.turns = []
  adlIdle : s.busy .adl = false
  busy : s.busy .enc = true
  sound : s.enc.Sound
  memWf : Memory.wf s.mem = true
  apart : s.enc.jobIn.meets s.enc.jobOut = false

/-- `t` is `s` with the bytes `y` put, and nothing but ENC and those bytes changed. -/
structure EncPut (s : State) (y : List Byte) (t : State) : Prop where
  frame : t = (s.setMem (s.mem.writeBytes (s.enc.jobOut.addr s.enc.op.toNat) y)).setEnc t.enc
  input : t.enc.input = s.enc.input
  output : t.enc.output = s.enc.output
  level : t.enc.level = s.enc.level
  jobIn : t.enc.jobIn = s.enc.jobIn
  jobOut : t.enc.jobOut = s.enc.jobOut
  jobLevel : t.enc.jobLevel = s.enc.jobLevel
  op : t.enc.op.toNat = s.enc.op.toNat + y.length

theorem EncPut.mem {s t : State} {y : List Byte} (h : EncPut s y t) :
    t.mem = s.mem.writeBytes (s.enc.jobOut.addr s.enc.op.toNat) y := by
  rw [h.frame]
  rfl

theorem EncPut.trans {s t u : State} {y z : List Byte} (h : EncPut s y t) (h' : EncPut t z u) : EncPut s (y ++ z) u where
  frame := by
    have haddr : t.enc.jobOut.addr t.enc.op.toNat = s.enc.jobOut.addr s.enc.op.toNat + y.length := by
      rw [h.jobOut, h.op, Buf.addr, Buf.addr, Nat.add_assoc]
    rw [Mem.writeBytes_append, ← haddr, ← h.mem, h'.frame, h.frame]
    rfl
  input := h'.input.trans h.input
  output := h'.output.trans h.output
  level := h'.level.trans h.level
  jobIn := h'.jobIn.trans h.jobIn
  jobOut := h'.jobOut.trans h.jobOut
  jobLevel := h'.jobLevel.trans h.jobLevel
  op := by rw [h'.op, h.op, List.length_append, Nat.add_assoc]

/-- ENC's bytes leave its input as it is (R76). -/
theorem encInput_encTurn {s : State} (h : EncAlone s) : encInput (encTurn s) = encInput s := by
  obtain ⟨_, _, _, _, hjobIn, _, _, _, hmem⟩ := encTurn_frame s
  obtain ⟨_, hkept⟩ := hmem h.memWf
  rw [encInput, encInput, hjobIn]
  refine Mem.slice_congr _ _ _ fun k _ hk => hkept _ (Buf.holds_of_not_meets h.apart ((Buf.holds_iff _ _).mpr ?_))
  simp only [Buf.addr]
  omega

/-- A turn that leaves ENC BUSY leaves it alone. -/
theorem encAlone_encTurn {s : State} (h : EncAlone s) (hbusy : (encTurn s).busy .enc = true) : EncAlone (encTurn s) := by
  obtain ⟨hframe, _, _, _, hjobIn, hjobOut, _, _, hmem⟩ := encTurn_frame s
  obtain ⟨hwf, _⟩ := hmem h.memWf
  refine ⟨?_, ?_, hbusy, encTurn_sound h.sound, hwf, by rw [hjobIn, hjobOut, h.apart]⟩
  · rw [hframe]
    exact h.noTurns
  · rw [hframe]
    exact h.adlIdle

section Turn

variable {s : State}

theorem enteredTable_eq_tableAt (hpos : s.enc.ip.toNat + 3 ≤ s.enc.jobIn.len.toNat) :
    enteredTable s = tableAt s.enc.jobLevel.toNat (encInput s) s.enc.ip.toNat s.enc.ht := by
  rw [enteredTable, tableAt, hashAt_congr (encIn_eq_byteAt s) (by rwa [encInput_length])]

theorem foundMatch_eq_matchAt (hrun : s.enc.Running) (hpos : s.enc.ip.toNat + 3 ≤ s.enc.jobIn.len.toNat) :
    foundMatch s = matchAt s.enc.jobLevel.toNat (encInput s) s.enc.ip.toNat s.enc.ht := by
  obtain ⟨_, _, _, _, _, hbelow⟩ := hrun
  have hrd := encIn_eq_byteAt s
  rw [encInput_length] at hrd
  rw [foundMatch, matchAt, encInput_length, hashAt_congr hrd hpos, search_congr hrd _ _ (by omega) hbelow]

theorem coveredTable_eq_tableAfterMatch (hrun : s.enc.Running) (hpos : s.enc.ip.toNat + 3 ≤ s.enc.jobIn.len.toNat) :
    coveredTable s = tableAfterMatch s.enc.jobLevel.toNat (encInput s) s.enc.ip.toNat s.enc.ht := by
  have hrd := encIn_eq_byteAt s
  rw [encInput_length] at hrd
  rw [coveredTable, tableAfterMatch, encInput_length, enteredTable_eq_tableAt hpos, foundMatch_eq_matchAt hrun hpos,
    insertCovered_congr hrd]

/-- A turn's bytes and cursor are all that `EncPut` asks for beside the frame of a turn. -/
theorem encPut_encTurn {y : List Byte} (hmem : (encTurn s).mem = s.mem.writeBytes (s.enc.jobOut.addr s.enc.op.toNat) y)
    (hop : (encTurn s).enc.op.toNat = s.enc.op.toNat + y.length) : EncPut s y (encTurn s) := by
  obtain ⟨hframe, hinput, houtput, hlevel, hjobIn, hjobOut, hjobLevel, _, _⟩ := encTurn_frame s
  rw [hmem] at hframe
  exact ⟨hframe, hinput, houtput, hlevel, hjobIn, hjobOut, hjobLevel, hop⟩

/-- The turn puts `y` and leaves ENC running further on, and `y` is what the loop of R155 puts in that turn. -/
structure TurnPuts (s : State) (y : List Byte) : Prop where
  put : EncPut s y (encTurn s)
  alone : EncAlone (encTurn s)
  advances : s.enc.ip.toNat < (encTurn s).enc.ip.toNat
  loop : ∀ fuel, remainingBlock (fuel + 1) s = y ++ remainingBlock fuel (encTurn s)

theorem turnPuts_of_no_match (h : EncAlone s) (hpos : s.enc.ip.toNat + 3 ≤ s.enc.jobIn.len.toNat)
    (hnone : (foundMatch s).1 = 0) : TurnPuts s [] := by
  have heq := (encTurn_of_position h.busy hpos).trans (encPosition_of_no_match hnone)
  have hip : (encTurn s).enc.ip.toNat = s.enc.ip.toNat + 1 := by
    rw [heq]
    exact toNat_ofNat_of_le (b := s.enc.jobIn.len) (by omega)
  have hanchor : (encTurn s).enc.anchor = s.enc.anchor := by rw [heq]; rfl
  have hht : (encTurn s).enc.ht = enteredTable s := by rw [heq]; rfl
  have hput : EncPut s [] (encTurn s) := encPut_encTurn (by rw [heq]; rfl) (by rw [heq]; rfl)
  refine ⟨hput, encAlone_encTurn h (by rw [heq]; exact h.busy), by omega, fun fuel => ?_⟩
  rw [foundMatch_eq_matchAt (running_of_busy h.sound h.busy) hpos] at hnone
  rw [remainingBlock, compressFuel_of_no_match fuel (by rwa [encInput_length]) hnone, remainingBlock, encInput_encTurn h, hip,
    hanchor, hht, enteredTable_eq_tableAt hpos, hput.jobLevel, List.nil_append]

/-- What a match puts, in terms of the input's byte string. -/
theorem matchBytes_eq (hrun : s.enc.Running) (hpos : s.enc.ip.toNat + 3 ≤ s.enc.jobIn.len.toNat) :
    matchBytes s = emitLits (sliceOf (encInput s) s.enc.anchor.toNat s.enc.ip.toNat) ++
      emitMatch (matchAt s.enc.jobLevel.toNat (encInput s) s.enc.ip.toNat s.enc.ht).2
        (matchAt s.enc.jobLevel.toNat (encInput s) s.enc.ip.toNat s.enc.ht).1 := by
  rw [matchBytes, foundMatch_eq_matchAt hrun hpos, encInput, ← Mem.slice_eq_sliceOf _ _ (by omega)]

theorem turnPuts_of_match (h : EncAlone s) (hpos : s.enc.ip.toNat + 3 ≤ s.enc.jobIn.len.toNat)
    (hfound : (foundMatch s).1 ≠ 0) : TurnPuts s (matchBytes s) := by
  have hrun := running_of_busy h.sound h.busy
  have hfit := matchBytes_fit hrun hfound hpos
  obtain ⟨_, hleft, _⟩ := foundMatch_bounds hfound
  have heq := (encTurn_of_position h.busy hpos).trans (encPosition_of_match hfound hfit)
  have hip : (encTurn s).enc.ip.toNat = s.enc.ip.toNat + (foundMatch s).1 := by
    rw [heq]
    exact toNat_ofNat_of_le (b := s.enc.jobIn.len) (by omega)
  have hanchor : (encTurn s).enc.anchor = (encTurn s).enc.ip := by rw [heq]; rfl
  have hht : (encTurn s).enc.ht = coveredTable s := by rw [heq]; rfl
  have hput : EncPut s (matchBytes s) (encTurn s) :=
    encPut_encTurn (by rw [heq]; rfl) (by rw [heq]; exact toNat_ofNat_of_le hfit)
  refine ⟨hput, encAlone_encTurn h (by rw [heq]; exact h.busy), by omega, fun fuel => ?_⟩
  have hmatch := foundMatch_eq_matchAt hrun hpos
  rw [hmatch] at hip hfound
  rw [remainingBlock, compressFuel_of_match fuel (by rwa [encInput_length]) hfound, ← matchBytes_eq hrun hpos, remainingBlock,
    encInput_encTurn h, hanchor, hip, hht, coveredTable_eq_tableAfterMatch hrun hpos, hput.jobLevel]

theorem exists_turnPuts (h : EncAlone s) (hpos : s.enc.ip.toNat + 3 ≤ s.enc.jobIn.len.toNat) : ∃ y, TurnPuts s y := by
  by_cases hnone : (foundMatch s).1 = 0
  · exact ⟨_, turnPuts_of_no_match h hpos hnone⟩
  · exact ⟨_, turnPuts_of_match h hpos hnone⟩

/-- The tail flush puts what is left of the block, and ends the operation (R167, R171). -/
theorem encTurn_flushes (h : EncAlone s) (hend : s.enc.jobIn.len.toNat < s.enc.ip.toNat + 3) (fuel : Nat) :
    EncPut s (remainingBlock (fuel + 1) s) (encTurn s) ∧ (encTurn s).enc = (encTurn s).enc.finish := by
  have hfit := flushBytes_fit (running_of_busy h.sound h.busy)
  have heq := (encTurn_of_end h.busy hend).trans (encFlush_of_fit hfit)
  have hbytes : remainingBlock (fuel + 1) s = flushBytes s := by
    rw [remainingBlock, compressFuel_of_end fuel (by rwa [encInput_length]), encInput_length, flushBytes, encInput,
      ← Mem.slice_eq_sliceOf _ _ (Nat.le_refl _)]
  refine ⟨?_, by rw [heq]; rfl⟩
  rw [hbytes]
  exact encPut_encTurn (by rw [heq]; rfl) (by rw [heq]; exact toNat_ofNat_of_le hfit)

end Turn

/-! ### The run of a compression -/

/-- With no order of agents given and ADL idle, a BUSY ENC moves (log entry 1). -/
theorem step_of_encAlone {s : State} (h : EncAlone s) : step s = .next (encTurn s) := by
  have hmover : s.mover = .enc := by simp [State.mover, h.noTurns, State.defaultAgent, h.adlIdle, h.busy]
  simp only [step, hmover, State.popTurn_of_nil h.noTurns]

/-- From a running compression, a step for each position left and one for the flush are enough to put the rest of the block and
end. -/
theorem run_of_encAlone : ∀ (fuel : Nat) {s : State}, EncAlone s → s.enc.jobIn.len.toNat < s.enc.ip.toNat + fuel →
    ∃ k t, k ≤ fuel ∧ Sys2Proof.core.run k s = .next t ∧ EncPut s (remainingBlock fuel s) t ∧ t.enc = t.enc.finish
  | 0, s, h, hfuel => by
    obtain ⟨_, _, hip, _⟩ := running_of_busy h.sound h.busy
    exact absurd hfuel (Nat.not_lt.mpr hip)
  | fuel + 1, s, h, hfuel => by
    have hstep := step_of_encAlone h
    by_cases hpos : s.enc.ip.toNat + 3 ≤ s.enc.jobIn.len.toNat
    · obtain ⟨y, hturn⟩ := exists_turnPuts h hpos
      have hadvances := hturn.advances
      obtain ⟨k, t, hk, hrun, hput, hdone⟩ :=
        run_of_encAlone fuel hturn.alone (by rw [hturn.put.jobIn]; omega)
      refine ⟨k + 1, t, Nat.succ_le_succ hk, (core_run_succ k hstep).trans hrun, ?_, hdone⟩
      rw [hturn.loop fuel]
      exact hturn.put.trans hput
    · obtain ⟨hput, hdone⟩ := encTurn_flushes h (Nat.not_le.mp hpos) fuel
      exact ⟨1, _, Nat.le_add_left 1 fuel, (core_run_succ 0 hstep).trans (core_run_zero _), hput, hdone⟩

/-- START from a quiet state leaves a compression that runs alone. -/
theorem encAlone_start {s : State} (hquiet : s.Quiet) (hwf : Memory.wf s.mem = true)
    (hchecks : encPrecheck s.enc.level.toNat s.enc.input.len.toNat s.enc.output.len.toNat = none)
    (hapart : s.enc.input.meets s.enc.output = false) : EncAlone (s.setEnc s.enc.start) := by
  obtain ⟨hadl, _, _, hturns⟩ := hquiet
  exact ⟨hturns, hadl, rfl, encStart_sound hchecks, hwf, hapart⟩

/-- From START on, the loop of R155 puts the whole block. -/
theorem remainingBlock_start (s : State) : remainingBlock (s.enc.input.len.toNat + 1) (s.setEnc s.enc.start) =
    compressedBlock s.enc.level.toNat (s.mem.slice s.enc.input 0 s.enc.input.len.toNat) := by
  rw [compressedBlock, Mem.slice_length, Nat.sub_zero]
  rfl

/-- Bytes written at the head of a buffer are its first bytes. -/
theorem slice_writeBytes_head {m : Mem} (hwf : Memory.wf m = true) (b : Buf) (bytes : List Byte) :
    (m.writeBytes (b.addr 0) bytes).slice b 0 bytes.length = bytes := by
  have hslice := Mem.slice_writeBytes hwf b 0 bytes
  rwa [Nat.zero_add, Mem.slice_of_le _ _ (Nat.le_refl 0), List.nil_append] at hslice

/-- Bytes written at the head of a buffer change no other address. -/
theorem read_writeBytes_head_of_ne {m : Mem} (hwf : Memory.wf m = true) (b : Buf) {bytes : List Byte} {a : Nat}
    (ha : ∀ j < bytes.length, a ≠ b.addr j) : (m.writeBytes (b.addr 0) bytes).read a = m.read a := by
  rw [Mem.read_writeBytes _ _ _ hwf, if_neg]
  intro ⟨hlow, hhigh⟩
  simp only [Buf.addr] at ha hlow hhigh
  exact ha (a - b.base) (by omega) (by omega)

/-- Settles O36: a quiet state lets the launch through, and the run from START puts the block and ends. -/
theorem encRunsToCompress : Obligations.EncRunsToCompress := by
  intro s hquiet hwf hlevel hn hcap hin hout hapart x
  have hchecks := (encPrecheck_none _ _ _).mpr ⟨(level_legal_iff s.enc.level).mp hlevel, hn, hcap⟩
  have hstart : exec .encCompress s = .next (s.setEnc s.enc.start) := by
    obtain ⟨hadl, henc, hdec, _⟩ := hquiet
    exact (encCompressStarts s).1 henc hlevel hn hcap hin hout hapart (by simp [State.outBufs, henc, hdec])
      (by simp [State.ownedBufs, hadl, henc, hdec])
  obtain ⟨k, t, hk, hrun, hput, hdone⟩ := run_of_encAlone (s.enc.input.len.toNat + 1)
    (encAlone_start hquiet hwf hchecks hapart) (Nat.lt_add_left 0 (Nat.lt_succ_self _))
  rw [remainingBlock_start] at hput
  have hmem : t.mem = s.mem.writeBytes (s.enc.output.addr 0) (compressedBlock s.enc.level.toNat x) := hput.mem
  have hlen : t.enc.op.toNat = (compressedBlock s.enc.level.toNat x).length := hput.op.trans (Nat.zero_add _)
  refine ⟨_, t, k, compressedBlock s.enc.level.toNat x, hstart, hk, hrun, compress_eq_ok ?_, ?_, ?_, ?_, ?_, fun a ha => ?_,
    hput.input, hput.output, hput.level, ?_⟩
  · rwa [Mem.slice_length, Nat.sub_zero]
  · rw [hdone]
    rfl
  · rw [hdone]
    rfl
  · rw [hdone]
    exact hlen
  · rw [hmem]
    exact slice_writeBytes_head hwf s.enc.output _
  · rw [hmem]
    exact read_writeBytes_head_of_ne hwf s.enc.output ha
  · rw [hmem]
    exact hput.frame

end Sys2Proof.Proofs
end

section
/-! PROOFS. DEC's tokens (42_decoder.md R200 to R213): when a token faults, what it outputs and what it leaves unchanged, its START, and
the step that runs it. -/

namespace Sys2Proof.Proofs

open Sys2Proof Sys2Proof.Machine

/-! ### What a token does -/

/-- How far before `OUT[OP]` a token begins to read: the distance of a back-reference (R205). -/
def distanceBack : Instr → Nat
  | .matchSn d _ | .matchSf d _ | .matchLn d _ | .matchLf d _ => d
  | _ => 0

/-- Memory after the output of a token (R203, R207). -/
def outputMem (s : State) : Instr → Mem
  | .lit data => s.mem.writeBytes (s.dec.jobOut.addr s.dec.op.toNat) data
  | i => s.mem.copyForward (s.dec.jobOut.addr (s.dec.op.toNat - distanceBack i)) (s.dec.jobOut.addr s.dec.op.toNat) (outputBytes i)

/-- A token of `tlen` bytes that goes `dist` back and outputs `len` bytes passes the checks of R203 to R206. -/
def TokenFits (s : State) (tlen dist len : Nat) : Prop :=
  s.dec.ip.toNat + tlen ≤ s.dec.jobIn.len.toNat ∧ dist ≤ s.dec.op.toNat ∧ s.dec.op.toNat + len ≤ s.dec.jobOut.len.toNat

/-- What such a token makes of a state, `m` being memory after its output: nothing outside a running decompression (log entry 14),
`Corrupt` if it does not fit, else its output and the cursors moved. -/
def TokenOutcome (s : State) (tlen dist len : Nat) (m : Mem) (t : State) : Prop :=
  (s.busy .dec = false ∧ t = s) ∨ (s.busy .dec = true ∧ ¬ TokenFits s tlen dist len ∧ t = s.raise .dec .corrupt) ∨
  (s.busy .dec = true ∧ TokenFits s tlen dist len ∧ t = s.decRetire m tlen len)

theorem decLiteral_outcome (tlen : Nat) (data : List Byte) (s : State) : TokenOutcome s tlen 0 data.length
    (s.mem.writeBytes (s.dec.jobOut.addr s.dec.op.toNat) data) (decLiteral tlen data s) := by
  obtain hidle | ⟨hbusy, hill, hraise⟩ | ⟨hbusy, hin, hout, hretire⟩ := decLiteral_cases tlen data s
  · exact .inl hidle
  · exact .inr (.inl ⟨hbusy, fun ⟨hin, _, hout⟩ => by omega, hraise⟩)
  · exact .inr (.inr ⟨hbusy, ⟨hin, Nat.zero_le _, hout⟩, hretire⟩)

theorem decMatch_outcome (tlen dist len : Nat) (s : State) : TokenOutcome s tlen dist len
    (s.mem.copyForward (s.dec.jobOut.addr (s.dec.op.toNat - dist)) (s.dec.jobOut.addr s.dec.op.toNat) len)
    (decMatch tlen dist len s) := by
  obtain hidle | ⟨hbusy, hill, hraise⟩ | ⟨hbusy, hin, hdist, hout, hretire⟩ := decMatch_cases tlen dist len s
  · exact .inl hidle
  · exact .inr (.inl ⟨hbusy, fun ⟨hin, hdist, hout⟩ => by omega, hraise⟩)
  · exact .inr (.inr ⟨hbusy, ⟨hin, hdist, hout⟩, hretire⟩)

theorem execToken_outcome {i : Instr} (hi : i.isToken = true) (s : State) : ∃ t, exec i s = .next t ∧
    TokenOutcome s i.tlen (distanceBack i) (outputBytes i) (outputMem s i) t := by
  cases i with
  | lit data => exact ⟨_, rfl, decLiteral_outcome _ data s⟩
  | matchSn d l | matchSf d l | matchLn d l | matchLf d l => exact ⟨_, rfl, decMatch_outcome _ d l s⟩
  | adlInit | adlUpdate | adlLoad | adlRead | encCompress | decDecompress => cases hi

/-- The outcome of a token that answers `t`. -/
theorem outcome_of_execToken {i : Instr} (hi : i.isToken = true) {s t : State} (h : exec i s = .next t) :
    TokenOutcome s i.tlen (distanceBack i) (outputBytes i) (outputMem s i) t := by
  obtain ⟨t', hexec, houtcome⟩ := execToken_outcome hi s
  obtain rfl : t' = t := by simpa only [hexec, Host.Outcome.next.injEq] using h
  exact houtcome

section Running

variable {s : State} {i : Instr}

theorem execToken_of_fits (hi : i.isToken = true) (hbusy : s.busy .dec = true)
    (hfits : TokenFits s i.tlen (distanceBack i) (outputBytes i)) :
    exec i s = .next (s.decRetire (outputMem s i) i.tlen (outputBytes i)) := by
  obtain ⟨t, hexec, ⟨hidle, _⟩ | ⟨_, hill, _⟩ | ⟨_, _, rfl⟩⟩ := execToken_outcome hi s
  · simp [hbusy] at hidle
  · exact absurd hfits hill
  · exact hexec

theorem execToken_of_not_fits (hi : i.isToken = true) (hbusy : s.busy .dec = true)
    (hill : ¬ TokenFits s i.tlen (distanceBack i) (outputBytes i)) : exec i s = .next (s.raise .dec .corrupt) := by
  obtain ⟨t, hexec, ⟨hidle, _⟩ | ⟨_, _, rfl⟩ | ⟨_, hfits, _⟩⟩ := execToken_outcome hi s
  · simp [hbusy] at hidle
  · exact hexec
  · exact absurd hfits hill

end Running

/-- `i` is the back-reference of the operands in one of the four formats (R94 to R97). -/
def IsBackReference (i : Instr) (d l : Nat) : Prop :=
  i = .matchSn d l ∨ i = .matchSf d l ∨ i = .matchLn d l ∨ i = .matchLf d l

/-- Whatever its format, a back-reference is a token that does what its operands say. -/
theorem backReference_parts {i : Instr} {d l : Nat} (h : IsBackReference i d l) :
    i.isToken = true ∧ distanceBack i = d ∧ outputBytes i = l := by
  obtain rfl | rfl | rfl | rfl := h
  all_goals exact ⟨rfl, rfl, rfl⟩

theorem outputMem_of_backReference {i : Instr} {d l : Nat} (h : IsBackReference i d l) (s : State) : outputMem s i =
    s.mem.copyForward (s.dec.jobOut.addr (s.dec.op.toNat - d)) (s.dec.jobOut.addr s.dec.op.toNat) l := by
  obtain rfl | rfl | rfl | rfl := h
  all_goals rfl

/-- Every distance that has an encoding is at least 1 (R98, R99). -/
theorem backReference_distance_pos {i : Instr} {d l : Nat} (h : IsBackReference i d l) (hwf : i.wf = true) : 1 ≤ d := by
  obtain rfl | rfl | rfl | rfl := h
  · obtain ⟨⟨hd, _⟩, _⟩ := (wf_matchSn_iff d l).mp hwf
    exact hd
  · obtain ⟨⟨hfar, _⟩, _⟩ := (wf_matchSf_iff d l).mp hwf
    exact Nat.zero_lt_of_lt hfar
  · obtain ⟨⟨hd, _⟩, _⟩ := (wf_matchLn_iff d l).mp hwf
    exact hd
  · obtain ⟨⟨hfar, _⟩, _⟩ := (wf_matchLf_iff d l).mp hwf
    exact Nat.zero_lt_of_lt hfar

/-- Settles O39: each of the three causes is a check that fails. -/
theorem illFormedTokensAreCorrupt : Obligations.IllFormedTokensAreCorrupt := by
  refine fun s i hbusy hi hill => execToken_of_not_fits hi hbusy fun ⟨hin, hdist, hout⟩ => ?_
  obtain hpast | hpast | ⟨d, l, hmatch, hpast⟩ := hill
  · omega
  · omega
  · obtain ⟨_, hback, _⟩ := backReference_parts hmatch
    omega

/-! ### The output of a token -/

/-- An address that is none of `len` bytes of a buffer is outside their range. -/
theorem outside_of_ne {b : Buf} {op len a : Nat} (h : ∀ j, j < len → a ≠ b.addr (op + j)) :
    ¬ (b.addr op ≤ a ∧ a < b.addr op + len) := by
  intro ⟨hlow, hhigh⟩
  simp only [Buf.addr] at h hlow hhigh
  exact h (a - (b.base + op)) (by omega) (by omega)

/-- A token changes no byte but those it outputs. -/
theorem read_outputMem_of_ne {s : State} (hw : Memory.wf s.mem = true) (i : Instr) {a : Nat}
    (ha : ∀ j, j < outputBytes i → a ≠ s.dec.jobOut.addr (s.dec.op.toNat + j)) :
    (outputMem s i).read a = s.mem.read a := by
  have houtside := outside_of_ne ha
  cases i with
  | lit data => exact (Mem.read_writeBytes data _ a hw).trans (if_neg houtside)
  | _ => exact Mem.read_copyForward_frame _ _ _ a hw houtside

/-- The bytes a literal run outputs (R203). -/
theorem at_writeBytes {m : Mem} (hw : Memory.wf m = true) (b : Buf) (op : Nat) {data : List Byte} {j : Nat}
    (hj : j < data.length) : (m.writeBytes (b.addr op) data).at b (op + j) = data.getD j 0#8 := by
  have hin : b.addr op ≤ b.addr (op + j) ∧ b.addr (op + j) < b.addr op + data.length := by
    simp only [Buf.addr]
    omega
  rw [Mem.at, Mem.read_writeBytes _ _ _ hw, if_pos hin, Buf.addr, Buf.addr, ← Nat.add_assoc, Nat.add_sub_cancel_left]

/-- The bytes a back-reference outputs (R207). -/
theorem at_copyForward {m : Mem} (hw : Memory.wf m = true) (b : Buf) {op d l j : Nat} (hd : 1 ≤ d) (hop : d ≤ op) (hj : j < l) :
    (m.copyForward (b.addr (op - d)) (b.addr op) l).at b (op + j) = m.at b (op - d + j % d) := by
  have hdst : b.addr op = b.addr (op - d) + d := by
    simp only [Buf.addr]
    omega
  have hread := Mem.read_copyForward d l hd (b.addr (op - d)) j hw hj
  rw [← hdst] at hread
  simpa only [Mem.at, Buf.addr, Nat.add_assoc] using hread

/-- A token that fits: memory after its output, the bytes it leaves, the cursors moved, the end of the stream, and nothing else. -/
theorem execToken_retires {s : State} {i : Instr} (hi : i.isToken = true) (hw : Memory.wf s.mem = true)
    (hbusy : s.busy .dec = true) (hfits : TokenFits s i.tlen (distanceBack i) (outputBytes i)) :
    ∃ t, exec i s = .next t ∧ t.mem = outputMem s i ∧
      (∀ a, (∀ j, j < outputBytes i → a ≠ s.dec.jobOut.addr (s.dec.op.toNat + j)) → t.mem.read a = s.mem.read a) ∧
      t.dec.ip.toNat = s.dec.ip.toNat + i.tlen ∧ t.dec.op.toNat = s.dec.op.toNat + outputBytes i ∧
      (if t.dec.ip = s.dec.jobIn.len then t.dec.status = .done ∧ t.dec.err = .none ∧ t.dec.outLen = t.dec.op
        else t.dec.status = .busy ∧ t.dec.err = s.dec.err ∧ t.dec.outLen = s.dec.outLen) ∧
      t = { s with mem := t.mem, dec := { s.dec with
        ip := t.dec.ip, op := t.dec.op, status := t.dec.status, err := t.dec.err, outLen := t.dec.outLen } } := by
  have ⟨hin, _, hout⟩ := hfits
  exact ⟨_, execToken_of_fits hi hbusy hfits, rfl, fun a ha => read_outputMem_of_ne hw i ha,
    (State.decRetire_fields (outputMem s i) hbusy hin hout rfl).2⟩

/-- Settles O37: a `LIT` inside IN and the capacity fits, and its bytes are written. -/
theorem litOutputsItsBytes : Obligations.LitOutputsItsBytes := by
  intro s data hw hbusy _ _ hin hout
  rw [Nat.add_assoc] at hin
  obtain ⟨t, hexec, hmem, hframe, hip, hop, hend, hrest⟩ :=
    execToken_retires (i := .lit data) rfl hw hbusy ⟨hin, Nat.zero_le _, hout⟩
  refine ⟨t, hexec, fun j hj => ?_, hframe, by rw [hip, Nat.add_assoc]; rfl, hop, hend, hrest⟩
  rw [hmem]
  exact at_writeBytes hw _ _ hj

/-- Settles O38: a back-reference that passes the checks fits, and its bytes are copied. -/
theorem matchRepeatsTheLastBytes : Obligations.MatchRepeatsTheLastBytes := by
  intro s i d l hmatch hw hbusy hwf hin hdist hout
  obtain ⟨hi, rfl, rfl⟩ := backReference_parts hmatch
  obtain ⟨t, hexec, hmem, hframe, hip, hop, hend, hrest⟩ := execToken_retires hi hw hbusy ⟨hin, hdist, hout⟩
  refine ⟨t, hexec, fun j hj => ?_, hframe, hip, hop, hend, hrest⟩
  rw [hmem, outputMem_of_backReference hmatch]
  exact at_copyForward hw _ (backReference_distance_pos hmatch hwf) hdist hj

/-- Settles O40, by the outcomes of a token. -/
theorem tokenFrame : Obligations.TokenFrame := by
  intro s t i hw hi h
  obtain ⟨_, rfl⟩ | ⟨hbusy, _, rfl⟩ | ⟨hbusy, ⟨hin, _, hout⟩, ht⟩ := outcome_of_execToken hi h
  · exact ⟨rfl, fun _ _ => rfl, fun _ => rfl⟩
  · exact ⟨rfl, fun _ _ => rfl, fun hidle => by simp [hbusy] at hidle⟩
  · obtain ⟨hmem, _, _, _, hframe⟩ := State.decRetire_fields (outputMem s i) hbusy hin hout ht
    refine ⟨hframe, fun a ha => ?_, fun hidle => by simp [hbusy] at hidle⟩
    rw [hmem]
    exact read_outputMem_of_ne hw i ha

/-! ### START (R200, R201) -/

theorem execDecDecompress_of_empty {s : State} (hidle : s.busy .dec = false) (hinput : s.dec.input.len = 0#32) :
    exec .decDecompress s = .next ((s.setDec s.dec.start).raise .dec .corrupt) := by
  simp [exec, execDecDecompress, hidle, hinput]

theorem execDecDecompress_started {s : State} (hidle : s.busy .dec = false) (hinput : s.dec.input.len ≠ 0#32)
    (h : s.launchRefusal .dec [s.dec.input] [s.dec.output] = none) :
    exec .decDecompress s = .next (s.setDec s.dec.start) := by
  have hlen : s.dec.input.len.toNat ≠ 0 := fun hzero => hinput (BitVec.eq_of_toNat_eq hzero)
  simp [exec, execDecDecompress, hidle, hlen, h]

/-- Settles O42: an empty input is `Corrupt`, and else the launch goes through and exec is the START. -/
theorem decDecompressStarts : Obligations.DecDecompressStarts := by
  refine fun s => ⟨fun hidle hinput => ?_, fun hidle hinput hin hout hapart hread hwrite => ?_, execStart_of_busy (u := .dec)⟩
  · exact ⟨_, execDecDecompress_of_empty hidle hinput, rfl, rfl, rfl, rfl, rfl, rfl⟩
  · have hlaunch : s.launchRefusal .dec [s.dec.input] [s.dec.output] = none :=
      (State.launchRefusal_none s .dec _ _).mpr ⟨by simp [hin, hout], by simpa using hapart, by simpa using hread,
        by simpa using hwrite⟩
    exact execDecDecompress_started hidle hinput hlaunch

/-! ### The step that runs an instruction (R202, R241) -/

section Turn

variable {s : State} (hbusy : s.busy .dec = true) (hleft : s.dec.ip.toNat < s.dec.jobIn.len.toNat)
include hbusy hleft

theorem decTurn_of_token {i : Instr} {rest : List Byte} (h : decode (.token s.decStream) = .ok (i, rest)) :
    decTurn s = exec i s := by
  simp only [decTurn, hbusy, hleft, h, if_true]

theorem decTurn_of_truncated {e : DecodeError} (h : decode (.token s.decStream) = .error e) :
    decTurn s = .next (s.raise .dec .corrupt) := by
  simp only [decTurn, hbusy, hleft, h, if_true]

end Turn

theorem step_of_decMoves {s : State} (hm : s.mover = .dec) : step s = decTurn s.popTurn := by
  simp only [step, hm]

theorem step_of_hostMoves {s : State} {a : HostAction} {queue : List HostAction} (hm : s.mover = .host)
    (hq : s.hostQueue = a :: queue) : step s = runAction a (s.popTurn.setHostQueue queue) := by
  simp only [step, hm, hostTurn, State.popTurn_hostQueue, hq]

/-- Settles O10, by whose turn it is. -/
theorem stepRunsTheDecodedInstruction : Obligations.StepRunsTheDecodedInstruction := by
  refine ⟨fun s i rest hm hbusy hleft hdecode => ?_, fun s e hm hbusy hleft hdecode => ?_,
    fun s a queue i hm hq hdecode => ?_, fun s a queue hm hq => step_of_hostMoves hm hq, fun s => ⟨fun hm => ?_, fun hm => ?_⟩⟩
  · rw [step_of_decMoves hm]
    exact decTurn_of_token (s := s.popTurn) ((State.popTurn_busy s .dec).trans hbusy) hleft hdecode
  · rw [step_of_decMoves hm]
    exact decTurn_of_truncated (s := s.popTurn) ((State.popTurn_busy s .dec).trans hbusy) hleft hdecode
  · rw [step_of_hostMoves hm hq]
    simp only [runAction, hdecode]
  · simp only [step, hm]
  · simp only [step, hm]

/-! ### Every turn of a running unit (R202, R242) -/

theorem adlTurn_advances {s : State} (hbusy : s.busy .adl = true) (hsound : s.adl.Sound) :
    (adlTurn s).busy .adl = false ∨
      ((adlTurn s).adl.idx.toNat = s.adl.idx.toNat + 1 ∧ (adlTurn s).adl.idx.toNat < s.adl.job.len.toNat) := by
  obtain ⟨_, _, hleft⟩ := hsound
  replace hleft := hleft ((State.busy_adl s).mp hbusy)
  have hidx := adlByte_idx_toNat hleft (s.mem.at s.adl.job s.adl.idx.toNat)
  rw [adlTurn_of_byteLeft hbusy hleft]
  obtain ⟨_, hend⟩ | ⟨hmore, hrunning⟩ := AdlUnit.settle_cases (s.adl.byte (s.mem.at s.adl.job s.adl.idx.toNat))
  · rw [hend]
    exact .inl rfl
  · rw [hrunning]
    exact .inr ⟨hidx, hmore⟩

theorem encTurn_advances {s : State} (hbusy : s.busy .enc = true) (hsound : s.enc.Sound) :
    (encTurn s).busy .enc = false ∨
      (s.enc.ip.toNat + 1 ≤ (encTurn s).enc.ip.toNat ∧ (encTurn s).enc.ip.toNat ≤ s.enc.jobIn.len.toNat) := by
  have hrun := running_of_busy hsound hbusy
  by_cases hpos : s.enc.ip.toNat + 3 ≤ s.enc.jobIn.len.toNat
  · rw [encTurn_of_position hbusy hpos]
    by_cases hnone : (foundMatch s).1 = 0
    · have hip : (encPosition s).enc.ip.toNat = s.enc.ip.toNat + 1 := by
        rw [encPosition_of_no_match hnone]
        exact toNat_ofNat_of_le (b := s.enc.jobIn.len) (by omega)
      omega
    · obtain ⟨hthree, hin, _⟩ := foundMatch_bounds hnone
      have hip : (encPosition s).enc.ip.toNat = s.enc.ip.toNat + (foundMatch s).1 := by
        rw [encPosition_of_match hnone (matchBytes_fit hrun hnone hpos)]
        exact toNat_ofNat_of_le (b := s.enc.jobIn.len) (by omega)
      omega
  · rw [encTurn_of_end hbusy (Nat.not_le.mp hpos), encFlush_of_fit (flushBytes_fit hrun)]
    exact .inl rfl

theorem decTurn_advances {s t : State} (hbusy : s.busy .dec = true) (h : decTurn s = .next t) :
    t.busy .dec = false ∨ (s.dec.ip.toNat + 2 ≤ t.dec.ip.toNat ∧ t.dec.ip.toNat < s.dec.jobIn.len.toNat) := by
  obtain ⟨hidle, _⟩ | ⟨_, _, rfl⟩ | ⟨_, _, rfl⟩ | ⟨_, _, i, rest, hdecode, hi, hexec⟩ := decTurn_cases h
  · simp [hbusy] at hidle
  · exact .inl rfl
  · exact .inl rfl
  · obtain ⟨_, htwo, _⟩ := decodingConsumesTheTokenLength _ _ _ hdecode
    obtain ⟨hidle, _⟩ | ⟨_, _, rfl⟩ | ⟨_, ⟨hin, _, hout⟩, ht⟩ := outcome_of_execToken hi hexec
    · simp [hbusy] at hidle
    · exact .inl rfl
    · obtain ⟨_, hip, _, hend, _⟩ := State.decRetire_fields (outputMem s i) hbusy hin hout ht
      split at hend
      next =>
        obtain ⟨hdone, _⟩ := hend
        exact .inl (by simp [State.busy, hdone])
      next hmore =>
        rw [← BitVec.toNat_inj] at hmore
        omega

/-- Settles O14: the mover's turn, unit by unit. -/
theorem everyTurnAdvances : Obligations.EveryTurnAdvances := by
  refine fun s t hadl henc _ h => ⟨fun hm hbusy => ?_, fun hm hbusy => ?_, fun hm hbusy => ?_⟩
  · rw [step_of_mover_adl hm h]
    exact adlTurn_advances (s := s.popTurn) ((State.popTurn_busy s .adl).trans hbusy) hadl
  · rw [step_of_mover_enc hm h]
    exact encTurn_advances (s := s.popTurn) ((State.popTurn_busy s .enc).trans hbusy) henc
  · exact decTurn_advances (s := s.popTurn) ((State.popTurn_busy s .dec).trans hbusy) (step_of_mover_dec hm h)

end Sys2Proof.Proofs
end

section
/-! PROOFS. DEC.DECOMPRESS runs to `decompress` (42_decoder.md R200 to R213): a turn is a turn of the loop of R202 on the bytes left and
the output so far. -/

namespace Sys2Proof.Proofs

open Sys2Proof Sys2Proof.Machine

/-! ### A token on the output so far -/

/-- The output of the running decompression so far. -/
def outputSoFar (s : State) : List Byte := s.mem.slice s.dec.jobOut 0 s.dec.op.toNat

@[simp] theorem outputSoFar_length (s : State) : (outputSoFar s).length = s.dec.op.toNat := by simp [outputSoFar]

theorem lit_or_backReference {i : Instr} (hi : i.isToken = true) :
    (∃ data, i = .lit data) ∨ ∃ d l, IsBackReference i d l := by
  cases i with
  | lit data => exact .inl ⟨data, rfl⟩
  | matchSn d l => exact .inr ⟨d, l, .inl rfl⟩
  | matchSf d l => exact .inr ⟨d, l, .inr (.inl rfl)⟩
  | matchLn d l => exact .inr ⟨d, l, .inr (.inr (.inl rfl))⟩
  | matchLf d l => exact .inr ⟨d, l, .inr (.inr (.inr rfl))⟩
  | adlInit | adlUpdate | adlLoad | adlRead | encCompress | decDecompress => cases hi

theorem expandToken_of_backReference {i : Instr} {d l : Nat} (h : IsBackReference i d l) (cap : Nat) (out : List Byte) :
    expandToken cap out i = expandMatch cap out d l := by
  obtain rfl | rfl | rfl | rfl := h
  all_goals rfl

section Token

variable {s : State} {i : Instr}

/-- A token that fits extends the output so far by what it writes to memory. -/
theorem expandToken_of_fits (hw : Memory.wf s.mem = true) (hi : i.isToken = true) (hwf : i.wf = true)
    (hfits : TokenFits s i.tlen (distanceBack i) (outputBytes i)) : expandToken s.dec.jobOut.len.toNat (outputSoFar s) i =
      .ok ((outputMem s i).slice s.dec.jobOut 0 (s.dec.op.toNat + outputBytes i)) := by
  obtain ⟨_, hdist, hout⟩ := hfits
  obtain ⟨data, rfl⟩ | ⟨d, l, hmatch⟩ := lit_or_backReference hi
  · have hcap : ¬ s.dec.jobOut.len.toNat < (outputSoFar s).length + data.length := by
      rw [outputSoFar_length]
      exact Nat.not_lt.mpr hout
    have hwritten := Mem.slice_writeBytes hw s.dec.jobOut s.dec.op.toNat data
    rw [expandToken, if_neg hcap]
    exact congrArg Except.ok hwritten.symm
  · obtain ⟨_, rfl, rfl⟩ := backReference_parts hmatch
    rw [expandToken_of_backReference hmatch, outputMem_of_backReference hmatch,
      expandMatch_of_fit (by rwa [outputSoFar_length]) (by rwa [outputSoFar_length]),
      Mem.slice_copyForward _ (backReference_distance_pos hmatch hwf) _ _ _ hw hdist]
    rfl

/-- A token inside IN that does not fit is `Corrupt` on the output so far too. -/
theorem expandToken_of_not_fits (hi : i.isToken = true) (hin : s.dec.ip.toNat + i.tlen ≤ s.dec.jobIn.len.toNat)
    (hill : ¬ TokenFits s i.tlen (distanceBack i) (outputBytes i)) :
    expandToken s.dec.jobOut.len.toNat (outputSoFar s) i = .error .corrupt := by
  obtain ⟨data, rfl⟩ | ⟨d, l, hmatch⟩ := lit_or_backReference hi
  · have hcap : s.dec.jobOut.len.toNat < s.dec.op.toNat + data.length :=
      Nat.not_le.mp fun hout => hill ⟨hin, Nat.zero_le _, hout⟩
    rw [expandToken, outputSoFar_length, if_pos hcap]
  · obtain ⟨_, rfl, rfl⟩ := backReference_parts hmatch
    rw [expandToken_of_backReference hmatch, expandMatch, outputSoFar_length]
    split
    next => rfl
    next hdist =>
      exact if_pos (Nat.not_le.mp fun hout => hill ⟨hin, Nat.not_lt.mp hdist, hout⟩)

end Token

/-! ### A turn -/

/-- A decompression that runs with no other unit, and no order of agents given (log entry 1). -/
structure DecAlone (s : State) : Prop where
  noTurns : s.turns = []
  adlIdle : s.busy .adl = false
  encIdle : s.busy .enc = false
  busy : s.busy .dec = true
  sound : s.dec.Sound
  memWf : Memory.wf s.mem = true
  apart : s.dec.jobIn.meets s.dec.jobOut = false

/-- What the loop of R202 makes of the bytes left and the output so far. -/
def restOfRun (fuel : Nat) (s : State) : Except ErrCode (List Byte) :=
  decompressFuel s.dec.jobOut.len.toNat fuel s.decStream (outputSoFar s)

/-- `t` is `s` with DEC's operation ended as `r` says, and nothing but DEC and bytes of its output buffer changed. -/
structure DecEnds (s : State) (r : Except ErrCode (List Byte)) (t : State) : Prop where
  frame : t = (s.setMem t.mem).setDec t.dec
  kept : ∀ a, s.dec.jobOut.holds a = false → t.mem.read a = s.mem.read a
  done : ∀ y, r = .ok y → t.dec.status = .done ∧ t.dec.err = .none ∧ t.dec.outLen.toNat = y.length ∧
    t.mem.slice s.dec.jobOut 0 y.length = y
  fault : ∀ e, r = .error e → t.dec.status = .fault ∧ t.dec.err = e ∧ e = .corrupt ∧ t.dec.outLen = 0#32

theorem decEnds_raise (s : State) : DecEnds s (.error .corrupt) (s.raise .dec .corrupt) where
  frame := rfl
  kept _ _ := rfl
  done _ h := nomatch h
  fault e h := by
    cases h
    exact ⟨rfl, rfl, rfl, rfl⟩

@[simp] theorem decStream_length (s : State) : s.decStream.length = s.dec.jobIn.len.toNat - s.dec.ip.toNat := by
  simp [State.decStream]

theorem ip_lt_of_decAlone {s : State} (h : DecAlone s) : s.dec.ip.toNat < s.dec.jobIn.len.toNat := by
  obtain ⟨_, _, hleft, _⟩ := (decSound_iff_of_busy ((State.busy_dec s).mp h.busy)).mp h.sound
  exact hleft

theorem decStream_ne_nil {s : State} (h : DecAlone s) : s.decStream ≠ [] :=
  List.ne_nil_of_length_pos (by rw [decStream_length]; exact Nat.sub_pos_of_lt (ip_lt_of_decAlone h))

/-- With no order of agents given and the other units idle, a BUSY DEC moves (log entry 1). -/
theorem step_of_decAlone {s : State} (h : DecAlone s) : step s = decTurn s := by
  have hmover : s.mover = .dec := by simp [State.mover, h.noTurns, State.defaultAgent, h.adlIdle, h.encIdle, h.busy]
  rw [step_of_decMoves hmover, State.popTurn_of_nil h.noTurns]

/-- A truncated token ends the loop of R202. -/
theorem decompressFuel_of_truncated {bytes : List Byte} {e : DecodeError} (hne : bytes ≠ [])
    (h : decodeToken bytes = .error e) (cap fuel : Nat) (out : List Byte) :
    decompressFuel cap (fuel + 1) bytes out = .error .corrupt := by
  obtain ⟨b, bs, rfl⟩ := List.exists_cons_of_ne_nil hne
  simp only [decompressFuel, h]

/-- The loop of R202 at a decoded token. -/
theorem restOfRun_of_token {s : State} {i : Instr} {rest : List Byte} (hdecode : decodeToken s.decStream = .ok (i, rest)) (fuel : Nat) :
    restOfRun (fuel + 1) s = expandToken s.dec.jobOut.len.toNat (outputSoFar s) i >>=
      fun out => decompressFuel s.dec.jobOut.len.toNat fuel rest out := by
  obtain ⟨hwf, hbytes⟩ := encodeToken_of_decodeToken hdecode
  rw [restOfRun, hbytes, decompressFuel_encodeToken (isToken_of_decodeToken hdecode) hwf]

/-- DEC's turn changes only DEC and memory, and not the latched copies of the operands. -/
theorem decTurn_frame {s t : State} (h : decTurn s = .next t) :
    t = (s.setMem t.mem).setDec t.dec ∧ t.dec.jobIn = s.dec.jobIn ∧ t.dec.jobOut = s.dec.jobOut := by
  obtain ⟨_, rfl⟩ | ⟨_, _, rfl⟩ | ⟨_, _, rfl⟩ | ⟨_, _, i, _, _, hi, hexec⟩ := decTurn_cases h
  · exact ⟨rfl, rfl, rfl⟩
  · exact ⟨rfl, rfl, rfl⟩
  · exact ⟨rfl, rfl, rfl⟩
  · obtain ⟨t', hnext, hframe, _, _, hjobIn, hjobOut, _⟩ := execToken_frame i hi s
    obtain rfl : t' = t := by simpa only [hnext, Host.Outcome.next.injEq] using hexec
    exact ⟨hframe, hjobIn, hjobOut⟩

section Turn

variable {s t : State} (h : DecAlone s)
include h

/-- A turn that leaves DEC BUSY leaves it alone. -/
theorem decAlone_decTurn (hturn : decTurn s = .next t) (hbusy : t.busy .dec = true) : DecAlone t := by
  obtain ⟨hframe, hjobIn, hjobOut⟩ := decTurn_frame hturn
  obtain ⟨hwf, _⟩ := decTurn_mem h.memWf hturn
  refine ⟨?_, ?_, ?_, hbusy, decTurn_sound h.sound hturn, hwf, by rw [hjobIn, hjobOut, h.apart]⟩
  · rw [hframe]
    exact h.noTurns
  · rw [hframe]
    exact h.adlIdle
  · rw [hframe]
    exact h.encIdle

/-- An end reached from the state after a turn is an end reached from the state before it. -/
theorem decEnds_of_decTurn (hturn : decTurn s = .next t) {r : Except ErrCode (List Byte)} {u : State} (hends : DecEnds t r u) :
    DecEnds s r u := by
  obtain ⟨hframe, _, hjobOut⟩ := decTurn_frame hturn
  obtain ⟨_, hkept⟩ := decTurn_mem h.memWf hturn
  obtain ⟨hframe', hkept', hdone, hfault⟩ := hends
  rw [hjobOut] at hkept' hdone
  refine ⟨?_, fun a ha => (hkept' a ha).trans (hkept a ha), hdone, hfault⟩
  rw [hframe', hframe]
  rfl

/-- DEC's output leaves its input as it is (R76): after a token the bytes behind it are left. -/
theorem decStream_decTurn {i : Instr} {rest : List Byte} (hdecode : decodeToken s.decStream = .ok (i, rest))
    (hturn : decTurn s = .next t) (hip : t.dec.ip.toNat = s.dec.ip.toNat + i.tlen) : t.decStream = rest := by
  obtain ⟨_, hjobIn, _⟩ := decTurn_frame hturn
  obtain ⟨_, hkept⟩ := decTurn_mem h.memWf hturn
  obtain ⟨hwf, hbytes⟩ := encodeToken_of_decodeToken hdecode
  obtain ⟨hlength, _⟩ := encodeToken_length (isToken_of_decodeToken hdecode) hwf
  calc t.decStream
      = s.mem.slice s.dec.jobIn (s.dec.ip.toNat + i.tlen) s.dec.jobIn.len.toNat := by
        rw [State.decStream, hjobIn, hip]
        refine Mem.slice_congr _ _ _ fun k _ hk => hkept _ (Buf.holds_of_not_meets h.apart ((Buf.holds_iff _ _).mpr ?_))
        simp only [Buf.addr]
        omega
    _ = s.decStream.drop i.tlen := (Mem.slice_drop _ _ _ _ _).symm
    _ = rest := by rw [hbytes, ← hlength, List.drop_left]

/-- A decoded token lies inside IN. -/
theorem token_in_input {i : Instr} {rest : List Byte} (hdecode : decodeToken s.decStream = .ok (i, rest)) :
    s.dec.ip.toNat + i.tlen ≤ s.dec.jobIn.len.toNat := by
  obtain ⟨hlength, _⟩ := decodingConsumesTheTokenLength _ _ _ hdecode
  have hleft := ip_lt_of_decAlone h
  rw [decStream_length] at hlength
  omega

/-- A token that fits is a turn of the loop; it ends the stream, or leaves the rest of the run to its next state. -/
theorem turn_of_fits {i : Instr} {rest : List Byte} (hdecode : decodeToken s.decStream = .ok (i, rest))
    (hfits : TokenFits s i.tlen (distanceBack i) (outputBytes i)) : ∃ t, decTurn s = .next t ∧
      (∀ fuel, restOfRun (fuel + 1) s = restOfRun fuel t) ∧
      (DecAlone t ∨ (DecEnds s (.ok (outputSoFar t)) t ∧ t.decStream = [])) := by
  have hi := isToken_of_decodeToken hdecode
  obtain ⟨hwf, _⟩ := encodeToken_of_decodeToken hdecode
  obtain ⟨t, hexec, hmem, _, hip, hop, hend, _⟩ := execToken_retires hi h.memWf h.busy hfits
  have hturn := (decTurn_of_token h.busy (ip_lt_of_decAlone h) hdecode).trans hexec
  obtain ⟨hframe, hjobIn, hjobOut⟩ := decTurn_frame hturn
  have hrest := decStream_decTurn h hdecode hturn hip
  have hout : expandToken s.dec.jobOut.len.toNat (outputSoFar s) i = .ok (outputSoFar t) := by
    rw [expandToken_of_fits h.memWf hi hwf hfits, outputSoFar, hmem, hop, hjobOut]
  refine ⟨t, hturn, fun fuel => ?_, ?_⟩
  · rw [restOfRun_of_token hdecode, hout, restOfRun, hrest, hjobOut]
    rfl
  · split at hend
    next hlast =>
      obtain ⟨hstatus, herr, houtLen⟩ := hend
      refine .inr ⟨⟨hframe, (decTurn_mem h.memWf hturn).2, fun y hy => ?_, fun e he => nomatch he⟩, ?_⟩
      · cases hy
        rw [outputSoFar_length, houtLen, outputSoFar, hjobOut]
        exact ⟨hstatus, herr, rfl, rfl⟩
      · rw [State.decStream, hjobIn, hlast]
        exact Mem.slice_of_le _ _ (Nat.le_refl _)
    next =>
      obtain ⟨hbusy, _⟩ := hend
      exact .inl (decAlone_decTurn h hturn ((State.busy_dec t).mpr hbusy))

/-- A turn ends the operation as the loop ends, or is a turn of the loop and leaves the rest of the run. -/
theorem turn_of_decAlone : ∃ t, decTurn s = .next t ∧ ((∀ fuel, DecEnds s (restOfRun (fuel + 2) s) t) ∨
    (DecAlone t ∧ ∀ fuel, restOfRun (fuel + 1) s = restOfRun fuel t)) := by
  have hleft := ip_lt_of_decAlone h
  cases hdecode : decodeToken s.decStream with
  | error e =>
    refine ⟨_, decTurn_of_truncated h.busy hleft hdecode, .inl fun fuel => ?_⟩
    rw [restOfRun, decompressFuel_of_truncated (decStream_ne_nil h) hdecode]
    exact decEnds_raise s
  | ok p =>
    obtain ⟨i, rest⟩ := p
    by_cases hfits : TokenFits s i.tlen (distanceBack i) (outputBytes i)
    · obtain ⟨t, hturn, hloop, halone | ⟨hends, hempty⟩⟩ := turn_of_fits h hdecode hfits
      · exact ⟨t, hturn, .inr ⟨halone, hloop⟩⟩
      · refine ⟨t, hturn, .inl fun fuel => ?_⟩
        rw [hloop, restOfRun, hempty]
        exact hends
    · have hi := isToken_of_decodeToken hdecode
      have hexec := execToken_of_not_fits hi h.busy hfits
      refine ⟨_, (decTurn_of_token h.busy hleft hdecode).trans hexec, .inl fun fuel => ?_⟩
      rw [restOfRun_of_token hdecode, expandToken_of_not_fits hi (token_in_input h hdecode) hfits]
      exact decEnds_raise s

end Turn

/-! ### The run of a decompression -/

/-- A step for each two bytes left, and one more, are enough to end as the loop of R202 ends. -/
theorem run_of_decAlone : ∀ (fuel : Nat) {s : State}, DecAlone s → s.decStream.length ≤ fuel →
    ∃ k t, k ≤ s.decStream.length / 2 + 1 ∧ Sys2Proof.core.run k s = .next t ∧ DecEnds s (restOfRun (fuel + 1) s) t
  | 0, s, h, hfuel => absurd (List.length_eq_zero_iff.mp (Nat.le_zero.mp hfuel)) (decStream_ne_nil h)
  | fuel + 1, s, h, hfuel => by
    obtain ⟨t, hturn, hends | ⟨halone, hloop⟩⟩ := turn_of_decAlone h
    all_goals have hstep := (step_of_decAlone h).trans hturn
    · exact ⟨1, t, Nat.le_add_left 1 _, (core_run_succ 0 hstep).trans (core_run_zero t), hends fuel⟩
    · obtain ⟨_, hjobIn, _⟩ := decTurn_frame hturn
      have hshorter : t.decStream.length + 2 ≤ s.decStream.length := by
        have hleft := ip_lt_of_decAlone halone
        obtain hidle | ⟨hadvances, _⟩ := decTurn_advances h.busy hturn
        · simp [halone.busy] at hidle
        · rw [hjobIn] at hleft
          rw [decStream_length, decStream_length, hjobIn]
          omega
      obtain ⟨k, u, hk, hrun, hends⟩ := run_of_decAlone fuel halone (by omega)
      refine ⟨k + 1, u, by omega, (core_run_succ k hstep).trans hrun, decEnds_of_decTurn h hturn ?_⟩
      rw [hloop]
      exact hends

/-- START from a quiet state leaves a decompression that runs alone. -/
theorem decAlone_start {s : State} (hquiet : s.Quiet) (hwf : Memory.wf s.mem = true) (hinput : s.dec.input.len.toNat ≠ 0)
    (hapart : s.dec.input.meets s.dec.output = false) : DecAlone (s.setDec s.dec.start) := by
  obtain ⟨hadl, henc, _, hturns⟩ := hquiet
  exact ⟨hturns, hadl, henc, rfl, decStart_sound hinput, hwf, hapart⟩

/-- From START on, the loop of R202 runs over the whole input with no output yet. -/
theorem restOfRun_start {s : State} (hinput : s.dec.input.len.toNat ≠ 0) :
    restOfRun (s.dec.input.len.toNat + 1) (s.setDec s.dec.start) =
      decompress (s.mem.slice s.dec.input 0 s.dec.input.len.toNat) s.dec.output.len.toNat := by
  have hne : s.mem.slice s.dec.input 0 s.dec.input.len.toNat ≠ [] :=
    List.ne_nil_of_length_pos (by rw [Mem.slice_length]; omega)
  rw [decompress_of_ne_nil hne, Mem.slice_length]
  rfl

/-- Settles O43: a quiet state lets the launch through, and the run from START ends as the loop of R202 does. -/
theorem decRunsToDecompress : Obligations.DecRunsToDecompress := by
  intro s hquiet hwf hinput hin hout hapart x
  have hlen : s.dec.input.len.toNat ≠ 0 := fun hzero => hinput (BitVec.eq_of_toNat_eq hzero)
  have hstart : exec .decDecompress s = .next (s.setDec s.dec.start) := by
    obtain ⟨hadl, henc, hdec, _⟩ := hquiet
    obtain ⟨_, hstarts, _⟩ := decDecompressStarts s
    exact hstarts hdec hinput hin hout hapart (by simp [State.outBufs, henc, hdec])
      (by simp [State.ownedBufs, hadl, henc, hdec])
  have hbytes : (s.setDec s.dec.start).decStream.length = s.dec.input.len.toNat := by
    rw [decStream_length]
    rfl
  obtain ⟨k, t, hk, hrun, hends⟩ :=
    run_of_decAlone s.dec.input.len.toNat (decAlone_start hquiet hwf hlen hapart) hbytes.le
  rw [restOfRun_start hlen] at hends
  rw [hbytes] at hk
  exact ⟨_, t, k, hstart, hk, hrun, hends.done, hends.fault, hends.kept, hends.frame⟩

end Sys2Proof.Proofs
end

section
/-! PROOFS. The round trip (42_decoder.md R216): a compressed block is the encodings of tokens that output the input again. -/

namespace Sys2Proof.Proofs

open Sys2Proof Sys2Proof.Machine

/-! ### What ENC's tokens output -/

theorem runTokens_litTokens (cap : Nat) : ∀ (fuel : Nat) (span out : List Byte), span.length ≤ fuel →
    out.length + span.length ≤ cap → runTokens cap out (litTokens fuel span) = .ok (out ++ span)
  | 0, span, out, hfuel, _ => by
    obtain rfl := List.length_eq_zero_iff.mp (Nat.le_zero.mp hfuel)
    rw [litTokens, runTokens, List.append_nil]
  | _ + 1, [], out, _, _ => by rw [litTokens, runTokens, List.append_nil]
  | fuel + 1, b :: bs, out, hfuel, hcap => by
    have hsplit : ((b :: bs).take Config.litMax).length + ((b :: bs).drop Config.litMax).length = (b :: bs).length := by
      rw [← List.length_append, List.take_append_drop]
    have hpos : 1 ≤ ((b :: bs).take Config.litMax).length := by
      simp only [Config.litMax, List.length_take, List.length_cons]
      omega
    have hfit : ¬ cap < out.length + ((b :: bs).take Config.litMax).length := by omega
    have ih := runTokens_litTokens cap fuel ((b :: bs).drop Config.litMax) (out ++ (b :: bs).take Config.litMax) (by omega)
      (by rw [List.length_append]; omega)
    simp only [litTokens, runTokens, expandToken, if_neg hfit, ih]
    rw [List.append_assoc, List.take_append_drop]

/-- The `LIT` tokens of a span that fits output it (R112, R203). -/
theorem runTokens_assembleLits {cap : Nat} {out span : List Byte} (h : out.length + span.length ≤ cap) :
    runTokens cap out (assembleLits span) = .ok (out ++ span) :=
  runTokens_litTokens cap span.length span out (Nat.le_refl _) h

section Block

variable {level p anchor : Nat} {x : List Byte} {ht : Cells 32}

/-- What the pending span `[a, b)` of the input puts outputs it behind the input's first `a` bytes. -/
theorem runTokens_pending {a b : Nat} (hab : a ≤ b) (hb : b ≤ x.length) :
    runTokens x.length (x.take a) (assembleLits (sliceOf x a b)) = .ok (x.take b) := by
  have hfit : (x.take a).length + (sliceOf x a b).length ≤ x.length := by
    rw [List.length_take, sliceOf_length x hb]
    omega
  rw [runTokens_assembleLits hfit, take_append_sliceOf x hab]

/-- A match found at `p`: its operands have a token, it goes back to a position of the input, and the input repeats there (R157 to
R162). -/
theorem matchAt_repeats (h : (matchAt level x p ht).1 ≠ 0) :
    1 ≤ (matchAt level x p ht).2 ∧ (matchAt level x p ht).2 ≤ 73727 ∧ (matchAt level x p ht).2 ≤ p ∧
    3 ≤ (matchAt level x p ht).1 ∧ ∀ i, i < (matchAt level x p ht).1 →
      byteAt x (p - (matchAt level x p ht).2 + i) = byteAt x (p + i) := by
  obtain ⟨hnone, _⟩ | ⟨w, _, ⟨hpos, hmax, hmin⟩, hoffer, _⟩ :=
    search_isBest (byteAt x) level x.length ht (hashAt (byteAt x) p) p
  · exact absurd (congrArg Prod.fst hnone) h
  · rw [matchAt, hoffer]
    refine ⟨hpos, hmax.trans (maxDist_le level), Nat.sub_le _ _, (three_le_minLen _).trans hmin, fun i hi => ?_⟩
    simp only [offer] at hpos hi ⊢
    rw [Nat.sub_sub_self (by omega)]
    exact matchLen_agrees (byteAt x) _ _ p i hi

/-- The back-reference of a match found at `p` outputs the bytes of the input it covers. -/
theorem exists_matchToken (hp : p ≤ x.length) (h : (matchAt level x p ht).1 ≠ 0) :
    ∃ i, i.isToken = true ∧ i.wf = true ∧
      emitMatch (matchAt level x p ht).2 (matchAt level x p ht).1 = encodeToken i ∧
      expandToken x.length (x.take p) i = .ok (x.take (p + (matchAt level x p ht).1)) := by
  obtain ⟨hpos, hmax, hback, hthree, hrepeats⟩ := matchAt_repeats h
  obtain ⟨hleft, _⟩ := matchAt_bounds h
  obtain ⟨i, hassemble, hemit⟩ := emitMatch_eq_encodeToken hpos hmax hthree
  obtain ⟨hi, hwf⟩ := assembleMatch_wf hassemble
  have hhead : (x.take p).length = p := List.length_take_of_le hp
  refine ⟨i, hi, hwf, hemit, ?_⟩
  rw [expandToken_of_assembleMatch hassemble, expandMatch_of_fit (by omega) (by omega),
    copyList_take x _ _ hpos p hback (by omega) hrepeats]

/-- `bytes` are the encodings of tokens that, executed behind the input's first `a` bytes, output the rest of the input. -/
def Completes (x : List Byte) (a : Nat) (bytes : List Byte) : Prop :=
  ∃ tokens, AllTokens tokens ∧ bytes = tokens.flatMap encodeToken ∧ runTokens x.length (x.take a) tokens = .ok x

/-- Tokens put in front of what completes the input from `b` on, that take the output from `a` to `b`. -/
theorem completes_of_tokens {a b : Nat} {tokens : List Instr} {bytes : List Byte} (htokens : AllTokens tokens)
    (hrun : runTokens x.length (x.take a) tokens = .ok (x.take b)) (h : Completes x b bytes) :
    Completes x a (tokens.flatMap encodeToken ++ bytes) := by
  obtain ⟨more, hmore, rfl, hrest⟩ := h
  refine ⟨tokens ++ more, List.forall_mem_append.mpr ⟨htokens, hmore⟩, List.flatMap_append.symm, ?_⟩
  rw [runTokens_append, hrun]
  exact hrest

theorem completes_nil (x : List Byte) : Completes x x.length [] :=
  ⟨[], List.forall_mem_nil _, rfl, by rw [runTokens, List.take_length]⟩

theorem completes_pending {a b : Nat} {bytes : List Byte} (hab : a ≤ b) (hb : b ≤ x.length) (h : Completes x b bytes) :
    Completes x a (emitLits (sliceOf x a b) ++ bytes) := by
  rw [emitLits_eq_flatMap]
  exact completes_of_tokens (allTokens_assembleLits _) (runTokens_pending hab hb) h

theorem completes_match {bytes : List Byte} (hp : p ≤ x.length) (hfound : (matchAt level x p ht).1 ≠ 0)
    (h : Completes x (p + (matchAt level x p ht).1) bytes) :
    Completes x p (emitMatch (matchAt level x p ht).2 (matchAt level x p ht).1 ++ bytes) := by
  obtain ⟨i, hi, hwf, hemit, hexpand⟩ := exists_matchToken hp hfound
  rw [hemit, ← List.flatMap_singleton encodeToken i]
  exact completes_of_tokens (List.forall_mem_singleton.mpr ⟨hi, hwf⟩) (by simp only [runTokens, hexpand]) h

/-- What the loop of R155 puts from a position on completes the input from the anchor on. -/
theorem completes_compressFuel : ∀ (fuel p anchor : Nat) (ht : Cells 32), anchor ≤ p → p ≤ x.length → x.length < p + fuel →
    Completes x anchor (compressFuel level x fuel p anchor ht)
  | 0, _, _, _, _, hp, hfuel => absurd hfuel (Nat.not_lt.mpr hp)
  | fuel + 1, p, anchor, ht, hanchor, hp, hfuel => by
    by_cases hpos : p + 3 ≤ x.length
    · by_cases hfound : (matchAt level x p ht).1 = 0
      · rw [compressFuel_of_no_match fuel hpos hfound]
        exact completes_compressFuel fuel _ _ _ (Nat.le_succ_of_le hanchor) (by omega) (by omega)
      · obtain ⟨hleft, _⟩ := matchAt_bounds hfound
        rw [compressFuel_of_match fuel hpos hfound, List.append_assoc]
        exact completes_pending hanchor hp (completes_match hp hfound
          (completes_compressFuel fuel _ _ _ (Nat.le_refl _) (by omega) (by omega)))
    · rw [compressFuel_of_end fuel (Nat.not_le.mp hpos), ← List.append_nil (emitLits _)]
      exact completes_pending (hanchor.trans hp) (Nat.le_refl _) (completes_nil x)

end Block

/-- Settles O44: the block completes the input from its first byte on, and decompression executes its tokens. -/
theorem decompressOfCompressIsTheInput : Obligations.DecompressOfCompressIsTheInput := by
  intro level x y cap hlevel hn hcap hcompress
  rw [compress_eq_ok ((encPrecheck_none _ _ _).mpr ⟨hlevel, hn, hcap⟩)] at hcompress
  obtain rfl := Except.ok.inj hcompress
  obtain ⟨hblock, _⟩ := compressedBlockStartsWithLiteral level x hlevel hn
  obtain ⟨tokens, htokens, hbytes, hrun⟩ : Completes x 0 (compressedBlock level x) :=
    completes_compressFuel (x.length + 1) 0 0 [] (Nat.le_refl 0) (Nat.zero_le _) (by omega)
  have hne : tokens ≠ [] := by
    rintro rfl
    exact hblock hbytes
  rw [hbytes, decompress_flatMap_encodeToken hne htokens]
  exact hrun

end Sys2Proof.Proofs
end

section
/-! PROOFS. The host protocol (43_host_protocol.md R241, R243): what a host command leaves unchanged, and that the results of a unit that
is not BUSY persist. -/

namespace Sys2Proof.Proofs

open Sys2Proof Sys2Proof.Machine

/-! ### The frame of each command (R132 to R135, R241) -/

/-- START of ADL touches neither the operands nor the lanes (R134; log entry 13). -/
theorem adlStart_frame (u : AdlUnit) : u.start.input = u.input ∧ u.start.s1 = u.s1 ∧ u.start.s2 = u.s2 := by
  rw [adlStart_eq]
  exact ⟨rfl, rfl, rfl⟩

section Frames

variable {s t : State}

theorem execAdlInit_frame (h : exec .adlInit s = .next t) : t = { s with adl := t.adl } ∧ t.adl.input = s.adl.input := by
  obtain ⟨_, hignored⟩ | ⟨_, hinit⟩ := execAdlInit_cases s
  · cases hignored.symm.trans h
    exact ⟨rfl, rfl⟩
  · cases hinit.symm.trans h
    exact ⟨rfl, rfl⟩

theorem execAdlLoad_frame {v : Word} (h : exec (.adlLoad v) s = .next t) :
    t = { s with adl := t.adl } ∧ t.adl.input = s.adl.input := by
  cases hbusy : s.busy .adl with
  | true => cases (execAdlLoad_of_busy hbusy v).symm.trans h
  | false =>
    cases (execAdlLoad_of_not_busy hbusy v).symm.trans h
    exact ⟨rfl, rfl⟩

theorem execAdlUpdate_frame (h : exec .adlUpdate s = .next t) :
    t = { s with adl := t.adl } ∧ t.adl.input = s.adl.input ∧ t.adl.s1 = s.adl.s1 ∧ t.adl.s2 = s.adl.s2 := by
  obtain ⟨_, hignored⟩ | ⟨_, _, _, hrefused⟩ | ⟨_, _, hstart⟩ := execAdlUpdate_cases s
  · cases hignored.symm.trans h
    exact ⟨rfl, rfl, rfl, rfl⟩
  · cases hrefused.symm.trans h
  · cases hstart.symm.trans h
    exact ⟨rfl, adlStart_frame s.adl⟩

/-- `ADL.READ` is a register read, which changes what the host holds and the count of free values alone. -/
theorem execAdlRead_frame (h : exec .adlRead s = .next t) :
    t = { s with hostData := t.hostData, freeCount := t.freeCount } := by
  cases h
  unfold State.readReg
  split <;> rfl

theorem execEncCompress_frame (h : exec .encCompress s = .next t) : t = { s with enc := t.enc } ∧
    t.enc.input = s.enc.input ∧ t.enc.output = s.enc.output ∧ t.enc.level = s.enc.level := by
  obtain ⟨_, hignored⟩ | ⟨_, _, _, hfault⟩ | ⟨_, _, _, _, hrefused⟩ | ⟨_, _, _, hstart⟩ := execEncCompress_cases s
  · cases hignored.symm.trans h
    exact ⟨rfl, rfl, rfl, rfl⟩
  · cases hfault.symm.trans h
    exact ⟨rfl, rfl, rfl, rfl⟩
  · cases hrefused.symm.trans h
  · cases hstart.symm.trans h
    exact ⟨rfl, rfl, rfl, rfl⟩

theorem execDecDecompress_frame (h : exec .decDecompress s = .next t) : t = { s with dec := t.dec } ∧
    t.dec.input = s.dec.input ∧ t.dec.output = s.dec.output := by
  obtain ⟨_, hignored⟩ | ⟨_, _, hfault⟩ | ⟨_, _, _, _, hrefused⟩ | ⟨_, _, _, hstart⟩ := execDecDecompress_cases s
  · cases hignored.symm.trans h
    exact ⟨rfl, rfl, rfl⟩
  · cases hfault.symm.trans h
    exact ⟨rfl, rfl, rfl⟩
  · cases hrefused.symm.trans h
  · cases hstart.symm.trans h
    exact ⟨rfl, rfl, rfl⟩

end Frames

/-- Settles O41, command by command. -/
theorem hostCommandFrame : Obligations.HostCommandFrame := by
  refine fun s t => ⟨?_, fun h => ?_, execAdlRead_frame, execEncCompress_frame, execDecDecompress_frame⟩
  · rintro i (rfl | rfl | ⟨v, rfl⟩) h
    · exact execAdlInit_frame h
    · obtain ⟨hframe, hinput, _⟩ := execAdlUpdate_frame h
      exact ⟨hframe, hinput⟩
    · exact execAdlLoad_frame h
  · obtain ⟨_, _, hlanes⟩ := execAdlUpdate_frame h
    exact hlanes

/-! ### Results persist (R243) -/

/-- What a unit's results are made of: no operand register, no cursor and no other unit. -/
theorem results_adl (s : State) :
    s.results .adl = [s.adl.status.code, s.adl.err.code, 0, s.adl.sum.toNat] := rfl

theorem results_enc (s : State) :
    s.results .enc = [s.enc.status.code, s.enc.err.code, s.enc.outLen.toNat, 0] := rfl

theorem results_dec (s : State) :
    s.results .dec = [s.dec.status.code, s.dec.err.code, s.dec.outLen.toNat, 0] := rfl

/-- The turn of a unit that is not BUSY does nothing (R277). -/
theorem adlTurn_of_not_busy {s : State} (h : s.busy .adl = false) : adlTurn s = s := by
  simp [adlTurn, h]

theorem encTurn_of_not_busy {s : State} (h : s.busy .enc = false) : encTurn s = s := by
  simp [encTurn, h]

theorem decTurn_of_not_busy {s : State} (h : s.busy .dec = false) : decTurn s = .next s := by
  simp [decTurn, h]

/-- If the host moves, its first action is no reset, no write of the unit's `CMD` and, for ADL, no write of `ADL_SUM`: none of the ends
R243 gives to the unit's results. -/
def HostLeavesResults (s : State) (u : UnitId) : Prop :=
  s.mover = .host → ∀ a queue, s.hostQueue = a :: queue →
    a ≠ .reset ∧ (∀ v, a ≠ .access (.write u .cmd v)) ∧ (u = .adl → ∀ v, a ≠ .access (.write .adl .reg8 v))

section Persist

variable {s t : State} (hstep : step s = .next t)
include hstep

theorem adlResults_persist (hidle : s.busy .adl = false) (hleaves : HostLeavesResults s .adl) :
    t.results .adl = s.results .adl := by
  obtain hsame | ⟨_, rfl⟩ | ⟨_, _, hoperand⟩ | ⟨hhost, _, _, hq⟩ | ⟨hhost, _, a, _, hq, hcommand⟩ := step_adl_cases hstep
  · rw [results_adl, hsame, results_adl]
  · rw [adlTurn_of_not_busy (s := s.popTurn) hidle]
    rfl
  · rw [results_adl, hoperand]
    rfl
  · obtain ⟨hreset, _⟩ := hleaves hhost _ _ hq
    exact absurd rfl hreset
  · obtain ⟨_, hcmd, hsum⟩ := hleaves hhost _ _ hq
    obtain ⟨hinit, _⟩ | ⟨hstart, _⟩ | ⟨v, hload, _⟩ := hcommand
    · exact absurd hinit (hcmd 2)
    · exact absurd hstart (hcmd 1)
    · exact absurd hload (hsum rfl v)

theorem encResults_persist (hidle : s.busy .enc = false) (hleaves : HostLeavesResults s .enc) :
    t.results .enc = s.results .enc := by
  obtain hsame | ⟨_, rfl⟩ | ⟨_, _, _, _, hoperand⟩ | ⟨hhost, _, _, hq⟩ | ⟨hhost, _, _, hq, _⟩ := step_enc_cases hstep
  · rw [results_enc, hsame, results_enc]
  · rw [encTurn_of_not_busy (s := s.popTurn) hidle]
    rfl
  · rw [results_enc, hoperand]
    rfl
  · obtain ⟨hreset, _⟩ := hleaves hhost _ _ hq
    exact absurd rfl hreset
  · obtain ⟨_, hcmd, _⟩ := hleaves hhost _ _ hq
    exact absurd rfl (hcmd 1)

theorem decResults_persist (hidle : s.busy .dec = false) (hleaves : HostLeavesResults s .dec) :
    t.results .dec = s.results .dec := by
  obtain hsame | ⟨_, hturn⟩ | ⟨_, _, _, hoperand⟩ | ⟨hhost, _, _, hq⟩ | ⟨hhost, _, _, hq, _⟩ := step_dec_cases hstep
  · rw [results_dec, hsame, results_dec]
  · cases (decTurn_of_not_busy (s := s.popTurn) hidle).symm.trans hturn
    rfl
  · rw [results_dec, hoperand]
    rfl
  · obtain ⟨hreset, _⟩ := hleaves hhost _ _ hq
    exact absurd rfl hreset
  · obtain ⟨_, hcmd, _⟩ := hleaves hhost _ _ hq
    exact absurd rfl (hcmd 1)

end Persist

/-- Settles O49, by what a step can do to each unit. -/
theorem resultsPersist : Obligations.ResultsPersist := by
  intro s t u hidle hstep hleaves
  cases u with
  | adl => exact adlResults_persist hstep hidle hleaves
  | enc => exact encResults_persist hstep hidle hleaves
  | dec => exact decResults_persist hstep hidle hleaves

end Sys2Proof.Proofs
end

section
/-! PROOFS. Reset and hazards (70_reset_and_hazards.md R290 to R292, R300): agents with nothing to do, the host's memory accesses beside
running operations, and the reset event. -/

namespace Sys2Proof.Proofs

open Sys2Proof Sys2Proof.Machine

/-! ### Agents with nothing to do (R277, R291) -/

theorem step_of_adlMoves {s : State} (hm : s.mover = .adl) : step s = .next (adlTurn s.popTurn) := by
  simp only [step, hm]

theorem step_of_encMoves {s : State} (hm : s.mover = .enc) : step s = .next (encTurn s.popTurn) := by
  simp only [step, hm]

theorem step_of_hostMoves_nil {s : State} (hm : s.mover = .host) (hq : s.hostQueue = []) : step s = .next s.popTurn := by
  simp only [step, hm, hostTurn, State.popTurn_hostQueue, hq]

/-- Settles O11: the step is the mover's turn, and the turn of an idle agent does nothing. -/
theorem idleAgentsChangeNothing : Obligations.IdleAgentsChangeNothing := by
  refine fun s => ⟨fun hm hidle => ?_, fun hm hidle => ?_, fun hm hidle => ?_, step_of_hostMoves_nil⟩
  · rw [step_of_adlMoves hm, adlTurn_of_not_busy ((State.popTurn_busy s .adl).trans hidle)]
  · rw [step_of_encMoves hm, encTurn_of_not_busy ((State.popTurn_busy s .enc).trans hidle)]
  · rw [step_of_decMoves hm, decTurn_of_not_busy ((State.popTurn_busy s .dec).trans hidle)]

/-! ### The host's memory accesses (R300, U2) -/

section HostMemory

variable {s : State} {a : Nat} (hspace : a < 2 ^ s.platform.addrBits) (hordinary : isDevice s.platform a = false)
include hspace hordinary

/-- At an address of ordinary memory a host write depends on who owns the byte alone. -/
theorem hostMemWrite_ordinary (b : Byte) : hostMemWrite a b s =
    if s.ownedBufs.any (·.holds a) then .refused (.hostTouchesBusyBuffer a) else .next (s.setMem (s.mem.write a b)) := by
  rw [hostMemWrite, if_neg (Nat.not_le.mpr hspace), if_neg (ne_true_of_eq_false hordinary)]

/-- At an address of ordinary memory a host read depends on whether a running operation may write the byte alone. -/
theorem hostMemRead_ordinary : hostMemRead a s =
    if s.outBufs.any (·.holds a) then .refused (.hostTouchesBusyBuffer a)
    else .next (s.setHostData (s.mem.read a).toNat) := by
  rw [hostMemRead, if_neg (Nat.not_le.mpr hspace), if_neg (ne_true_of_eq_false hordinary)]

end HostMemory

/-- Settles O50: each access by the owner of its byte, and the write's frame by read after write. -/
theorem hostMemoryAccess : Obligations.HostMemoryAccess := by
  intro s a b hspace hordinary
  have hwrite : runAction (.memWrite a b) s = _ := hostMemWrite_ordinary hspace hordinary b
  have hread : runAction (.memRead a) s = _ := hostMemRead_ordinary hspace hordinary
  refine ⟨fun howned => ?_, fun hfree hwf => ?_, fun hout => ?_, fun hfree => ?_⟩
  · rw [hwrite, if_pos howned]
  · refine ⟨s.setMem (s.mem.write a b), ?_, ?_, fun a' hne => ?_, rfl⟩
    · rw [hwrite, hfree, if_neg Bool.false_ne_true]
    · rw [State.setMem_mem, Mem.read_write hwf, if_pos rfl]
    · rw [State.setMem_mem, Mem.read_write hwf, if_neg hne]
  · rw [hread, if_pos hout]
  · rw [hread, hfree, if_neg Bool.false_ne_true]
    rfl

/-! ### The reset event (R290 to R292) -/

theorem blockReset_units (s : State) : (blockReset s).adl = AdlUnit.reset ∧ (blockReset s).enc = EncUnit.reset ∧
    (blockReset s).dec = DecUnit.reset := ⟨rfl, rfl, rfl⟩

/-- The host's own fields and the platform outlive a reset (log entry 11). -/
theorem blockReset_host (s : State) : (blockReset s).platform = s.platform ∧ (blockReset s).hostQueue = s.hostQueue ∧
    (blockReset s).turns = s.turns ∧ (blockReset s).hostData = s.hostData := ⟨rfl, rfl, rfl, rfl⟩

theorem blockReset_mem (s : State) : (blockReset s).mem = scrambleBufs s.mem s.freeCount s.outBufs := rfl

/-- Every unit is `IDLE` after a reset (R47). -/
theorem blockReset_status (s : State) (u : UnitId) : (blockReset s).reg u .status = 0 := by
  cases u <;> rfl

/-- A reset keeps every byte that no running operation may write (R292). -/
theorem read_blockReset_of_not_output {s : State} (hwf : Memory.wf s.mem = true) {a : Nat}
    (ha : s.outBufs.any (·.holds a) = false) : (blockReset s).mem.read a = s.mem.read a := by
  rw [blockReset_mem]
  exact read_scrambleBufs_frame s.freeCount s.outBufs a hwf ha

/-- Settles O53: the action is `blockReset`, with its units, its memory and the host's fields. -/
theorem resetEvent : Obligations.ResetEvent := by
  intro s hwf
  obtain ⟨hadl, henc, hdec⟩ := blockReset_units s
  have hsum : (blockReset s).adl.sum = 1#32 := by rw [hadl]; decide
  exact ⟨blockReset s, rfl, hadl, henc, hdec, hsum, blockReset_status s,
    fun _ ha => read_blockReset_of_not_output hwf ha, blockReset_host s⟩

end Sys2Proof.Proofs
end
